-- ==== Sys2Proof/Word.lean ====
section
/-! DEFINITION. The widths of PSXBB-CORE (00_scope.md R14): bus bytes are 8 bits, counters and
timestamps 32, the poll-interval sum 64, operation words 16 (30_encoding.md R115). -/

namespace Sys2Proof

/-- A bus byte, address, command or snapshot field (R14). -/
abbrev Byte := BitVec 8

/-- A counter, a timestamp or a duration in ticks (R14). -/
abbrev U32 := BitVec 32

/-- The poll-interval sum (R14). -/
abbrev U64 := BitVec 64

/-- An operation word (R115). -/
abbrev OpWord := BitVec 16

/-- A control-store address, 5 bits (10_state.md R40). -/
abbrev Pc := BitVec 5

/-- A channel index, 0 or 1 (R14). -/
abbrev Idx := BitVec 1

end Sys2Proof
end

