-- ==== Sys2Proof/Config.lean ====
section
/-! DEFINITION. The implementation parameters of PSXBB-CORE (00_scope.md R13), the environment's inputs,
and the free values: constants without a body, which stand for every value of their type. -/

namespace Sys2Proof

/-- The parameters of R13, as drawn, before their constraints are checked. -/
structure RawParams where
  /-- P_IGNORE_SET. -/
  ignoreSet : List Byte
  /-- P_BYTE_TIMEOUT. -/
  byteTimeout : U32
  /-- P_EDGE_TIMEOUT. -/
  edgeTimeout : U32
  /-- P_ACK_DELAY. -/
  ackDelay : U32
  /-- P_ACK_PULSE_FIXED. -/
  ackPulseFixed : U32
  /-- P_POST_WAIT_FIXED. -/
  postWaitFixed : U32
  /-- P_DEBOUNCE. -/
  debounce : U32
  /-- P_PW_MIN. -/
  pwMin : U32
  /-- P_PW_MAX. -/
  pwMax : U32
  /-- P_PWAIT_MIN. -/
  pwaitMin : U32
  /-- P_PWAIT_MAX. -/
  pwaitMax : U32
  /-- P_CAL_STEP. -/
  calStep : U32
  /-- P_TRIAL_N. -/
  trialN : U32
  /-- P_TRIAL_TIMEOUT. -/
  trialTimeout : U32
  /-- P_MIN_RATE_NUM. -/
  minRateNum : U32
  /-- P_MIN_RATE_DEN. -/
  minRateDen : U32
  /-- P_IDLE_TIMEOUT. -/
  idleTimeout : U32
  /-- P_LATCH: true is Latching, false is Direct (43_channel.md R241). -/
  latch : Bool
  /-- P_CAL_ENABLE (42_calibrator.md R210). -/
  calEnable : Bool
  /-- P_BIT_UP. -/
  bitUp : Fin 8
  /-- P_BIT_DOWN. -/
  bitDown : Fin 8
  /-- P_BIT_LEFT. -/
  bitLeft : Fin 8
  /-- P_BIT_RIGHT. -/
  bitRight : Fin 8
  /-- P_NOW0. -/
  now0 : U32
  deriving DecidableEq, Repr, Inhabited

/-- The bound of every duration in R13. -/
abbrev durationBound : Nat := 2 ^ 31

/-- The constraints of R13, which 70_reset_and_hazards.md R323 makes a model enforce. -/
def RawParams.ok (p : RawParams) : Bool :=
  (!p.ignoreSet.contains 0x01 && !p.ignoreSet.contains 0x81 && !p.ignoreSet.contains 0xFF) &&
  (decide (0 < p.byteTimeout.toNat) && decide (p.byteTimeout.toNat < durationBound)) &&
  (decide (0 < p.edgeTimeout.toNat) && decide (p.edgeTimeout.toNat < durationBound)) &&
  decide (p.ackDelay.toNat < durationBound) &&
  decide (p.ackPulseFixed.toNat < durationBound) &&
  decide (p.postWaitFixed.toNat < durationBound) &&
  decide (p.debounce.toNat < durationBound) &&
  (decide (p.pwMin.toNat ≤ p.pwMax.toNat) && decide (p.pwMax.toNat < durationBound)) &&
  (decide (p.pwaitMin.toNat ≤ p.pwaitMax.toNat) && decide (p.pwaitMax.toNat < durationBound)) &&
  (decide (0 < p.calStep.toNat) && decide (p.calStep.toNat < durationBound)) &&
  decide (1 ≤ p.trialN.toNat) &&
  decide (p.trialTimeout.toNat < durationBound) &&
  (decide (1 ≤ p.minRateDen.toNat) && decide (p.minRateNum.toNat ≤ p.minRateDen.toNat)) &&
  (decide (0 < p.idleTimeout.toNat) && decide (p.idleTimeout.toNat < durationBound)) &&
  decide ([p.bitUp, p.bitDown, p.bitLeft, p.bitRight].Nodup)

/-- A parameter set that meets R13. A set that breaks a constraint cannot be built, so no machine runs
with one (R323; 93_implementation_defined.md I4). -/
structure Params extends RawParams where
  ok : toRawParams.ok = true
  deriving DecidableEq, Repr

/-- The check of R323: nothing for a set that breaks a constraint of R13. -/
def RawParams.check (p : RawParams) : Option Params :=
  if h : p.ok = true then some ⟨p, h⟩ else none

/-- What HOST drives (10_state.md R31, R34), all five bits at once. -/
structure Pins where
  /-- SEL_N, active low. -/
  selN : Bool
  /-- CLK. -/
  clk : Bool
  /-- CMD. -/
  cmd : Bool
  /-- `dat_ext`: false exactly when another device drives DAT low. -/
  datExt : Bool
  /-- `ack_ext`: false exactly when another device drives ACK low. -/
  ackExt : Bool
  deriving DecidableEq, Repr, Inhabited

/-- One choice of the scheduler (60_exceptions.md R290): which agent steps, with the inputs its step takes.
DESIGN CHOICE (entry 3), safe: `engine` is the protocol context, in which ISR steps if it is enabled and
ENGINE otherwise (R286, R298), so every choice names an enabled agent. -/
inductive Turn where
  /-- The protocol context: ISR if enabled, else ENGINE. -/
  | engine
  /-- WRITER, with the snapshot port showing (S1, S2) (10_state.md R35). -/
  | writer (s1 s2 : Byte)
  /-- TELEMETRY, which is given an operation word (44_telemetry.md R266). -/
  | telemetry (w : OpWord)
  /-- HOST, which sets any subset of its five bits to any values (R296). -/
  | host (p : Pins)
  /-- TIMEBASE (R300). -/
  | timebase
  deriving DecidableEq, Repr, Inhabited

/-- Free value: the parameters the machine was built with (R12, R13: each implementation decides). -/
opaque Config.rawParams : RawParams

/-- Free value: the interleaving (93_implementation_defined.md I8, I9), one turn for each count. -/
opaque Config.schedule : Nat → Turn

/-- Free value: the ports at reset, "any (HOST's)" (70_reset_and_hazards.md R320). -/
opaque Config.resetPins : Pins

/-- A parameter set that meets R13, used only as the other case of `Config.params`. It is the test set V of
95_test_vectors.md with both modes off, and no statement rests on it. -/
def Params.standIn : Params where
  ignoreSet := [0x03]
  byteTimeout := 200
  edgeTimeout := 100
  ackDelay := 0
  ackPulseFixed := 3
  postWaitFixed := 2
  debounce := 2
  pwMin := 2
  pwMax := 6
  pwaitMin := 0
  pwaitMax := 4
  calStep := 2
  trialN := 2
  trialTimeout := 1000000
  minRateNum := 1
  minRateDen := 2
  idleTimeout := 500000
  latch := false
  calEnable := false
  bitUp := 4
  bitDown := 6
  bitLeft := 7
  bitRight := 5
  now0 := 0
  ok := by decide

/-- The parameters in force at reset: the draw, which R13 requires to meet its constraints.
DESIGN CHOICE (entry 2), safe: a draw that breaks them is no machine (R323), and this constant, which needs a
value all the same, is then the stand-in. Every set that meets R13 is a possible value. -/
def Config.params : Params := (Config.rawParams.check).getD Params.standIn

end Sys2Proof
end

