-- ==== Sys2Proof/Syntax.lean ====
section
/-! DEFINITION. The instructions: one constructor for each row of spec/opcode_table.json, the 24 operation
words of 30_encoding.md R117 and the 10 wire bytes of R113. -/

namespace Sys2Proof

/-- The agents that perform operations (10_state.md R30). HOST and TIMEBASE have none (30_encoding.md R110). -/
inductive Agent where
  | engine
  | isr
  | writer
  | telemetry
  deriving DecidableEq, Repr

/-- Operand kind REG (R115): 0 is `R.b1`, 1 is `R.b2`. -/
inductive ButtonReg where
  | b1
  | b2
  deriving DecidableEq, Repr

/-- Operand kind TSEL (R115): 0 is P_EDGE_TIMEOUT, 1 is P_BYTE_TIMEOUT. -/
inductive TimeoutSel where
  | edge
  | byte
  deriving DecidableEq, Repr

/-- Operand kind DSEL (R115): 0 is the effective post-wait, 1 is P_ACK_DELAY, 2 is P_DEBOUNCE. -/
inductive DelaySel where
  | post
  | ackdly
  | debounce
  deriving DecidableEq, Repr

/-- Operand kind OSEL (R115): 0 reports failure, 1 success iff `R.cmd` is not 0xFF. -/
inductive ObsSel where
  | fail
  | cmd
  deriving DecidableEq, Repr

/-- Operand kind TIDX: the registers of the telemetry port (44_telemetry.md R268), in index order. -/
inductive TelReg where
  | stTotal
  | controller
  | memcard
  | invalid
  | timeout
  | lastInvAddr
  | lastInvCmd
  | pollMin
  | pollMax
  | pollAvg
  | calPulse
  | calPost
  | calLocked
  | calStarted
  deriving DecidableEq, Repr

/-- Where a byte stands on the wire (30_encoding.md R113). -/
inductive WirePos where
  | address
  | command
  | transmit
  deriving DecidableEq, Repr

/-- The operations (R110) and the wire bytes the hardware decodes or emits (R113). -/
inductive Instr where
  | idlewait
  | start
  | rx
  | dispatch
  | ack
  | delay (d : DelaySel)
  | xferi (v : Byte)
  | xferr (r : ButtonReg)
  | calobs (o : ObsSel)
  | cmdchk
  | stpoll
  | chr
  | endTxn
  | mcwait
  | abort
  | txi (v : Byte)
  | txr (r : ButtonReg)
  | waitf (t : TimeoutSel)
  | waitr (t : TimeoutSel)
  | relbus
  | caltick
  | chw
  | isr
  | tread (x : TelReg)
  | addrController
  | addrMemcard
  | addrSentinel
  | addrIgnored (b : Byte)
  | addrInvalid (b : Byte)
  | cmdPoll
  | cmdSentinel
  | cmdOther (b : Byte)
  | idLow
  | idHigh
  deriving DecidableEq, Repr

/-- The agent that performs an instruction (R110). The wire bytes are decoded and sent by ENGINE. -/
def Instr.agent : Instr → Agent
  | .chw => .writer
  | .isr => .isr
  | .tread _ => .telemetry
  | .idlewait => .engine
  | .start => .engine
  | .rx => .engine
  | .dispatch => .engine
  | .ack => .engine
  | .delay _ => .engine
  | .xferi _ => .engine
  | .xferr _ => .engine
  | .calobs _ => .engine
  | .cmdchk => .engine
  | .stpoll => .engine
  | .chr => .engine
  | .endTxn => .engine
  | .mcwait => .engine
  | .abort => .engine
  | .txi _ => .engine
  | .txr _ => .engine
  | .waitf _ => .engine
  | .waitr _ => .engine
  | .relbus => .engine
  | .caltick => .engine
  | .addrController => .engine
  | .addrMemcard => .engine
  | .addrSentinel => .engine
  | .addrIgnored _ => .engine
  | .addrInvalid _ => .engine
  | .cmdPoll => .engine
  | .cmdSentinel => .engine
  | .cmdOther _ => .engine
  | .idLow => .engine
  | .idHigh => .engine

/-- True of the 24 operations that have an operation word, false of the 10 wire bytes. -/
def Instr.isWord : Instr → Bool
  | .addrController => false
  | .addrMemcard => false
  | .addrSentinel => false
  | .addrIgnored _ => false
  | .addrInvalid _ => false
  | .cmdPoll => false
  | .cmdSentinel => false
  | .cmdOther _ => false
  | .idLow => false
  | .idHigh => false
  | .idlewait => true
  | .start => true
  | .rx => true
  | .dispatch => true
  | .ack => true
  | .delay _ => true
  | .xferi _ => true
  | .xferr _ => true
  | .calobs _ => true
  | .cmdchk => true
  | .stpoll => true
  | .chr => true
  | .endTxn => true
  | .mcwait => true
  | .abort => true
  | .txi _ => true
  | .txr _ => true
  | .waitf _ => true
  | .waitr _ => true
  | .relbus => true
  | .caltick => true
  | .chw => true
  | .isr => true
  | .tread _ => true

end Sys2Proof
end

