-- ==== Sys2Proof/WellFormed.lean ====
section
/-! DEFINITION. Which terms of `Instr` stand for an encoding. The operands of the operation words are typed, so
each of them is well formed; a wire row with a byte operand covers only the bytes of its condition (R113). -/

namespace Sys2Proof

/-- The address bytes with a row of their own (30_encoding.md R113). -/
def namedAddress (b : Byte) : Bool := b == 0x01 || b == 0x81 || b == 0xFF

/-- The command bytes with a row of their own (R113). -/
def namedCommand (b : Byte) : Bool := b == 0x42 || b == 0xFF

/-- Well-formedness under the ignore list P_IGNORE_SET: the conditions of the table's rows ADDR_IGNORED,
ADDR_INVALID and CMD_OTHER. -/
def Instr.wf (ignore : List Byte) : Instr → Bool
  | .addrIgnored b => ignore.contains b && !namedAddress b
  | .addrInvalid b => !ignore.contains b && !namedAddress b
  | .cmdOther b => !namedCommand b
  | .idlewait => true
  | .start => true
  | .rx => true
  | .dispatch => true
  | .ack => true
  | .delay _ => true
  | .xferi _ => true
  | .xferr _ => true
  | .calobs _ => true
  | .cmdchk => true
  | .stpoll => true
  | .chr => true
  | .endTxn => true
  | .mcwait => true
  | .abort => true
  | .txi _ => true
  | .txr _ => true
  | .waitf _ => true
  | .waitr _ => true
  | .relbus => true
  | .caltick => true
  | .chw => true
  | .isr => true
  | .tread _ => true
  | .addrController => true
  | .addrMemcard => true
  | .addrSentinel => true
  | .cmdPoll => true
  | .cmdSentinel => true
  | .idLow => true
  | .idHigh => true

end Sys2Proof
end

