-- ==== Sys2Proof/Decode.lean ====
section
/-! DEFINITION. The decoder of operation words (30_encoding.md R115 to R118) and of wire bytes (R113), the
encoder, and the textual form (R121). Both decoders are total and reject by name. -/

namespace Sys2Proof

/-- Why an encoding is rejected (R118). -/
inductive Reserved where
  /-- OPC is not in R117. -/
  | opcode (opc : Byte)
  /-- OPND is not a value of the opcode's operand kind. -/
  | operand (opc opnd : Byte)
  /-- A transmitted byte that is neither identification byte. -/
  | notIdentification (b : Byte)
  deriving DecidableEq, Repr

/-- OPC, bits 7..0 (R115). -/
def opcOf (w : OpWord) : Byte := w.extractLsb' 0 8

/-- OPND, bits 15..8 (R115). -/
def opndOf (w : OpWord) : Byte := w.extractLsb' 8 8

/-- An operation word from its two fields (R115). -/
def mkWord (opc opnd : Byte) : OpWord := opnd ++ opc

/-- Operand kind NONE: OPND is 0x00 (R115). -/
def decodeNone (opc opnd : Byte) (i : Instr) : Except Reserved Instr :=
  if opnd = 0x00 then .ok i else .error (.operand opc opnd)

/-- Operand kind REG (R115). -/
def decodeReg (opc opnd : Byte) (f : ButtonReg → Instr) : Except Reserved Instr :=
  if opnd = 0x00 then .ok (f .b1)
  else if opnd = 0x01 then .ok (f .b2)
  else .error (.operand opc opnd)

/-- Operand kind TSEL (R115). -/
def decodeTsel (opc opnd : Byte) (f : TimeoutSel → Instr) : Except Reserved Instr :=
  if opnd = 0x00 then .ok (f .edge)
  else if opnd = 0x01 then .ok (f .byte)
  else .error (.operand opc opnd)

/-- Operand kind DSEL (R115); 3 is reserved. -/
def decodeDsel (opc opnd : Byte) (f : DelaySel → Instr) : Except Reserved Instr :=
  if opnd = 0x00 then .ok (f .post)
  else if opnd = 0x01 then .ok (f .ackdly)
  else if opnd = 0x02 then .ok (f .debounce)
  else .error (.operand opc opnd)

/-- Operand kind OSEL (R115). -/
def decodeOsel (opc opnd : Byte) (f : ObsSel → Instr) : Except Reserved Instr :=
  if opnd = 0x00 then .ok (f .fail)
  else if opnd = 0x01 then .ok (f .cmd)
  else .error (.operand opc opnd)

/-- The telemetry register at an index (44_telemetry.md R268); above 0x0D there is none. -/
def telRegOf (x : Byte) : Option TelReg :=
  match x.toNat with
  | 0x00 => some .stTotal
  | 0x01 => some .controller
  | 0x02 => some .memcard
  | 0x03 => some .invalid
  | 0x04 => some .timeout
  | 0x05 => some .lastInvAddr
  | 0x06 => some .lastInvCmd
  | 0x07 => some .pollMin
  | 0x08 => some .pollMax
  | 0x09 => some .pollAvg
  | 0x0A => some .calPulse
  | 0x0B => some .calPost
  | 0x0C => some .calLocked
  | 0x0D => some .calStarted
  | _ => none

/-- Operand kind TIDX (R115). -/
def decodeTidx (opc opnd : Byte) (f : TelReg → Instr) : Except Reserved Instr :=
  match telRegOf opnd with
  | some x => .ok (f x)
  | none => .error (.operand opc opnd)

/-- The decoder of operation words, the table of R117. -/
def decodeWord (w : OpWord) : Except Reserved Instr :=
  let opc := opcOf w
  let opnd := opndOf w
  match opc.toNat with
  | 0x01 => decodeNone opc opnd .idlewait
  | 0x02 => decodeNone opc opnd .start
  | 0x03 => decodeNone opc opnd .rx
  | 0x04 => decodeNone opc opnd .dispatch
  | 0x05 => decodeNone opc opnd .ack
  | 0x06 => decodeDsel opc opnd .delay
  | 0x07 => .ok (.xferi opnd)
  | 0x08 => decodeReg opc opnd .xferr
  | 0x09 => decodeOsel opc opnd .calobs
  | 0x0A => decodeNone opc opnd .cmdchk
  | 0x0B => decodeNone opc opnd .stpoll
  | 0x0C => decodeNone opc opnd .chr
  | 0x0D => decodeNone opc opnd .endTxn
  | 0x0E => decodeNone opc opnd .mcwait
  | 0x0F => decodeNone opc opnd .abort
  | 0x10 => .ok (.txi opnd)
  | 0x11 => decodeReg opc opnd .txr
  | 0x12 => decodeTsel opc opnd .waitf
  | 0x13 => decodeTsel opc opnd .waitr
  | 0x14 => decodeNone opc opnd .relbus
  | 0x15 => decodeNone opc opnd .caltick
  | 0x20 => decodeNone opc opnd .chw
  | 0x30 => decodeNone opc opnd .isr
  | 0x31 => decodeTidx opc opnd .tread
  | _ => .error (.opcode opc)

/-- A byte in the address position, in the table's decode order (R113; 41_transaction_fsm.md R173, R174). -/
def decodeAddr (ignore : List Byte) (b : Byte) : Instr :=
  if b = 0xFF then .addrSentinel
  else if b = 0x01 then .addrController
  else if b = 0x81 then .addrMemcard
  else if ignore.contains b then .addrIgnored b
  else .addrInvalid b

/-- A byte in the command position (R113; 41_transaction_fsm.md R182). -/
def decodeCmd (b : Byte) : Instr :=
  if b = 0xFF then .cmdSentinel
  else if b = 0x42 then .cmdPoll
  else .cmdOther b

/-- A transmitted identification byte (R113). The button bytes are data, not rows of the table. -/
def decodeTx (b : Byte) : Except Reserved Instr :=
  if b = 0x41 then .ok .idLow
  else if b = 0x5A then .ok .idHigh
  else .error (.notIdentification b)

/-- An encoding: a 16-bit operation word, or a byte at a position of the wire (R120). -/
inductive Code where
  | word (w : OpWord)
  | wire (p : WirePos) (b : Byte)
  deriving DecidableEq, Repr

/-- The whole decoder, under the ignore list. -/
def decode (ignore : List Byte) : Code → Except Reserved Instr
  | .word w => decodeWord w
  | .wire .address b => .ok (decodeAddr ignore b)
  | .wire .command b => .ok (decodeCmd b)
  | .wire .transmit b => decodeTx b

/-- REG's operand byte (R115). -/
def ButtonReg.code : ButtonReg → Byte
  | .b1 => 0x00
  | .b2 => 0x01

/-- TSEL's operand byte (R115). -/
def TimeoutSel.code : TimeoutSel → Byte
  | .edge => 0x00
  | .byte => 0x01

/-- DSEL's operand byte (R115). -/
def DelaySel.code : DelaySel → Byte
  | .post => 0x00
  | .ackdly => 0x01
  | .debounce => 0x02

/-- OSEL's operand byte (R115). -/
def ObsSel.code : ObsSel → Byte
  | .fail => 0x00
  | .cmd => 0x01

/-- TIDX's operand byte (44_telemetry.md R268). -/
def TelReg.code : TelReg → Byte
  | .stTotal => 0x00
  | .controller => 0x01
  | .memcard => 0x02
  | .invalid => 0x03
  | .timeout => 0x04
  | .lastInvAddr => 0x05
  | .lastInvCmd => 0x06
  | .pollMin => 0x07
  | .pollMax => 0x08
  | .pollAvg => 0x09
  | .calPulse => 0x0A
  | .calPost => 0x0B
  | .calLocked => 0x0C
  | .calStarted => 0x0D

/-- The encoder (R113, R117). -/
def encode : Instr → Code
  | .idlewait => .word (mkWord 0x01 0x00)
  | .start => .word (mkWord 0x02 0x00)
  | .rx => .word (mkWord 0x03 0x00)
  | .dispatch => .word (mkWord 0x04 0x00)
  | .ack => .word (mkWord 0x05 0x00)
  | .delay d => .word (mkWord 0x06 d.code)
  | .xferi v => .word (mkWord 0x07 v)
  | .xferr r => .word (mkWord 0x08 r.code)
  | .calobs o => .word (mkWord 0x09 o.code)
  | .cmdchk => .word (mkWord 0x0A 0x00)
  | .stpoll => .word (mkWord 0x0B 0x00)
  | .chr => .word (mkWord 0x0C 0x00)
  | .endTxn => .word (mkWord 0x0D 0x00)
  | .mcwait => .word (mkWord 0x0E 0x00)
  | .abort => .word (mkWord 0x0F 0x00)
  | .txi v => .word (mkWord 0x10 v)
  | .txr r => .word (mkWord 0x11 r.code)
  | .waitf t => .word (mkWord 0x12 t.code)
  | .waitr t => .word (mkWord 0x13 t.code)
  | .relbus => .word (mkWord 0x14 0x00)
  | .caltick => .word (mkWord 0x15 0x00)
  | .chw => .word (mkWord 0x20 0x00)
  | .isr => .word (mkWord 0x30 0x00)
  | .tread x => .word (mkWord 0x31 x.code)
  | .addrController => .wire .address 0x01
  | .addrMemcard => .wire .address 0x81
  | .addrSentinel => .wire .address 0xFF
  | .addrIgnored b => .wire .address b
  | .addrInvalid b => .wire .address b
  | .cmdPoll => .wire .command 0x42
  | .cmdSentinel => .wire .command 0xFF
  | .cmdOther b => .wire .command b
  | .idLow => .wire .transmit 0x41
  | .idHigh => .wire .transmit 0x5A

/-- The position in which a byte given without one is read.
DESIGN CHOICE (entry 9), safe: the position is state, not bits of the byte (R113), so a byte is read where a row
of the table names its value, 0xFF as the address sentinel, and any other byte in the address position. -/
def tableWirePos (b : Byte) : WirePos :=
  if b = 0x42 then .command
  else if b = 0x41 then .transmit
  else if b = 0x5A then .transmit
  else .address

/-- The instruction read from a table row's bits: 16 bits are an operation word, 8 a wire byte. Entries are not
byte addressed (20_memory.md R85), so an operation word is one unit and has no byte order. -/
def decodeTableWord (nbits w : Nat) : Option Instr :=
  if nbits = 16 then
    match decodeWord (BitVec.ofNat 16 w) with
    | .ok i => some i
    | .error _ => none
  else if nbits = 8 then
    match decode Config.params.ignoreSet (.wire (tableWirePos (BitVec.ofNat 8 w)) (BitVec.ofNat 8 w)) with
    | .ok i => some i
    | .error _ => none
  else none

/-- One hexadecimal digit, as the byte literals of R121 write it. -/
def hexDigit (n : Nat) : String :=
  match n with
  | 0 => "0" | 1 => "1" | 2 => "2" | 3 => "3" | 4 => "4" | 5 => "5" | 6 => "6" | 7 => "7"
  | 8 => "8" | 9 => "9" | 10 => "A" | 11 => "B" | 12 => "C" | 13 => "D" | 14 => "E" | _ => "F"

/-- A byte literal such as 0x41 (R121). -/
def byteLiteral (b : Byte) : String := "0x" ++ hexDigit (b.toNat / 16) ++ hexDigit (b.toNat % 16)

/-- REG's text (R121). -/
def ButtonReg.asm : ButtonReg → String
  | .b1 => "B1"
  | .b2 => "B2"

/-- TSEL's text (R121). -/
def TimeoutSel.asm : TimeoutSel → String
  | .edge => "EDGE"
  | .byte => "BYTE"

/-- DSEL's text (R121). -/
def DelaySel.asm : DelaySel → String
  | .post => "POST"
  | .ackdly => "ACKDLY"
  | .debounce => "DEBOUNCE"

/-- OSEL's text (R121). -/
def ObsSel.asm : ObsSel → String
  | .fail => "FAIL"
  | .cmd => "CMD"

/-- TIDX's text, a register name of 44_telemetry.md R268 (R121). -/
def TelReg.asm : TelReg → String
  | .stTotal => "ST_TOTAL"
  | .controller => "CONTROLLER"
  | .memcard => "MEMCARD"
  | .invalid => "INVALID"
  | .timeout => "TIMEOUT"
  | .lastInvAddr => "LAST_INV_ADDR"
  | .lastInvCmd => "LAST_INV_CMD"
  | .pollMin => "POLL_MIN"
  | .pollMax => "POLL_MAX"
  | .pollAvg => "POLL_AVG"
  | .calPulse => "CAL_PULSE"
  | .calPost => "CAL_POST"
  | .calLocked => "CAL_LOCKED"
  | .calStarted => "CAL_STARTED"

/-- The textual form of an operation (R121, R122). A wire byte has none. -/
def Instr.asm : Instr → Option String
  | .idlewait => some "IDLEWAIT"
  | .start => some "START"
  | .rx => some "RX"
  | .dispatch => some "DISPATCH"
  | .ack => some "ACK"
  | .delay d => some ("DELAY " ++ d.asm)
  | .xferi v => some ("XFERI " ++ byteLiteral v)
  | .xferr r => some ("XFERR " ++ r.asm)
  | .calobs o => some ("CALOBS " ++ o.asm)
  | .cmdchk => some "CMDCHK"
  | .stpoll => some "STPOLL"
  | .chr => some "CHR"
  | .endTxn => some "END"
  | .mcwait => some "MCWAIT"
  | .abort => some "ABORT"
  | .txi v => some ("TXI " ++ byteLiteral v)
  | .txr r => some ("TXR " ++ r.asm)
  | .waitf t => some ("WAITF " ++ t.asm)
  | .waitr t => some ("WAITR " ++ t.asm)
  | .relbus => some "RELBUS"
  | .caltick => some "CALTICK"
  | .chw => some "CHW"
  | .isr => some "ISR"
  | .tread x => some ("TREAD " ++ x.asm)
  | .addrController => none
  | .addrMemcard => none
  | .addrSentinel => none
  | .addrIgnored _ => none
  | .addrInvalid _ => none
  | .cmdPoll => none
  | .cmdSentinel => none
  | .cmdOther _ => none
  | .idLow => none
  | .idHigh => none

end Sys2Proof
end

