-- ==== Sys2Proof/Machine/ControlStore.lean ====
section
/-! DEFINITION. The control store CS: its entries and the fixed 21-entry table of 41_transaction_fsm.md R170. -/

namespace Sys2Proof.Machine

/-- The named outcomes of an operation (00_scope.md R19). -/
inductive Branch where
  | ok
  | fail
  | ctl
  | mc
  | ign
  | inv
  | poll
  | sentinel
  | other
  deriving DecidableEq, Repr

/-- An entry's "dest": the register that receives `R.rx` in the operation's final micro-step (R170). -/
inductive Dest where
  | none
  | addr
  | cmd
  deriving DecidableEq, Repr

/-- One entry of the control store (R170). -/
structure Entry where
  /-- The operation word. -/
  word : OpWord
  /-- The register that receives `R.rx`. -/
  dest : Dest
  /-- The successor of each outcome the entry names. -/
  succs : List (Branch × Pc)
  deriving DecidableEq, Repr

/-- The successor a list names for an outcome. -/
def succOf (l : List (Branch × Pc)) (o : Branch) : Option Pc :=
  match l with
  | [] => none
  | (b, p) :: rest => if b = o then some p else succOf rest o

/-- Entries 0 to 8: idle, address and command (R170). -/
def storeCommand : List Entry := [
  { word := 0x0001, dest := .none, succs := [(.ok, 1)] },
  { word := 0x0002, dest := .none, succs := [(.ok, 2)] },
  { word := 0x0003, dest := .addr, succs := [(.ok, 3), (.fail, 19)] },
  { word := 0x0004, dest := .none, succs := [(.ctl, 4), (.mc, 18), (.ign, 17), (.inv, 17)] },
  { word := 0x0005, dest := .none, succs := [(.ok, 5), (.fail, 20)] },
  { word := 0x0006, dest := .none, succs := [(.ok, 6)] },
  { word := 0x4107, dest := .cmd, succs := [(.ok, 7), (.fail, 7)] },
  { word := 0x0109, dest := .none, succs := [(.ok, 8)] },
  { word := 0x000A, dest := .none, succs := [(.poll, 9), (.sentinel, 19), (.other, 17)] }]

/-- Entries 9 to 16: the poll response (R170, R185). -/
def storePoll : List Entry := [
  { word := 0x000B, dest := .none, succs := [(.ok, 10)] },
  { word := 0x000C, dest := .none, succs := [(.ok, 11)] },
  { word := 0x0005, dest := .none, succs := [(.ok, 12), (.fail, 19)] },
  { word := 0x5A07, dest := .none, succs := [(.ok, 13), (.fail, 19)] },
  { word := 0x0005, dest := .none, succs := [(.ok, 14), (.fail, 19)] },
  { word := 0x0008, dest := .none, succs := [(.ok, 15), (.fail, 19)] },
  { word := 0x0005, dest := .none, succs := [(.ok, 16), (.fail, 19)] },
  { word := 0x0108, dest := .none, succs := [(.ok, 17), (.fail, 19)] }]

/-- Entries 17 to 20: completion, memory card, abort (R170). -/
def storeEnd : List Entry := [
  { word := 0x000D, dest := .none, succs := [(.ok, 0)] },
  { word := 0x000E, dest := .none, succs := [(.ok, 17)] },
  { word := 0x000F, dest := .none, succs := [(.ok, 0)] },
  { word := 0x0009, dest := .none, succs := [(.ok, 19)] }]

/-- The control store (R170), entries 0 to 20 in order. -/
def controlStore : List Entry := storeCommand ++ storePoll ++ storeEnd

end Sys2Proof.Machine
end

