-- ==== Sys2Proof/Machine/State.lean ====
section
/-! DEFINITION. The state of the machine (10_state.md), its reset value (70_reset_and_hazards.md R320), and the
reasons a step can stop. -/

namespace Sys2Proof.Machine

/-- An open-drain driver (10_state.md R33). No value drives high. -/
inductive Drive where
  | rel
  | low
  deriving DecidableEq, Repr

/-- `R.fail_reason` (10_state.md R38; 60_exceptions.md R280). The code 3 never occurs and has no constructor. -/
inductive FailReason where
  | none
  | timeout
  | abort
  deriving DecidableEq, Repr

/-- The micro-steps of an edge wait (40_bus_primitives.md R143). -/
inductive WaitPos where
  | w0
  | w1
  deriving DecidableEq, Repr

/-- `R.mpc`, the micro-step position (10_state.md R41). A label is the one the operation's rule gives it; where
two operations share a label (p0, k0, r0) the second has its operation's initials before it. A byte primitive's
wait holds the position inside the wait. -/
inductive Mpc where
  -- IDLEWAIT (41_transaction_fsm.md R171)
  | i0 | i1 | i2
  -- START (R172)
  | s0
  -- RX (40_bus_primitives.md R145)
  | x0 | x1 (p : WaitPos) | x2 (p : WaitPos) | x3 | xf
  -- DISPATCH (R174)
  | p0
  -- ACK (R148)
  | a0 | a1 | a2 | a3 | a4 | a5 | a6
  -- DELAY (R150)
  | d0 | d1
  -- XFERI, XFERR (R147)
  | y0 | y1 (p : WaitPos) | y2 | y3 | y4 (p : WaitPos) | y5 | y6 | yf
  -- CALOBS (42_calibrator.md R214)
  | c0
  -- CMDCHK (R182)
  | k0
  -- STPOLL (44_telemetry.md R261)
  | sp0
  -- CHR (43_channel.md R245)
  | r1 | r2 | r3 | r4 | r5
  -- END (R187)
  | e0
  -- MCWAIT (R175)
  | m0 | m1
  -- ABORT (R188)
  | b0
  -- TXI, TXR (R146)
  | t0 | t1 (p : WaitPos) | t2 | t3 (p : WaitPos) | t4 | t5 | tf
  -- WAITF, WAITR (R143, R144)
  | w (p : WaitPos)
  -- RELBUS (R149)
  | rb0
  -- CALTICK (R220)
  | ct0
  deriving DecidableEq, Repr

/-- WRITER's position in CHW (43_channel.md R244). -/
inductive WriterPos where
  | w1 | w2 | w3 | w4 | w5 | w6
  deriving DecidableEq, Repr

/-- WRITER's private registers (10_state.md R49) and its position. -/
structure Writer where
  /-- Position inside CHW. -/
  pos : WriterPos
  /-- `R.wt`, the target slot. -/
  wt : Idx
  /-- `R.wcons`, the consumed test. -/
  wcons : Bool
  /-- `R.wv1`. -/
  wv1 : Byte
  /-- `R.wv2`. -/
  wv2 : Byte
  /-- `R.acc1`. -/
  acc1 : Byte
  /-- `R.acc2`. -/
  acc2 : Byte
  deriving DecidableEq, Repr

/-- The calibrator registers (10_state.md R50). -/
structure Calibrator where
  /-- `R.cal_pulse`. -/
  pulse : U32
  /-- `R.cal_post`. -/
  post : U32
  /-- `R.win_att`. -/
  winAtt : U32
  /-- `R.win_succ`. -/
  winSucc : U32
  /-- `R.win_start`. -/
  winStart : U32
  /-- `R.best_valid`. -/
  bestValid : Bool
  /-- `R.best_pulse`. -/
  bestPulse : U32
  /-- `R.best_post`. -/
  bestPost : U32
  /-- `R.best_succ`. -/
  bestSucc : U32
  /-- `R.best_att`. -/
  bestAtt : U32
  /-- `R.locked`. -/
  locked : Bool
  /-- `R.sweep_started`. -/
  sweepStarted : Bool
  /-- `R.has_seen`. -/
  hasSeen : Bool
  /-- `R.last_seen`. -/
  lastSeen : U32
  deriving DecidableEq, Repr

/-- The statistics registers (10_state.md R51). -/
structure Stats where
  /-- `R.st_total`. -/
  total : U32
  /-- `R.st_controller`. -/
  controller : U32
  /-- `R.st_memcard`. -/
  memcard : U32
  /-- `R.st_invalid`. -/
  invalid : U32
  /-- `R.st_timeout`. -/
  timeout : U32
  /-- `R.st_last_inv_addr`. -/
  lastInvAddr : Byte
  /-- `R.st_last_inv_cmd`. -/
  lastInvCmd : Byte
  /-- `R.poll_min`. -/
  pollMin : U32
  /-- `R.poll_max`. -/
  pollMax : U32
  /-- `R.poll_sum`. -/
  pollSum : U64
  /-- `R.poll_cnt`. -/
  pollCnt : U32
  /-- `R.poll_avg`. -/
  pollAvg : U32
  /-- `R.poll_last`. -/
  pollLast : U32
  /-- `R.poll_has_prev`. -/
  pollHasPrev : Bool
  deriving DecidableEq, Repr

/-- The channel memory CH (20_memory.md R82) as (address, byte) pairs: addresses strictly rising, no entry equal
to what an unlisted address reads as (`Memory.wf`). -/
abbrev Memory := List Host.Cell

/-- The whole machine. -/
structure State where
  /-- The parameters (10_state.md R37), fixed for the run. -/
  cfg : Params
  /-- SEL_N, CLK, CMD, `dat_ext`, `ack_ext` (10_state.md R31, R34). -/
  pins : Pins
  /-- Snapshot port S1 (10_state.md R35). -/
  snap1 : Byte
  /-- Snapshot port S2 (10_state.md R35). -/
  snap2 : Byte
  /-- What TREAD last delivered at the telemetry port (44_telemetry.md R268), nothing before the first.
  DESIGN CHOICE (entry 11), safe: the port's value, which no step reads. -/
  telPort : Option U32
  /-- `now` (10_state.md R52). -/
  now : U32
  /-- The control store (41_transaction_fsm.md R170), which no agent writes (20_memory.md R93). -/
  store : List Entry
  /-- `R.pc` (10_state.md R40). -/
  pc : Pc
  /-- `R.mpc` (10_state.md R41). -/
  mpc : Mpc
  /-- `R.addr` (10_state.md R38). -/
  addr : Byte
  /-- `R.cmd` (R38). -/
  cmd : Byte
  /-- `R.rx` (R38). -/
  rx : Byte
  /-- `R.tx` (R38). -/
  tx : Byte
  /-- `R.bit`, 0..8 (R38). -/
  bit : Fin 9
  /-- `R.start` (R38). -/
  start : U32
  /-- `R.b1` (R38). -/
  b1 : Byte
  /-- `R.b2` (R38). -/
  b2 : Byte
  /-- `R.ridx` (R38). -/
  ridx : Idx
  /-- `R.fail_reason` (R38). -/
  failReason : FailReason
  /-- `R.active` (10_state.md R42). -/
  active : Bool
  /-- `R.irq_enabled` (10_state.md R43). -/
  irqEnabled : Bool
  /-- `R.irq_pending` (10_state.md R44). -/
  irqPending : Bool
  /-- `R.sel_seen_high` (10_state.md R45). -/
  selSeenHigh : Bool
  /-- `R.dat_drv` (10_state.md R46). -/
  datDrv : Drive
  /-- `R.ack_drv` (10_state.md R46). -/
  ackDrv : Drive
  /-- The channel memory (20_memory.md R82). -/
  ch : Memory
  /-- WRITER's private state (10_state.md R49). -/
  wr : Writer
  /-- The calibrator (10_state.md R50). -/
  cal : Calibrator
  /-- The statistics (10_state.md R51). -/
  st : Stats
  /-- The MODEL's own: the operation word of WRITER's role (30_encoding.md R118; entry 12). -/
  writerOp : OpWord
  /-- The MODEL's own: the operation word of ISR's role (R118; entry 12). -/
  isrOp : OpWord
  /-- The MODEL's own: the turns already decided, soonest first (entry 3). -/
  agenda : List Turn
  /-- The MODEL's own: how many free turns `Config.schedule` has given (entry 3). -/
  turns : Nat
  deriving DecidableEq, Repr

/-- Why the machine stops with a fault. Both are states the spec says never occur, so both are safe. -/
inductive Fault where
  /-- Raised by every operation of ENGINE whose `R.mpc` is a label of another operation: entering an operation
  sets it to one of its own (10_state.md R41). Safe. -/
  | foreignMicroStep
  /-- Raised by CHW's w1 and CHR's r1 when an index cell holds neither 0 nor 1, which never occurs
  (20_memory.md R82). Safe. -/
  | channelIndex
  deriving DecidableEq, Repr

/-- Why a step is refused. All but the first are refusals the spec asks of a model, and all are safe. -/
inductive Refusal where
  /-- Raised by an arm of `exec` whose instruction has no meaning yet. Safe. -/
  | notModelled (mnemonic : String)
  /-- Raised when an agent is given a reserved operation word (30_encoding.md R118). Safe. -/
  | reservedWord (why : Reserved)
  /-- Raised when `agent` is given a word of the role of another agent, `role` (30_encoding.md R118). Safe. -/
  | wrongAgent (role agent : Agent)
  /-- Raised by ENGINE's fetch at a pc that has no entry (41_transaction_fsm.md R170). Safe. -/
  | pcOutsideStore (pc : Pc)
  /-- Raised by a channel access outside cells 0..5 (20_memory.md R83). Safe. -/
  | channelAddress (a : Nat)
  /-- Raised by power-on with a parameter set that breaks 00_scope.md R13 (70_reset_and_hazards.md R323). Safe. -/
  | badParameters
  deriving DecidableEq, Repr

/-- The calibrator at reset (10_state.md R50). `R.win_start` and `R.last_seen` have no reset value: 0 is a
DESIGN CHOICE (entry 1), unsafe. -/
def Calibrator.atReset (p : Params) : Calibrator where
  pulse := p.pwMax
  post := p.pwaitMin
  winAtt := 0
  winSucc := 0
  winStart := 0
  bestValid := false
  bestPulse := p.pwMax
  bestPost := p.pwaitMax
  bestSucc := 0
  bestAtt := 0
  locked := false
  sweepStarted := false
  hasSeen := false
  lastSeen := 0

/-- The statistics at reset (10_state.md R51). `R.poll_last` has no reset value: 0 is a DESIGN CHOICE (entry 1),
unsafe. -/
def Stats.atReset : Stats where
  total := 0
  controller := 0
  memcard := 0
  invalid := 0
  timeout := 0
  lastInvAddr := 0x00
  lastInvCmd := 0x00
  pollMin := 0xFFFFFFFF
  pollMax := 0
  pollSum := 0
  pollCnt := 0
  pollAvg := 0
  pollLast := 0
  pollHasPrev := false

/-- WRITER at reset (10_state.md R49). `R.wt`, `R.wcons`, `R.wv1` and `R.wv2` have no reset value: zero is a
DESIGN CHOICE (entry 1), unsafe. -/
def Writer.atReset : Writer where
  pos := .w1
  wt := 0
  wcons := false
  wv1 := 0x00
  wv2 := 0x00
  acc1 := 0xFF
  acc2 := 0xFF

/-- The machine after power-on with given parameters and ports (R320). The ENGINE registers without a reset value
are zero: DESIGN CHOICE (entry 1), unsafe. -/
def State.atReset (p : Params) (pins : Pins) : State where
  cfg := p
  pins := pins
  snap1 := 0xFF
  snap2 := 0xFF
  telPort := none
  now := p.now0
  store := controlStore
  pc := 0
  mpc := .i0
  addr := 0x00
  cmd := 0x00
  rx := 0x00
  tx := 0x00
  bit := 0
  start := 0
  b1 := 0x00
  b2 := 0x00
  ridx := 0
  failReason := .none
  active := false
  irqEnabled := true
  irqPending := false
  selSeenHigh := false
  datDrv := .rel
  ackDrv := .rel
  ch := []
  wr := Writer.atReset
  cal := Calibrator.atReset p
  st := Stats.atReset
  writerOp := 0x0020
  isrOp := 0x0030
  agenda := []
  turns := 0

/-- The machine right after reset (R320), with the free parameters and ports. -/
def State.reset : State := State.atReset Config.params Config.resetPins

/-- Power-on with a drawn parameter set: refused where it breaks a constraint of 00_scope.md R13
(70_reset_and_hazards.md R322, R323; 93_implementation_defined.md I4). -/
def State.boot (p : RawParams) (pins : Pins) : Host.Outcome State Fault Refusal :=
  match p.check with
  | some q => .next (State.atReset q pins)
  | none => .refused .badParameters

end Sys2Proof.Machine
end

