-- ==== Sys2Proof/Machine/Ops.lean ====
section
/-! DEFINITION. The shared operations over memory, registers, lines and control (00_scope.md R17 to R19), and the
entry of the machine's one interrupt (60_exceptions.md R287). -/

namespace Sys2Proof.Machine

/-! ## Channel memory (20_memory.md R82, R83) -/

/-- The number of CH cells (R82). -/
def chCells : Nat := 6

/-- What an unlisted cell reads as: its reset value (R82). -/
def unlisted (a : Nat) : Byte := if a < 4 then 0xFF else 0x00

/-- The byte of a cell. -/
def Memory.byteAt (m : Memory) (a : Nat) : Byte :=
  match m with
  | [] => unlisted a
  | (k, v) :: rest => if k = a then v else Memory.byteAt rest a

/-- Store a byte in a cell, keeping the canonical form. -/
def Memory.setByte (m : Memory) (a : Nat) (v : Byte) : Memory :=
  match m with
  | [] => if v = unlisted a then [] else [(a, v)]
  | (k, x) :: rest =>
    if a < k then (if v = unlisted a then (k, x) :: rest else (a, v) :: (k, x) :: rest)
    else if a = k then (if v = unlisted a then rest else (a, v) :: rest)
    else (k, x) :: Memory.setByte rest a v

/-- The canonical form from a lower bound on: addresses strictly rising and inside CH, and no entry equal to what
an unlisted cell reads as. -/
def Memory.wfFrom (m : Memory) (lo : Nat) : Bool :=
  match m with
  | [] => true
  | (k, v) :: rest =>
    decide (lo ≤ k) && decide (k < chCells) && !(v == unlisted k) && Memory.wfFrom rest (k + 1)

/-- The canonical form. -/
def Memory.wf (m : Memory) : Bool := Memory.wfFrom m 0

/-- The address of slot s, field f (R82). -/
def slotAddr (slot : Idx) (field : Nat) : Nat := 2 * slot.toNat + field

/-- `write_idx`'s cell (R82). -/
def writeIdxAddr : Nat := 4

/-- `read_idx`'s cell (R82). -/
def readIdxAddr : Nat := 5

/-- MemRead(a, 1), which continues with the byte read; outside CH it is refused (R83). -/
def chRead (a : Nat) (s : State) (k : Byte → Host.Outcome State Fault Refusal) :
    Host.Outcome State Fault Refusal :=
  if a < chCells then k (s.ch.byteAt a) else .refused (.channelAddress a)

/-- MemWrite(a, 1, v), which continues in the state written; outside CH it is refused (R83). -/
def chWrite (a : Nat) (v : Byte) (s : State) (k : State → Host.Outcome State Fault Refusal) :
    Host.Outcome State Fault Refusal :=
  if a < chCells then k { s with ch := s.ch.setByte a v } else .refused (.channelAddress a)

/-- The index an index cell holds (R82): 0 or 1, and nothing else ever occurs. -/
def idxOf (b : Byte) : Option Idx :=
  if b = 0x00 then some 0 else if b = 0x01 then some 1 else none

/-- The byte an index is stored as (R82). -/
def idxByte (i : Idx) : Byte := i.setWidth 8

/-- MemRead of an index cell, which continues with the index. -/
def chReadIdx (a : Nat) (s : State) (k : Idx → Host.Outcome State Fault Refusal) :
    Host.Outcome State Fault Refusal :=
  chRead a s fun b =>
    match idxOf b with
    | some i => k i
    | none => .fault .channelIndex

/-! ## Bits -/

/-- `v[i] <- b` (00_scope.md R15). -/
def setBit (v : Byte) (i : Nat) (b : Bool) : Byte :=
  if b then v ||| (BitVec.ofNat 8 (2 ^ i)) else v &&& ~~~(BitVec.ofNat 8 (2 ^ i))

/-- `R.bit <- R.bit + 1`, within 0..8 (10_state.md R38).
DESIGN CHOICE (entry 6), safe: 8 stays 8, which no run reaches. -/
def bitSucc (i : Fin 9) : Fin 9 := if h : i.val < 8 then ⟨i.val + 1, by omega⟩ else 8

/-- The driver level of a bit: a 1 is released, a 0 is driven low (40_bus_primitives.md R146). -/
def driveBit (b : Bool) : Drive := if b then .rel else .low

/-! ## Lines (10_state.md R34) -/

/-- DAT's wire level. -/
def State.datWire (s : State) : Bool := s.datDrv == .rel && s.pins.datExt

/-- ACK's wire level. -/
def State.ackWire (s : State) : Bool := s.ackDrv == .rel && s.pins.ackExt

/-- Release both lines (40_bus_primitives.md R149). -/
def releaseBus (s : State) : State := { s with datDrv := .rel, ackDrv := .rel }

/-! ## Control (10_state.md R40, R41; 41_transaction_fsm.md R170) -/

/-- An operation's first micro-step (10_state.md R41). A wire byte's is the one that acts on it (entry 9). -/
def firstMpc : Instr → Mpc
  | .idlewait => .i0
  | .start => .s0
  | .rx => .x0
  | .dispatch => .p0
  | .ack => .a0
  | .delay _ => .d0
  | .xferi _ => .y0
  | .xferr _ => .y0
  | .calobs _ => .c0
  | .cmdchk => .k0
  | .stpoll => .sp0
  | .chr => .r1
  | .endTxn => .e0
  | .mcwait => .m0
  | .abort => .b0
  | .txi _ => .t0
  | .txr _ => .t0
  | .waitf _ => .w .w0
  | .waitr _ => .w .w0
  | .relbus => .rb0
  | .caltick => .ct0
  | .chw => .i0
  | .isr => .i0
  | .tread _ => .i0
  | .addrController => .p0
  | .addrMemcard => .p0
  | .addrSentinel => .x3
  | .addrIgnored _ => .p0
  | .addrInvalid _ => .p0
  | .cmdPoll => .k0
  | .cmdSentinel => .k0
  | .cmdOther _ => .k0
  | .idLow => .y0
  | .idHigh => .y0

/-- The first micro-step of the operation at a control-store address. Where there is no operation the next fetch
is refused, and the label is not read. -/
def entryMpc (store : List Entry) (pc : Pc) : Mpc :=
  match store[pc.toNat]? with
  | none => .i0
  | some e =>
    match decodeWord e.word with
    | .ok i => firstMpc i
    | .error _ => .i0

/-- `pc <- target`: the next operation starts at its first micro-step (R40, R41). -/
def goto (target : Pc) (s : State) : State :=
  { s with pc := target, mpc := entryMpc s.store target }

/-- "dest" receives `R.rx` (R170). -/
def copyDest (d : Dest) (s : State) : State :=
  match d with
  | .none => s
  | .addr => { s with addr := s.rx }
  | .cmd => { s with cmd := s.rx }

/-- The entry at `R.pc`, if there is one. -/
def State.entry (s : State) : Option Entry := s.store[s.pc.toNat]?

/-- The dest of the entry at `R.pc`. -/
def destAt (e : Option Entry) : Dest :=
  match e with
  | some e => e.dest
  | none => .none

/-- The successor of an outcome: the one the entry names, and otherwise the next line
(95_test_vectors.md, test programs; entry 8). -/
def nextPc (e : Option Entry) (pc : Pc) (o : Branch) : Pc :=
  match e with
  | some e => (succOf e.succs o).getD (pc + 1)
  | none => pc + 1

/-- `done(o)`: the operation's final micro-step (00_scope.md R18; R170). -/
def done (o : Branch) (s : State) : State :=
  goto (nextPc s.entry s.pc o) (copyDest (destAt s.entry) s)

/-- Move to another micro-step of the same operation. -/
def stepTo (m : Mpc) (s : State) : State := { s with mpc := m }

/-! ## Failures and the interrupt -/

/-- `R.fail_reason <- r`, the effect of `raise Timeout()` and `raise Abort()` (00_scope.md R18). -/
def raise (r : FailReason) (s : State) : State := { s with failReason := r }

/-- Taking the select-rising interrupt (60_exceptions.md R287): the pending latch is cleared, both lines are released,
then `R.active` is cleared. It saves nothing, so ENGINE resumes where it was (R289). -/
def takeInterrupt (s : State) : State :=
  { releaseBus { s with irqPending := false } with active := false }

end Sys2Proof.Machine
end

