-- ==== Sys2Proof/Machine/Flags.lean ====
section
/-! DEFINITION. The conditions the operations test: elapsed time, abort, interrupt enable, and one poll of an edge
wait. The hardware has no arithmetic flags (10_state.md R42 to R45 are all it has). -/

namespace Sys2Proof.Machine

/-- `elapsed(start) = now -32 start` (00_scope.md R16). -/
def elapsed (now start : U32) : U32 := now - start

/-- `elapsed(R.start) >= d` (R16). -/
def startElapsed (d : U32) (s : State) : Bool := decide (d.toNat ≤ (elapsed s.now s.start).toNat)

/-- The abort condition, with SEL_N as sampled (40_bus_primitives.md R141). -/
def aborted (s : State) : Bool := s.pins.selN || !s.active

/-- ISR is enabled (60_exceptions.md R286). -/
def isrEnabled (s : State) : Bool := s.irqPending && s.irqEnabled

/-- What one poll of an edge wait finds (40_bus_primitives.md R143). -/
inductive Poll where
  | reached
  | failed (r : FailReason)
  | again
  deriving DecidableEq, Repr

/-- One poll for a CLK level with a bound: abort, then level, then timeout (R143, R144; 60_exceptions.md R292). -/
def pollEdge (level : Bool) (bound : U32) (s : State) : Poll :=
  if aborted s then .failed .abort
  else if s.pins.clk = level then .reached
  else if startElapsed bound s then .failed .timeout
  else .again

/-- The received byte is the sentinel (10_state.md; 40_bus_primitives.md R145). -/
def isSentinel (b : Byte) : Bool := b == 0xFF

end Sys2Proof.Machine
end

