-- ==== Sys2Proof/Machine/Operands.lean ====
section
/-! DEFINITION. The operand forms of 30_encoding.md R115 and R116: what REG, TSEL, DSEL, OSEL and TIDX select. IMM8
is the byte itself. -/

namespace Sys2Proof.Machine

/-- REG: the register read (R116). -/
def readReg (r : ButtonReg) (s : State) : Byte :=
  match r with
  | .b1 => s.b1
  | .b2 => s.b2

/-- TSEL: the bound of a wait. -/
def boundOf (t : TimeoutSel) (p : Params) : U32 :=
  match t with
  | .edge => p.edgeTimeout
  | .byte => p.byteTimeout

/-- `T(i)`: the bound of the falling-edge wait of bit i (40_bus_primitives.md R142). -/
def byteBound (bit : Fin 9) (p : Params) : U32 :=
  boundOf (if bit = 0 then .byte else .edge) p

/-- `eff_pulse()` (42_calibrator.md R211). -/
def effPulse (s : State) : U32 := if s.cfg.calEnable then s.cal.pulse else s.cfg.ackPulseFixed

/-- `eff_post()` (42_calibrator.md R211). -/
def effPost (s : State) : U32 := if s.cfg.calEnable then s.cal.post else s.cfg.postWaitFixed

/-- DSEL: the duration of a delay (40_bus_primitives.md R150). -/
def durationOf (d : DelaySel) (s : State) : U32 :=
  match d with
  | .post => effPost s
  | .ackdly => s.cfg.ackDelay
  | .debounce => s.cfg.debounce

/-- OSEL: the outcome reported to the calibrator (42_calibrator.md R214). -/
def observedSuccess (o : ObsSel) (s : State) : Bool :=
  match o with
  | .fail => false
  | .cmd => !isSentinel s.cmd

/-- A flag as a telemetry value. -/
def flag32 (b : Bool) : U32 := if b then 1 else 0

/-- TIDX: `zext_32(TEL[x])` (44_telemetry.md R268). -/
def telValue (x : TelReg) (s : State) : U32 :=
  match x with
  | .stTotal => s.st.total
  | .controller => s.st.controller
  | .memcard => s.st.memcard
  | .invalid => s.st.invalid
  | .timeout => s.st.timeout
  | .lastInvAddr => s.st.lastInvAddr.setWidth 32
  | .lastInvCmd => s.st.lastInvCmd.setWidth 32
  | .pollMin => s.st.pollMin
  | .pollMax => s.st.pollMax
  | .pollAvg => s.st.pollAvg
  | .calPulse => s.cal.pulse
  | .calPost => s.cal.post
  | .calLocked => flag32 s.cal.locked
  | .calStarted => flag32 s.cal.sweepStarted

end Sys2Proof.Machine
end

