-- ==== Sys2Proof/Machine/Calibrator.lean ====
section
/-! DEFINITION. The handshake timing calibrator (42_calibrator.md): CALOBS and CALTICK, over functions of the
calibrator registers alone. Comparisons are on unbounded integers, as that file says. -/

namespace Sys2Proof.Machine

/-- `cal_reset()` (R221). `R.win_start` and `R.last_seen` have no reset value and keep theirs.
DEDUCED (entry 13), safe: nothing reads them before they are written again. -/
def calReset (p : Params) (c : Calibrator) : Calibrator :=
  { c with
    pulse := p.pwMax
    post := p.pwaitMin
    winAtt := 0
    winSucc := 0
    bestValid := false
    bestPulse := p.pwMax
    bestPost := p.pwaitMax
    bestSucc := 0
    bestAtt := 0
    locked := false
    sweepStarted := false
    hasSeen := false }

/-- The idle period has elapsed since the last observation (R214, R220). -/
def calIdle (p : Params) (now : U32) (c : Calibrator) : Bool :=
  c.hasSeen && decide (p.idleTimeout.toNat ≤ (elapsed now c.lastSeen).toNat)

/-- `cal_tick()` (R220). -/
def calTick (p : Params) (now : U32) (c : Calibrator) : Calibrator :=
  if p.calEnable && calIdle p now c then calReset p c else c

/-- `candidate(s, a)` (R216). -/
def calCandidate (p : Params) (succ att : U32) : Bool :=
  decide (0 < att.toNat) && decide (p.minRateNum.toNat * att.toNat ≤ succ.toNat * p.minRateDen.toNat)

/-- Twice the distance of a pulse width from the middle of its range (R217). -/
def midDistance (p : Params) (pulse : U32) : Nat :=
  (2 * (pulse.toNat : Int) - ((p.pwMin.toNat : Int) + p.pwMax.toNat)).natAbs

/-- `better(s, a, pw, po)` (R217). -/
def calBetter (p : Params) (c : Calibrator) (succ att pulse post : U32) : Bool :=
  if c.bestValid = false then true
  else if succ.toNat * c.bestAtt.toNat > c.bestSucc.toNat * att.toNat then true
  else if succ.toNat * c.bestAtt.toNat < c.bestSucc.toNat * att.toNat then false
  else if post.toNat < c.bestPost.toNat then true
  else if post.toNat > c.bestPost.toNat then false
  else decide (midDistance p pulse < midDistance p c.bestPulse)

/-- `advance()` (R213): the next grid point, or nothing where the grid is exhausted. -/
def calAdvance (p : Params) (c : Calibrator) : Option Calibrator :=
  if c.post.toNat + p.calStep.toNat ≤ p.pwaitMax.toNat then
    some { c with post := c.post + p.calStep }
  else if p.pwMin.toNat + p.calStep.toNat ≤ c.pulse.toNat then
    some { c with pulse := c.pulse - p.calStep, post := p.pwaitMin }
  else none

/-- The best record after a window closes (R215). -/
def calRecord (p : Params) (c : Calibrator) : Calibrator :=
  if calCandidate p c.winSucc c.winAtt && calBetter p c c.winSucc c.winAtt c.pulse c.post then
    { c with
      bestValid := true
      bestSucc := c.winSucc
      bestAtt := c.winAtt
      bestPulse := c.pulse
      bestPost := c.post }
  else c

/-- The cursor after a window closes: the next point, the locked best, or the start of a new sweep (R215, R218). -/
def calMove (p : Params) (c : Calibrator) : Calibrator :=
  match calAdvance p c with
  | some d => d
  | none =>
    if c.bestValid then { c with pulse := c.bestPulse, post := c.bestPost, locked := true }
    else { c with pulse := p.pwMax, post := p.pwaitMin }

/-- `close_window()` (R215). -/
def calClose (p : Params) (now : U32) (c : Calibrator) : Calibrator :=
  { calMove p (calRecord p c) with winAtt := 0, winSucc := 0, winStart := now }

/-- The idle reset that an arrival applies first, and the arrival's time (R214). -/
def calArrive (p : Params) (now : U32) (c : Calibrator) : Calibrator :=
  { (if calIdle p now c then calReset p c else c) with lastSeen := now, hasSeen := true }

/-- The start of a sweep (R214). -/
def calBegin (now : U32) (c : Calibrator) : Calibrator :=
  if c.sweepStarted then c
  else { c with sweepStarted := true, winStart := now, winAtt := 0, winSucc := 0 }

/-- Counting one arrival in the window (R214). -/
def calCount (succ : Bool) (c : Calibrator) : Calibrator :=
  { c with
    winAtt := c.winAtt + 1
    winSucc := if succ then c.winSucc + 1 else c.winSucc }

/-- The window closes: enough arrivals, or enough time (R214). -/
def calWindowOver (p : Params) (now : U32) (c : Calibrator) : Bool :=
  decide (p.trialN.toNat ≤ c.winAtt.toNat) ||
    decide (p.trialTimeout.toNat ≤ (elapsed now c.winStart).toNat)

/-- One observation while unlocked (R214). -/
def calTrial (p : Params) (now : U32) (succ : Bool) (c : Calibrator) : Calibrator :=
  let d := calCount succ (calBegin now c)
  if calWindowOver p now d then calClose p now d else d

/-- One controller-address observation (R214). -/
def calObserve (p : Params) (now : U32) (succ : Bool) (c : Calibrator) : Calibrator :=
  if p.calEnable = false then c
  else
    let d := calArrive p now c
    if d.locked then d else calTrial p now succ d

/-- CALOBS (R214). -/
def execCalobs (o : ObsSel) (s : State) : Host.Outcome State Fault Refusal :=
  match s.mpc with
  | .c0 => .next (done .ok { s with cal := calObserve s.cfg s.now (observedSuccess o s) s.cal })
  | _ => .fault .foreignMicroStep

/-- CALTICK (R220). -/
def execCaltick (s : State) : Host.Outcome State Fault Refusal :=
  match s.mpc with
  | .ct0 => .next (done .ok { s with cal := calTick s.cfg s.now s.cal })
  | _ => .fault .foreignMicroStep

end Sys2Proof.Machine
end

