-- ==== Sys2Proof/Machine/Channel.lean ====
section
/-! DEFINITION. The input snapshot channel (43_channel.md): SOCD cleaning, WRITER's CHW and ENGINE's CHR, one
micro-step at a time. -/

namespace Sys2Proof.Machine

/-- Release two opposite directions where both are pressed in `seen` (R242). -/
def releasePair (seen : Byte) (i j : Fin 8) (v : Byte) : Byte :=
  if !seen.getLsbD i.val && !seen.getLsbD j.val then setBit (setBit v i.val true) j.val true else v

/-- `socd(b1, b2)` (R242). Both tests read the input. -/
def socd (p : Params) (b1 b2 : Byte) : Byte × Byte :=
  (releasePair b1 p.bitUp p.bitDown (releasePair b1 p.bitLeft p.bitRight b1), b2)

/-- WRITER at its next micro-step. -/
def writerTo (pos : WriterPos) (s : State) : State := { s with wr := { s.wr with pos := pos } }

/-- CHW's w2 (R244): the values to publish, and in Latching mode the new accumulator. -/
def writerValues (latch : Bool) (s1 s2 : Byte) (w : Writer) : Writer :=
  if latch then
    if w.wcons then { w with wv1 := s1, wv2 := s2, acc1 := s1, acc2 := s2 }
    else { w with wv1 := w.acc1 &&& s1, wv2 := w.acc2 &&& s2, acc1 := w.acc1 &&& s1, acc2 := w.acc2 &&& s2 }
  else { w with wv1 := s1, wv2 := s2 }

/-- CHW (R244), performed by WRITER. Its w1 reads `read_idx` once, and w5 is BARRIER_W, a micro-step without
effect (20_memory.md R90). -/
def execChw (s : State) : Host.Outcome State Fault Refusal :=
  match s.wr.pos with
  | .w1 =>
    chReadIdx readIdxAddr s fun r =>
      chReadIdx writeIdxAddr s fun w =>
        .next (writerTo .w2 { s with wr := { s.wr with wt := 1 - r, wcons := r == w } })
  | .w2 => .next (writerTo .w3 { s with wr := writerValues s.cfg.latch s.snap1 s.snap2 s.wr })
  | .w3 => chWrite (slotAddr s.wr.wt 0) s.wr.wv1 s fun t => .next (writerTo .w4 t)
  | .w4 => chWrite (slotAddr s.wr.wt 1) s.wr.wv2 s fun t => .next (writerTo .w5 t)
  | .w5 => .next (writerTo .w6 s)
  | .w6 => chWrite writeIdxAddr (idxByte s.wr.wt) s fun t => .next (writerTo .w1 t)

/-- CHR's r5 after its store (R245): the snapshot in `R.b1` and `R.b2` is cleaned. -/
def cleanSnapshot (s : State) : State :=
  { s with b1 := (socd s.cfg s.b1 s.b2).1, b2 := (socd s.cfg s.b1 s.b2).2 }

/-- CHR (R245). Its r2 is BARRIER_R, a micro-step without effect (20_memory.md R90). -/
def execChr (s : State) : Host.Outcome State Fault Refusal :=
  match s.mpc with
  | .r1 => chReadIdx writeIdxAddr s fun i => .next (stepTo .r2 { s with ridx := i })
  | .r2 => .next (stepTo .r3 s)
  | .r3 => chRead (slotAddr s.ridx 0) s fun v => .next (stepTo .r4 { s with b1 := v })
  | .r4 => chRead (slotAddr s.ridx 1) s fun v => .next (stepTo .r5 { s with b2 := v })
  | .r5 => chWrite readIdxAddr (idxByte s.ridx) s fun t => .next (done .ok (cleanSnapshot t))
  | _ => .fault .foreignMicroStep

end Sys2Proof.Machine
end

