-- ==== Sys2Proof/Machine/Interrupt.lean ====
section
/-! DEFINITION. The select-rising handler (60_exceptions.md R287). -/

namespace Sys2Proof.Machine

/-- ISR (R287), performed by the ISR agent in one micro-step. -/
def execIsr (s : State) : Host.Outcome State Fault Refusal := .next (takeInterrupt s)

end Sys2Proof.Machine
end

