-- ==== Sys2Proof/Machine/Primitives.lean ====
section
/-! DEFINITION. The bus signal primitives (40_bus_primitives.md): one micro-step of WAITF, WAITR, RX, TXI, TXR,
XFERI, XFERR, ACK, RELBUS and DELAY. Every labelled micro-step is separate (R153). -/

namespace Sys2Proof.Machine

/-- One micro-step of an edge wait (R143, R144): w0 takes the time, w1 polls. `stay` names the wait's label in the
operation that holds it, and the two continuations are what that operation does where the wait ends. -/
def waitStep (level : Bool) (bound : U32) (stay : WaitPos → Mpc) (onOk onFail : State → State)
    (p : WaitPos) (s : State) : State :=
  match p with
  | .w0 => stepTo (stay .w1) { s with start := s.now }
  | .w1 =>
    match pollEdge level bound s with
    | .reached => onOk s
    | .failed r => onFail (raise r s)
    | .again => s

/-- One micro-step of a wait that is the whole operation. -/
def waitOp (level : Bool) (t : TimeoutSel) (s : State) : Host.Outcome State Fault Refusal :=
  match s.mpc with
  | .w p => .next (waitStep level (boundOf t s.cfg) .w (done .ok) (done .fail) p s)
  | _ => .fault .foreignMicroStep

/-- WAITF (R143). -/
def execWaitf (t : TimeoutSel) (s : State) : Host.Outcome State Fault Refusal := waitOp false t s

/-- WAITR (R144). -/
def execWaitr (t : TimeoutSel) (s : State) : Host.Outcome State Fault Refusal := waitOp true t s

/-- RX's x3 (R145): sample CMD into bit `R.bit`, then the next bit or the end. A complete 0xFF fails. -/
def rxSample (s : State) : State :=
  let t := { s with rx := setBit s.rx s.bit.val s.pins.cmd, bit := bitSucc s.bit }
  if t.bit.val < 8 then stepTo (.x1 .w0) t
  else if isSentinel t.rx then done .fail t
  else done .ok t

/-- RX (R145). -/
def execRx (s : State) : Host.Outcome State Fault Refusal :=
  match s.mpc with
  | .x0 => .next (stepTo (.x1 .w0) { s with failReason := .none, rx := 0x00, bit := 0 })
  | .x1 p => .next (waitStep false (byteBound s.bit s.cfg) .x1 (stepTo (.x2 .w0)) (stepTo .xf) p s)
  | .x2 p => .next (waitStep true s.cfg.edgeTimeout .x2 (stepTo .x3) (stepTo .xf) p s)
  | .x3 => .next (rxSample s)
  | .xf => .next (done .fail { s with rx := 0xFF })
  | _ => .fault .foreignMicroStep

/-- One micro-step of sending v (R146). -/
def txStep (v : Byte) (s : State) : Host.Outcome State Fault Refusal :=
  match s.mpc with
  | .t0 => .next (stepTo (.t1 .w0) { s with tx := v, failReason := .none, bit := 0 })
  | .t1 p => .next (waitStep false (byteBound s.bit s.cfg) .t1 (stepTo .t2) (stepTo .tf) p s)
  | .t2 => .next (stepTo (.t3 .w0) { s with datDrv := driveBit (s.tx.getLsbD s.bit.val) })
  | .t3 p => .next (waitStep true s.cfg.edgeTimeout .t3 (stepTo .t4) (stepTo .tf) p s)
  | .t4 => .next (stepTo (if (bitSucc s.bit).val < 8 then .t1 .w0 else .t5) { s with bit := bitSucc s.bit })
  | .t5 => .next (done .ok { s with datDrv := .rel })
  | .tf => .next (done .fail { s with datDrv := .rel })
  | _ => .fault .foreignMicroStep

/-- TXI (R146). -/
def execTxi (v : Byte) (s : State) : Host.Outcome State Fault Refusal := txStep v s

/-- TXR (R146): its register is read at t0. -/
def execTxr (r : ButtonReg) (s : State) : Host.Outcome State Fault Refusal := txStep (readReg r s) s

/-- One micro-step of the full-duplex transfer of v (R147): bit i is sampled (y2) before it is driven (y3). -/
def xferStep (v : Byte) (s : State) : Host.Outcome State Fault Refusal :=
  match s.mpc with
  | .y0 => .next (stepTo (.y1 .w0) { s with tx := v, rx := 0x00, failReason := .none, bit := 0 })
  | .y1 p => .next (waitStep false (byteBound s.bit s.cfg) .y1 (stepTo .y2) (stepTo .yf) p s)
  | .y2 => .next (stepTo .y3 { s with rx := setBit s.rx s.bit.val s.pins.cmd })
  | .y3 => .next (stepTo (.y4 .w0) { s with datDrv := driveBit (s.tx.getLsbD s.bit.val) })
  | .y4 p => .next (waitStep true s.cfg.edgeTimeout .y4 (stepTo .y5) (stepTo .yf) p s)
  | .y5 => .next (stepTo (if (bitSucc s.bit).val < 8 then .y1 .w0 else .y6) { s with bit := bitSucc s.bit })
  | .y6 => .next (done .ok { s with datDrv := .rel })
  | .yf => .next (done .fail { s with datDrv := .rel, rx := 0xFF })
  | _ => .fault .foreignMicroStep

/-- XFERI (R147). -/
def execXferi (v : Byte) (s : State) : Host.Outcome State Fault Refusal := xferStep v s

/-- XFERR (R147): its register is read once, at y0. -/
def execXferr (r : ButtonReg) (s : State) : Host.Outcome State Fault Refusal := xferStep (readReg r s) s

/-- ACK (R148). From a3 to a6 the interrupt is masked, and a6 releases, drains and unmasks in one micro-step. -/
def execAck (s : State) : Host.Outcome State Fault Refusal :=
  match s.mpc with
  | .a0 => .next (stepTo .a1 { s with start := s.now })
  | .a1 => .next (if startElapsed s.cfg.ackDelay s then stepTo .a2 s else s)
  | .a2 => .next (if aborted s then done .fail (raise .abort s) else stepTo .a3 s)
  | .a3 => .next (stepTo .a4 { s with irqEnabled := false })
  | .a4 => .next (stepTo .a5 { s with ackDrv := .low, start := s.now })
  | .a5 => .next (if startElapsed (effPulse s) s then stepTo .a6 s else s)
  | .a6 => .next (done .ok { s with ackDrv := .rel, irqPending := false, irqEnabled := true })
  | _ => .fault .foreignMicroStep

/-- RELBUS (R149). -/
def execRelbus (s : State) : Host.Outcome State Fault Refusal :=
  match s.mpc with
  | .rb0 => .next (done .ok (releaseBus s))
  | _ => .fault .foreignMicroStep

/-- DELAY (R150). It never tests the abort condition. -/
def execDelay (d : DelaySel) (s : State) : Host.Outcome State Fault Refusal :=
  match s.mpc with
  | .d0 => .next (stepTo .d1 { s with start := s.now })
  | .d1 => .next (if startElapsed (durationOf d s) s then done .ok s else s)
  | _ => .fault .foreignMicroStep

end Sys2Proof.Machine
end

