-- ==== Sys2Proof/Machine/Telemetry.lean ====
section
/-! DEFINITION. The poll-interval statistics and the telemetry port (44_telemetry.md): STPOLL and TREAD. -/

namespace Sys2Proof.Machine

/-- The count at which sum, count and average freeze (R261). -/
def pollCntMax : U32 := 0xFFFFFFFF

/-- Minimum and maximum with one more interval (R261). -/
def pollExtremes (iv : U32) (t : Stats) : Stats :=
  { t with
    pollMin := if iv.toNat < t.pollMin.toNat then iv else t.pollMin
    pollMax := if iv.toNat > t.pollMax.toNat then iv else t.pollMax }

/-- Sum, count and truncating average with one more interval, frozen once the count is full (R261). -/
def pollMean (iv : U32) (t : Stats) : Stats :=
  if t.pollCnt.toNat < pollCntMax.toNat then
    { t with
      pollSum := t.pollSum + iv.setWidth 64
      pollCnt := t.pollCnt + 1
      pollAvg := ((t.pollSum + iv.setWidth 64) / (t.pollCnt + 1).setWidth 64).setWidth 32 }
  else t

/-- One poll at a time (R261). The first after reset records no interval. -/
def pollUpdate (now : U32) (t : Stats) : Stats :=
  let u := if t.pollHasPrev then
      pollMean (elapsed now t.pollLast) (pollExtremes (elapsed now t.pollLast) t)
    else t
  { u with pollLast := now, pollHasPrev := true }

/-- STPOLL (R261). -/
def execStpoll (s : State) : Host.Outcome State Fault Refusal :=
  match s.mpc with
  | .sp0 => .next (done .ok { s with st := pollUpdate s.now s.st })
  | _ => .fault .foreignMicroStep

/-- TREAD (R268): the value is delivered at the telemetry port, and nothing else changes. -/
def execTread (x : TelReg) (s : State) : Host.Outcome State Fault Refusal :=
  .next { s with telPort := some (telValue x s) }

end Sys2Proof.Machine
end

