-- ==== Sys2Proof/Machine/Transaction.lean ====
section
/-! DEFINITION. The transaction state machine's own operations (41_transaction_fsm.md): IDLEWAIT, START, DISPATCH,
MCWAIT, CMDCHK, END and ABORT, and the branches that the wire bytes share with DISPATCH and CMDCHK. -/

namespace Sys2Proof.Machine

/-- IDLEWAIT's i0 after its calibrator tick (R171). -/
def idlePoll (s : State) : State :=
  if s.pins.selN then { s with selSeenHigh := true }
  else if s.selSeenHigh then stepTo .i1 { s with start := s.now }
  else s

/-- IDLEWAIT (R171). -/
def execIdlewait (s : State) : Host.Outcome State Fault Refusal :=
  match s.mpc with
  | .i0 => .next (idlePoll { s with cal := calTick s.cfg s.now s.cal })
  | .i1 => .next (if startElapsed s.cfg.debounce s then stepTo .i2 s else s)
  | .i2 => .next (if s.pins.selN then stepTo .i0 { s with selSeenHigh := true } else done .ok s)
  | _ => .fault .foreignMicroStep

/-- START (R172). -/
def execStart (s : State) : Host.Outcome State Fault Refusal :=
  match s.mpc with
  | .s0 => .next (done .ok { s with
      active := true
      selSeenHigh := false
      failReason := .none
      st := { s.st with total := s.st.total + 1 } })
  | _ => .fault .foreignMicroStep

/-- DISPATCH's branch for this controller (R174). -/
def dispatchController (s : State) : State :=
  done .ctl { s with st := { s.st with controller := s.st.controller + 1 } }

/-- DISPATCH's branch for the memory card (R174). -/
def dispatchMemcard (s : State) : State :=
  done .mc { s with st := { s.st with memcard := s.st.memcard + 1 } }

/-- DISPATCH's branch for an ignored address (R174, R176). -/
def dispatchIgnored (s : State) : State := done .ign s

/-- DISPATCH's branch for any other address (R174, R177). -/
def dispatchInvalid (a : Byte) (s : State) : State :=
  done .inv { s with st := { s.st with invalid := s.st.invalid + 1, lastInvAddr := a } }

/-- DISPATCH's p0 (R174), in the order of its pseudocode. -/
def dispatchOn (a : Byte) (s : State) : State :=
  if a = 0x01 then dispatchController s
  else if a = 0x81 then dispatchMemcard s
  else if s.cfg.ignoreSet.contains a then dispatchIgnored s
  else dispatchInvalid a s

/-- DISPATCH (R174). -/
def execDispatch (s : State) : Host.Outcome State Fault Refusal :=
  match s.mpc with
  | .p0 => .next (dispatchOn s.addr s)
  | _ => .fault .foreignMicroStep

/-- MCWAIT (R175). It has no timeout and drives nothing. -/
def execMcwait (s : State) : Host.Outcome State Fault Refusal :=
  match s.mpc with
  | .m0 => .next (stepTo .m1 (releaseBus s))
  | .m1 => .next (if aborted s then done .ok s else s)
  | _ => .fault .foreignMicroStep

/-- CMDCHK's branch for the sentinel (R182). -/
def commandSentinel (s : State) : State := done .sentinel s

/-- CMDCHK's branch for the poll command (R182). -/
def commandPoll (s : State) : State := done .poll s

/-- CMDCHK's branch for any other command (R182, R186). -/
def commandOther (c : Byte) (s : State) : State :=
  done .other { s with st := { s.st with invalid := s.st.invalid + 1, lastInvCmd := c } }

/-- CMDCHK's k0 (R182). -/
def commandOn (c : Byte) (s : State) : State :=
  if c = 0xFF then commandSentinel s
  else if c = 0x42 then commandPoll s
  else commandOther c s

/-- CMDCHK (R182). -/
def execCmdchk (s : State) : Host.Outcome State Fault Refusal :=
  match s.mpc with
  | .k0 => .next (commandOn s.cmd s)
  | _ => .fault .foreignMicroStep

/-- END (R187). -/
def execEnd (s : State) : Host.Outcome State Fault Refusal :=
  match s.mpc with
  | .e0 => .next (done .ok { releaseBus s with active := false })
  | _ => .fault .foreignMicroStep

/-- `R.st_timeout` after ABORT: counted only where the failure was a timeout (R188). -/
def abortStats (s : State) : Stats :=
  if s.failReason = .timeout then { s.st with timeout := s.st.timeout + 1 } else s.st

/-- ABORT (R188). -/
def execAbort (s : State) : Host.Outcome State Fault Refusal :=
  match s.mpc with
  | .b0 => .next (done .ok { releaseBus s with st := abortStats s, active := false })
  | _ => .fault .foreignMicroStep

end Sys2Proof.Machine
end

