-- ==== Sys2Proof/Machine/Wire.lean ====
section
/-! DEFINITION. The wire bytes (30_encoding.md R113). Each means the ENGINE micro-step in which the hardware acts on
that byte: an address or command byte its branch of DISPATCH or CMDCHK, the address sentinel the end of RX, an
identification byte the transfer that sends it. DESIGN CHOICE (entry 9), safe: R113 gives the bytes and their
meaning, and these micro-steps are where the spec's rules carry it out. -/

namespace Sys2Proof.Machine

/-- A micro-step at DISPATCH's p0. -/
def atDispatch (f : State → State) (s : State) : Host.Outcome State Fault Refusal :=
  match s.mpc with
  | .p0 => .next (f s)
  | _ => .fault .foreignMicroStep

/-- A micro-step at CMDCHK's k0. -/
def atCmdchk (f : State → State) (s : State) : Host.Outcome State Fault Refusal :=
  match s.mpc with
  | .k0 => .next (f s)
  | _ => .fault .foreignMicroStep

/-- Address 0x01 (41_transaction_fsm.md R174). -/
def execAddrController (s : State) : Host.Outcome State Fault Refusal := atDispatch dispatchController s

/-- Address 0x81 (R174). -/
def execAddrMemcard (s : State) : Host.Outcome State Fault Refusal := atDispatch dispatchMemcard s

/-- Address 0xFF (R173): RX's last bit completes the sentinel, so reception fails and dispatch is not reached. -/
def execAddrSentinel (s : State) : Host.Outcome State Fault Refusal :=
  match s.mpc with
  | .x3 => .next (done .fail { s with rx := 0xFF, bit := 8 })
  | _ => .fault .foreignMicroStep

/-- A member of P_IGNORE_SET (R176): nothing is counted, recorded or driven, whatever the byte. -/
def execAddrIgnored (_b : Byte) (s : State) : Host.Outcome State Fault Refusal := atDispatch dispatchIgnored s

/-- Any other address (R177). -/
def execAddrInvalid (b : Byte) (s : State) : Host.Outcome State Fault Refusal :=
  atDispatch (dispatchInvalid b) s

/-- Command 0x42 (R182). -/
def execCmdPoll (s : State) : Host.Outcome State Fault Refusal := atCmdchk commandPoll s

/-- Command 0xFF (R182). -/
def execCmdSentinel (s : State) : Host.Outcome State Fault Refusal := atCmdchk commandSentinel s

/-- Any other command (R182, R186). -/
def execCmdOther (b : Byte) (s : State) : Host.Outcome State Fault Refusal := atCmdchk (commandOther b) s

/-- The low identification byte 0x41 (30_encoding.md R113), sent by the transfer of the command frame. -/
def execIdLow (s : State) : Host.Outcome State Fault Refusal := xferStep 0x41 s

/-- The high identification byte 0x5A (R113; R185), sent by the transfer of the first dummy frame. -/
def execIdHigh (s : State) : Host.Outcome State Fault Refusal := xferStep 0x5A s

end Sys2Proof.Machine
end

