-- ==== Sys2Proof/Machine/Dispatch.lean ====
section
/-! DEFINITION. One micro-step of an instruction, by its agent (00_scope.md R18). -/

namespace Sys2Proof.Machine

def exec (i : Instr) (s : State) : Host.Outcome State Fault Refusal :=
  match i with
  | .idlewait => Sys2Proof.Machine.execIdlewait s
  | .start => Sys2Proof.Machine.execStart s
  | .rx => Sys2Proof.Machine.execRx s
  | .dispatch => Sys2Proof.Machine.execDispatch s
  | .ack => Sys2Proof.Machine.execAck s
  | .delay d => Sys2Proof.Machine.execDelay d s
  | .xferi v => Sys2Proof.Machine.execXferi v s
  | .xferr r => Sys2Proof.Machine.execXferr r s
  | .calobs o => Sys2Proof.Machine.execCalobs o s
  | .cmdchk => Sys2Proof.Machine.execCmdchk s
  | .stpoll => Sys2Proof.Machine.execStpoll s
  | .chr => Sys2Proof.Machine.execChr s
  | .endTxn => Sys2Proof.Machine.execEnd s
  | .mcwait => Sys2Proof.Machine.execMcwait s
  | .abort => Sys2Proof.Machine.execAbort s
  | .txi v => Sys2Proof.Machine.execTxi v s
  | .txr r => Sys2Proof.Machine.execTxr r s
  | .waitf t => Sys2Proof.Machine.execWaitf t s
  | .waitr t => Sys2Proof.Machine.execWaitr t s
  | .relbus => Sys2Proof.Machine.execRelbus s
  | .caltick => Sys2Proof.Machine.execCaltick s
  | .chw => Sys2Proof.Machine.execChw s
  | .isr => Sys2Proof.Machine.execIsr s
  | .tread x => Sys2Proof.Machine.execTread x s
  | .addrController => Sys2Proof.Machine.execAddrController s
  | .addrMemcard => Sys2Proof.Machine.execAddrMemcard s
  | .addrSentinel => Sys2Proof.Machine.execAddrSentinel s
  | .addrIgnored b => Sys2Proof.Machine.execAddrIgnored b s
  | .addrInvalid b => Sys2Proof.Machine.execAddrInvalid b s
  | .cmdPoll => Sys2Proof.Machine.execCmdPoll s
  | .cmdSentinel => Sys2Proof.Machine.execCmdSentinel s
  | .cmdOther b => Sys2Proof.Machine.execCmdOther b s
  | .idLow => Sys2Proof.Machine.execIdLow s
  | .idHigh => Sys2Proof.Machine.execIdHigh s

end Sys2Proof.Machine
end

