-- ==== Sys2Proof/Machine/Agents.lean ====
section
/-! DEFINITION. The agents' steps (60_exceptions.md R290): fetching and issuing an operation word, HOST, TIMEBASE,
and one turn of the scheduler; and where an instruction is placed so that the next turn runs it. -/

namespace Sys2Proof.Machine

/-- An agent is given an operation word (30_encoding.md R118): a reserved word, or a word of another agent's role,
is refused. -/
def issue (a : Agent) (w : OpWord) (s : State) : Host.Outcome State Fault Refusal :=
  match decodeWord w with
  | .error why => .refused (.reservedWord why)
  | .ok i => if i.agent = a then exec i s else .refused (.wrongAgent i.agent a)

/-- ENGINE's fetch from the control store (41_transaction_fsm.md R170). -/
def engineStep (s : State) : Host.Outcome State Fault Refusal :=
  match s.entry with
  | none => .refused (.pcOutsideStore s.pc)
  | some e => issue .engine e.word s

/-- The protocol context: ISR while it is enabled, else ENGINE (60_exceptions.md R286). -/
def contextStep (s : State) : Host.Outcome State Fault Refusal :=
  if isrEnabled s then issue .isr s.isrOp s else engineStep s

/-- A HOST step (60_exceptions.md R296). A rising SEL_N sets the pending latch, whatever the mask (R285). -/
def hostStep (p : Pins) (s : State) : State :=
  { s with pins := p, irqPending := s.irqPending || (!s.pins.selN && p.selN) }

/-- A TIMEBASE step (60_exceptions.md R300). -/
def timebaseStep (s : State) : State := { s with now := s.now + 1 }

/-- One turn (60_exceptions.md R290). -/
def takeTurn (t : Turn) (s : State) : Host.Outcome State Fault Refusal :=
  match t with
  | .engine => contextStep s
  | .writer s1 s2 => issue .writer s.writerOp { s with snap1 := s1, snap2 := s2 }
  | .telemetry w => issue .telemetry w s
  | .host p => .next (hostStep p s)
  | .timebase => .next (timebaseStep s)

/-- The turn that comes next: the one already decided, and otherwise the free one (93_implementation_defined.md
I8; entry 3). -/
def nextTurn (s : State) : Turn :=
  match s.agenda with
  | t :: _ => t
  | [] => Config.schedule s.turns

/-- The state in which that turn is taken. -/
def popTurn (s : State) : State :=
  match s.agenda with
  | _ :: rest => { s with agenda := rest }
  | [] => { s with turns := s.turns + 1 }

/-! ## Placing an instruction (entry 10) -/

/-- ENGINE's store with a word at `R.pc`, the entry's dest and successors kept; a pc outside the store gets a
one-line test program (95_test_vectors.md). -/
def placeEngineWord (w : OpWord) (s : State) : State :=
  match s.entry with
  | some e => { s with store := s.store.set s.pc.toNat { e with word := w } }
  | none => { s with store := [{ word := w, dest := .none, succs := [] }], pc := 0 }

/-- ENGINE at a given micro-step of a control-store address, about to step. -/
def engineAt (pc : Pc) (m : Mpc) (s : State) : State :=
  { s with store := controlStore, pc := pc, mpc := m, irqPending := false, agenda := [.engine] }

/-- An operation word where its agent fetches its next operation, and that agent's turn next. -/
def placeWord (w : OpWord) (s : State) : State :=
  match (opcOf w).toNat with
  | 0x20 => { s with writerOp := w, wr := { s.wr with pos := .w1 }, agenda := [.writer s.snap1 s.snap2] }
  | 0x30 => { s with isrOp := w, irqPending := true, irqEnabled := true, agenda := [.engine] }
  | 0x31 => { s with agenda := [.telemetry w] }
  | _ =>
    let t := placeEngineWord w s
    { t with mpc := entryMpc t.store t.pc, irqPending := false, agenda := [.engine] }

/-- A wire byte where ENGINE next acts on it: the last bit of a reception that completes the sentinel, CMDCHK,
the transfer that sends it, or DISPATCH (entry 9). -/
def placeByte (b : Byte) (s : State) : State :=
  match tableWirePos b with
  | .command => engineAt 8 .k0 { s with cmd := b }
  | .transmit => if b = 0x41 then engineAt 6 .y0 s else engineAt 12 .y0 s
  | .address =>
    if b = 0xFF then engineAt 2 .x3 { s with rx := 0x7F, bit := 7, pins := { s.pins with cmd := true } }
    else engineAt 3 .p0 { s with addr := b }

end Sys2Proof.Machine
end

