-- ==== Sys2Proof/Machine/Step.lean ====
section
/-! DEFINITION. One step of the machine (60_exceptions.md R290), and placing an instruction where the next step
fetches it. -/

namespace Sys2Proof.Machine

/-- One step: the next turn is taken. -/
def step (s : State) : Host.Outcome State Fault Refusal := takeTurn (nextTurn s) (popTurn s)

/-- The instruction whose bits are w placed where the next step fetches it: a 16-bit operation word, or an 8-bit
wire byte (entry 10). -/
def State.withFetchWord (s : State) (nbits w : Nat) : State :=
  if nbits = 8 then placeByte (BitVec.ofNat 8 w) s else placeWord (BitVec.ofNat 16 w) s

end Sys2Proof.Machine
end

