-- ==== Sys2Proof/Safety.lean ====
section
/-! DEFINITION. What counts as a safe state and a safe run of PSXBB-CORE: the invariants that every step keeps,
runs under a given interleaving, and the premises that the spec's own claims take (fairness, the well-behaved host,
the channel's preconditions). -/

namespace Sys2Proof.Machine

/-! ## ENGINE and the bus -/

/-- The micro-steps of an instruction (10_state.md R41). CHW, ISR and TREAD are not ENGINE's and have none here. -/
def ownsMpc (i : Instr) (m : Mpc) : Bool :=
  match i with
  | .idlewait => (m matches .i0 | .i1 | .i2)
  | .start => (m matches .s0)
  | .rx => (m matches .x0 | .x1 _ | .x2 _ | .x3 | .xf)
  | .dispatch => (m matches .p0)
  | .ack => (m matches .a0 | .a1 | .a2 | .a3 | .a4 | .a5 | .a6)
  | .delay _ => (m matches .d0 | .d1)
  | .xferi _ => (m matches .y0 | .y1 _ | .y2 | .y3 | .y4 _ | .y5 | .y6 | .yf)
  | .xferr _ => (m matches .y0 | .y1 _ | .y2 | .y3 | .y4 _ | .y5 | .y6 | .yf)
  | .calobs _ => (m matches .c0)
  | .cmdchk => (m matches .k0)
  | .stpoll => (m matches .sp0)
  | .chr => (m matches .r1 | .r2 | .r3 | .r4 | .r5)
  | .endTxn => (m matches .e0)
  | .mcwait => (m matches .m0 | .m1)
  | .abort => (m matches .b0)
  | .txi _ => (m matches .t0 | .t1 _ | .t2 | .t3 _ | .t4 | .t5 | .tf)
  | .txr _ => (m matches .t0 | .t1 _ | .t2 | .t3 _ | .t4 | .t5 | .tf)
  | .waitf _ => (m matches .w _)
  | .waitr _ => (m matches .w _)
  | .relbus => (m matches .rb0)
  | .caltick => (m matches .ct0)
  | .chw => false
  | .isr => false
  | .tread _ => false
  | .addrController => (m matches .p0)
  | .addrMemcard => (m matches .p0)
  | .addrSentinel => (m matches .x3)
  | .addrIgnored _ => (m matches .p0)
  | .addrInvalid _ => (m matches .p0)
  | .cmdPoll => (m matches .k0)
  | .cmdSentinel => (m matches .k0)
  | .cmdOther _ => (m matches .k0)
  | .idLow => (m matches .y0 | .y1 _ | .y2 | .y3 | .y4 _ | .y5 | .y6 | .yf)
  | .idHigh => (m matches .y0 | .y1 _ | .y2 | .y3 | .y4 _ | .y5 | .y6 | .yf)

/-- The operation of the entry at `R.pc`, if there is one (41_transaction_fsm.md R170). -/
def currentOp (s : State) : Option Instr :=
  match s.entry with
  | none => none
  | some e =>
    match decodeWord e.word with
    | .ok i => some i
    | .error _ => none

/-- `R.pc` names an entry whose word is an ENGINE operation, and `R.mpc` is one of its micro-steps. -/
def engineFits (s : State) : Bool :=
  match currentOp s with
  | none => false
  | some i => i.agent == .engine && ownsMpc i s.mpc

/-- The micro-steps of a transfer after its first, the only ones in which DAT may be low. -/
def transferring (m : Mpc) : Bool :=
  m matches .y1 _ | .y2 | .y3 | .y4 _ | .y5 | .y6 | .yf | .t1 _ | .t2 | .t3 _ | .t4 | .t5 | .tf

/-- The micro-steps of an acknowledge pulse, the only ones in which ACK is low. -/
def pulsing (m : Mpc) : Bool := m matches .a5 | .a6

/-- The micro-steps in which the interrupt is masked (60_exceptions.md R288). -/
def maskedAt (m : Mpc) : Bool := m matches .a4 | .a5 | .a6

/-- The micro-steps inside a byte's bit. -/
def insideByte (m : Mpc) : Bool :=
  m matches .x1 _ | .x2 _ | .x3 | .y1 _ | .y2 | .y3 | .y4 _ | .y5 | .t1 _ | .t2 | .t3 _ | .t4

/-- The control-store addresses of CommandDispatch and PollResponse (10_state.md R40). -/
def controllerPc (pc : Pc) : Bool := (decide (4 ≤ pc.toNat) && decide (pc.toNat ≤ 16)) || pc == 20

/-- The bus invariant: ENGINE is at a micro-step of its control store, a line is low only inside the operation that
drives it, the interrupt is masked exactly in a pulse, a controller reply runs only for address 0x01, no transaction
is active at rest, and a bit index in use is below 8. -/
structure BusInv (s : State) : Prop where
  store : s.store = controlStore
  fits : engineFits s = true
  dat : s.datDrv = .low → transferring s.mpc = true
  ack : s.ackDrv = .low → pulsing s.mpc = true
  mask : s.irqEnabled = !maskedAt s.mpc
  address : controllerPc s.pc = true → s.addr = 0x01
  rest : s.pc.toNat ≤ 1 → s.active = false
  bitIndex : insideByte s.mpc = true → s.bit.val < 8

/-- The operation words of the two agents with one operation each. -/
structure RoleInv (s : State) : Prop where
  writer : s.writerOp = 0x0020
  isr : s.isrOp = 0x0030

/-! ## The channel -/

/-- The channel memory is canonical, and its index cells hold 0 or 1 (20_memory.md R82; 43_channel.md R248). -/
structure ChannelInv (s : State) : Prop where
  canonical : s.ch.wf = true
  writeIdx : s.ch.byteAt writeIdxAddr = 0x00 ∨ s.ch.byteAt writeIdxAddr = 0x01
  readIdx : s.ch.byteAt readIdxAddr = 0x00 ∨ s.ch.byteAt readIdxAddr = 0x01

/-- CHR has read its index and has not yet ended (43_channel.md R245). -/
def reading (s : State) : Bool := s.mpc matches .r2 | .r3 | .r4 | .r5

/-- CHW has read its indices and has not yet ended (43_channel.md R244). -/
def writing (s : State) : Bool := !(s.wr.pos == .w1)

/-- The CHW in progress is accumulating: its w1 found `read_idx` ≠ `write_idx` (43_channel.md R250). The test is read
from `R.wcons`, which in Direct mode holds it by entry 15 alone (DEDUCED, unsafe there: R247 denies that write). -/
def accumulating (s : State) : Bool := writing s && !s.wr.wcons

/-- An accumulating CHW and a CHR are both in progress: what precondition Q excludes (R250). -/
def channelOverlap (s : State) : Bool := accumulating s && reading s

/-- What holds of the channel in a run under Q: a CHW that is not accumulating targets neither the latest slot nor
the slot that a CHR in progress reads. In Direct mode it rests on entry 15, as `accumulating` does. -/
structure NoTearInv (s : State) : Prop where
  channel : ChannelInv s
  target : writing s = true → s.wr.wcons = true → idxByte s.wr.wt ≠ s.ch.byteAt writeIdxAddr
  consumed : writing s = true → s.wr.wcons = true → s.ch.byteAt readIdxAddr = s.ch.byteAt writeIdxAddr
  apart : reading s = true → writing s = true → s.wr.wcons = true → s.ridx ≠ s.wr.wt
  read : reading s = true →
    idxByte s.ridx = s.ch.byteAt writeIdxAddr ∨ idxByte s.ridx = s.ch.byteAt readIdxAddr

/-- The turn completes a CHW: WRITER takes its w6 (43_channel.md R244). -/
def publishes (t : Turn) (s : State) : Bool := (t matches .writer _ _) && s.wr.pos == .w6

/-- The pair last published after one more turn (43_channel.md R248). -/
def publishedAfter (t : Turn) (s : State) (p : Byte × Byte) : Byte × Byte :=
  if publishes t s then (s.wr.wv1, s.wr.wv2) else p

/-- CHW has stored its first field (43_channel.md R244). -/
def storedFirst (s : State) : Bool := s.wr.pos matches .w4 | .w5 | .w6

/-- CHW has stored both its fields (43_channel.md R244). -/
def storedBoth (s : State) : Bool := s.wr.pos matches .w5 | .w6

/-- The slot that `write_idx` names holds p, the pair last published, but for the fields that an accumulating CHW has
already rewritten there (43_channel.md R248, R249); and a CHW in progress targets the latest slot exactly where it is
accumulating (`target`, which states `R.wcons` in both modes: in Direct mode that is entry 15). -/
structure PublishedInv (p : Byte × Byte) (s : State) : Prop where
  channel : ChannelInv s
  target : writing s = true → (s.wr.wcons = true ↔ idxByte s.wr.wt ≠ s.ch.byteAt writeIdxAddr)
  stored1 : storedFirst s = true → s.ch.byteAt (slotAddr s.wr.wt 0) = s.wr.wv1
  stored2 : storedBoth s = true → s.ch.byteAt (slotAddr s.wr.wt 1) = s.wr.wv2
  latest1 : (accumulating s && storedFirst s) = false →
    ∀ i, s.ch.byteAt writeIdxAddr = idxByte i → s.ch.byteAt (slotAddr i 0) = p.1
  latest2 : (accumulating s && storedBoth s) = false →
    ∀ i, s.ch.byteAt writeIdxAddr = idxByte i → s.ch.byteAt (slotAddr i 1) = p.2

/-! ## The calibrator -/

/-- A pair of timings is a grid point (42_calibrator.md R212). -/
structure GridPoint (p : Params) (pulse post : U32) : Prop where
  pulseLow : p.pwMin.toNat ≤ pulse.toNat
  pulseHigh : pulse.toNat ≤ p.pwMax.toNat
  pulseStep : (p.pwMax.toNat - pulse.toNat) % p.calStep.toNat = 0
  postLow : p.pwaitMin.toNat ≤ post.toNat
  postHigh : post.toNat ≤ p.pwaitMax.toNat
  postStep : (post.toNat - p.pwaitMin.toNat) % p.calStep.toNat = 0

/-- The calibrator invariant: the timing in force and a recorded best are grid points, a recorded best is a candidate,
a lock is on the best, and the window is open and counts no more successes than attempts. -/
structure CalInv (p : Params) (c : Calibrator) : Prop where
  cursor : GridPoint p c.pulse c.post
  best : c.bestValid = true → GridPoint p c.bestPulse c.bestPost
  candidate : c.bestValid = true → calCandidate p c.bestSucc c.bestAtt = true
  bestRate : c.bestSucc.toNat ≤ c.bestAtt.toNat
  locked : c.locked = true → c.bestValid = true ∧ c.pulse = c.bestPulse ∧ c.post = c.bestPost
  started : c.locked = true → c.sweepStarted = true
  window : c.winAtt.toNat < p.trialN.toNat
  windowRate : c.winSucc.toNat ≤ c.winAtt.toNat

/-! ## The statistics -/

/-- The poll-interval invariant (44_telemetry.md R261): the average is the truncated mean of the recorded intervals,
and lies between bounds that hold every one of them. -/
structure PollInv (t : Stats) : Prop where
  fresh : t.pollCnt = 0 → t.pollSum = 0 ∧ t.pollAvg = 0 ∧ t.pollMin = 0xFFFFFFFF ∧ t.pollMax = 0
  low : t.pollCnt ≠ 0 → t.pollCnt.toNat * t.pollMin.toNat ≤ t.pollSum.toNat
  high : t.pollSum.toNat ≤ t.pollCnt.toNat * t.pollMax.toNat
  mean : t.pollCnt ≠ 0 → t.pollAvg.toNat = t.pollSum.toNat / t.pollCnt.toNat
  bound : t.pollAvg.toNat ≤ t.pollMax.toNat

/-- One more transaction that DISPATCH has not yet counted. -/
def beforeDispatch (pc : Pc) : Nat := if pc = 2 ∨ pc = 3 then 1 else 0

/-- One more transaction that ABORT has not yet counted. -/
def beforeAbort (pc : Pc) : Nat := if 2 ≤ pc.toNat then 1 else 0

/-- The counter relations (44_telemetry.md R265), which hold while no counter has wrapped. -/
structure CounterInv (s : State) : Prop where
  kinds : s.st.controller.toNat + s.st.memcard.toNat + beforeDispatch s.pc ≤ s.st.total.toNat
  timeouts : s.st.timeout.toNat + beforeAbort s.pc ≤ s.st.total.toNat

/-- Two states that agree in everything but the statistics and what the telemetry port shows. -/
def sameButStats (s t : State) : Prop := { s with st := t.st, telPort := t.telPort } = t

/-! ## Runs -/

/-- The turns of a list taken in order, to the first stop. -/
def runTurns (ts : List Turn) (s : State) : Host.Outcome State Fault Refusal :=
  match ts with
  | [] => .next s
  | t :: rest =>
    match takeTurn t s with
    | .next s' => runTurns rest s'
    | .fault r => .fault r
    | .refused r => .refused r

/-- The scheduler gives TELEMETRY only its own operation (44_telemetry.md R266). -/
def legalTurn (t : Turn) : Prop := ∀ w, t = .telemetry w → ∃ x, decodeWord w = .ok (.tread x)

/-- A run: a state and a turn at each position (60_exceptions.md R290). -/
def isRun (σ : Nat → State) (τ : Nat → Turn) : Prop := ∀ n, takeTurn (τ n) (σ n) = .next (σ (n + 1))

/-- ENGINE takes a micro-step at position n: its context's turn, with ISR not enabled (60_exceptions.md R286). -/
def engineSteps (σ : Nat → State) (τ : Nat → Turn) (n : Nat) : Prop := τ n = .engine ∧ isrEnabled (σ n) = false

/-- ISR steps at position n (60_exceptions.md R286). -/
def isrSteps (σ : Nat → State) (τ : Nat → Turn) (n : Nat) : Prop := τ n = .engine ∧ isrEnabled (σ n) = true

/-- Fairness (60_exceptions.md R291). Nothing is asked of HOST, WRITER and TELEMETRY, and that an enabled ISR comes
before ENGINE's next micro-step is `contextStep`. -/
structure FairRun (σ : Nat → State) (τ : Nat → Turn) : Prop where
  /-- Infinitely many TIMEBASE steps. -/
  timebase : ∀ n, ∃ m, n ≤ m ∧ τ m = .timebase
  /-- Infinitely many ENGINE steps, unless ISR is enabled for ever. -/
  engine : (∀ n, ∃ m, n ≤ m ∧ engineSteps σ τ m) ∨ ∃ n, ∀ m, n ≤ m → isrEnabled (σ m) = true
  /-- An enabled ISR steps eventually. -/
  isr : ∀ n, isrEnabled (σ n) = true → ∃ m, n ≤ m ∧ isrSteps σ τ m

/-- The ticks in the k turns from position n on (60_exceptions.md R300). -/
def ticksFrom (τ : Nat → Turn) (n k : Nat) : Nat :=
  match k with
  | 0 => 0
  | k + 1 => ticksFrom τ n k + if τ (n + k) = .timebase then 1 else 0

/-- ENGINE's micro-steps are fewer than 2^31 ticks apart, so that `elapsed` at a poll is exact (70_reset_and_hazards.md
R334; entry 19). A premise and not a rule of the hardware. -/
def pollsInTime (σ : Nat → State) (τ : Nat → Turn) : Prop :=
  ∀ n, ∃ k, engineSteps σ τ (n + k) ∧ ticksFrom τ n k < durationBound

/-- A whole CHW of a run (43_channel.md R244): its w1 at c, its w2 at b with the sample (s1, s2), its w6 at a. Other
agents may step between its micro-steps. -/
structure WholeChw (σ : Nat → State) (τ : Nat → Turn) (c b a : Nat) (s1 s2 : Byte) : Prop where
  first : (σ c).wr.pos = .w1 ∧ ∃ x y, τ c = .writer x y
  sample : c < b ∧ (∀ k, c < k → k ≤ b → (σ k).wr.pos = .w2) ∧ τ b = .writer s1 s2
  stores : b < a ∧ ∀ k, b < k → k ≤ a → ((σ k).wr.pos matches .w3 | .w4 | .w5 | .w6) = true
  last : publishes (τ a) (σ a) = true

/-- A whole CHR of a run (43_channel.md R245): its r1 at n and its r5 at m. Other agents may step between its
micro-steps. -/
structure WholeChr (σ : Nat → State) (τ : Nat → Turn) (n m : Nat) : Prop where
  first : (σ n).mpc = .r1 ∧ engineSteps σ τ n
  inside : n < m ∧ ∀ k, n < k → k ≤ m → reading (σ k) = true
  last : (σ m).mpc = .r5 ∧ engineSteps σ τ m

/-- WRITER takes no step after position n up to position m. -/
def noWriterTurn (τ : Nat → Turn) (n m : Nat) : Prop := ∀ k, n < k → k ≤ m → ∀ x y, τ k ≠ .writer x y

/-- Precondition Q over a run (43_channel.md R250): no accumulating CHW overlaps a CHR. -/
def preconditionQ (σ : Nat → State) : Prop := ∀ n, channelOverlap (σ n) = false

/-- Precondition P over a run (43_channel.md R250): no CHW is accumulating. -/
def preconditionP (σ : Nat → State) : Prop := ∀ n, accumulating (σ n) = false

/-- The CLK level an edge wait at its w1 awaits (40_bus_primitives.md R143, R144), for an operation i at its label. -/
def awaitedLevel (i : Instr) (m : Mpc) : Option Bool :=
  match m with
  | .x1 .w1 => some false
  | .x2 .w1 => some true
  | .y1 .w1 => some false
  | .y4 .w1 => some true
  | .t1 .w1 => some false
  | .t3 .w1 => some true
  | .w .w1 =>
    match i with
    | .waitf _ => some false
    | .waitr _ => some true
    | _ => none
  | _ => none

/-- The bound of a wait or delay that i polls at its label: R.start's elapsed time ends it at the latest
(40_bus_primitives.md R143, R144, R148, R150; 41_transaction_fsm.md R171). MCWAIT has none (R175). -/
def pollBound (i : Instr) (s : State) : Option U32 :=
  match s.mpc with
  | .i1 => some s.cfg.debounce
  | .a1 => some s.cfg.ackDelay
  | .a5 => some (effPulse s)
  | .d1 =>
    match i with
    | .delay d => some (durationOf d s)
    | _ => none
  | .x1 .w1 => some (byteBound s.bit s.cfg)
  | .y1 .w1 => some (byteBound s.bit s.cfg)
  | .t1 .w1 => some (byteBound s.bit s.cfg)
  | .x2 .w1 => some s.cfg.edgeTimeout
  | .y4 .w1 => some s.cfg.edgeTimeout
  | .t3 .w1 => some s.cfg.edgeTimeout
  | .w .w1 =>
    match i with
    | .waitf t => some (boundOf t s.cfg)
    | .waitr t => some (boundOf t s.cfg)
    | _ => none
  | _ => none

/-- The bound of the wait or delay that ENGINE is polling in a state. -/
def waitBound (s : State) : Option U32 :=
  match currentOp s with
  | none => none
  | some i => pollBound i s

/-- The CLK level ENGINE awaits in a state, and does not yet see. -/
def awaits (s : State) : Option Bool :=
  match currentOp s with
  | none => none
  | some i =>
    match awaitedLevel i s.mpc with
    | none => none
    | some l => if s.pins.clk = l then none else some l

/-- ENGINE is at the poll of a wait on HOST: an edge wait's w1 (40_bus_primitives.md R143, R144), or MCWAIT's m1, which
waits for select's rise (41_transaction_fsm.md R175). -/
def pollsHost (s : State) : Bool :=
  match currentOp s with
  | none => false
  | some i => (awaitedLevel i s.mpc).isSome || s.mpc == .m1

/-- A poll in this state ends its wait on HOST by the awaited level, and so neither by abort nor by timeout: `pollEdge`
finds it reached (R143, R144), or MCWAIT sees SEL_N = 1 (R175). -/
def pollReaches (s : State) : Bool :=
  match currentOp s with
  | none => false
  | some i =>
    match awaitedLevel i s.mpc with
    | some l => !aborted s && s.pins.clk == l
    | none => s.mpc == .m1 && s.pins.selN

/-- The wait that ENGINE polls at position m ends by the awaited level: ENGINE stays at that poll up to a micro-step of
its own that sees the level (60_exceptions.md R297 (f)). -/
def endsByLevel (σ : Nat → State) (τ : Nat → Turn) (m : Nat) : Prop :=
  ∃ k, m ≤ k ∧ (∀ j, m ≤ j → j ≤ k → (σ j).mpc = (σ m).mpc) ∧ engineSteps σ τ k ∧ pollReaches (σ k) = true

/-- Position m belongs to what ENGINE does for the transaction of the window [a, e]: since a position of the window it
has not been at pc 0. It may go on after e. -/
def servesWindow (σ : Nat → State) (a e m : Nat) : Prop :=
  ∃ b, a < b ∧ b ≤ e ∧ b ≤ m ∧ ∀ j, b ≤ j → j ≤ m → (σ j).pc ≠ 0

/-- How many frames, from the first on, the device takes part in: every frame of a controller transaction, and frame 0
of any other (60_exceptions.md R297 (c)). -/
def framesServed (bytes : List Byte) : Nat :=
  if bytes.head? = some 0x01 then bytes.length else min 1 bytes.length

/-- The device releases ACK after a pulse, at some position of (m, n] (60_exceptions.md R297 (d)). -/
def pulseWithin (σ : Nat → State) (m n : Nat) : Prop :=
  ∃ i j, m < i ∧ i < j ∧ j ≤ n ∧ (σ i).ackDrv = .low ∧ (σ j).ackDrv = .rel

/-- CLK has risen and RX has not yet sampled CMD: it samples in x3, after it sees the level in x2
(40_bus_primitives.md R145; 70_reset_and_hazards.md R327). -/
def beforeRxSample (s : State) : Bool := s.mpc matches .x2 _ | .x3

/-- The well-behaved host WB for the frames `bytes` (60_exceptions.md R297), a premise and not a rule of the hardware.
The transaction's window is [a, e]: HOST lowers SEL_N at a and raises it at e. `fall k` and `rise k` are the positions of
the k-th clock edges, eight to a frame. Frames after an address other than 0x01 are eight cycles inside the window, and
otherwise unconstrained but for select, the other devices and the timeouts (entry 20, DEDUCED). How long after the rise CMD is held is entry 21 (DESIGN CHOICE), and
CLK's level from select's fall to the first cycle is entry 22 (DESIGN CHOICE). That select rises after a last frame with
a pulse too is entry 23, and which waits (f) speaks of is entry 24 (both DEDUCED). CLK's rest between two frames and
after the last one is entry 25 (DESIGN CHOICE). The letters are R297's. -/
structure WellBehaved (σ : Nat → State) (τ : Nat → Turn) (bytes : List Byte) (a e : Nat) (fall rise : Nat → Nat) :
    Prop where
  /-- (a) SEL_N goes from 1 to 0 at a and stays 0 to the end of the window. -/
  select : a < e ∧ (σ a).pins.selN = true ∧ (∃ p, τ a = .host p ∧ p.selN = false) ∧
    ∀ m, a < m → m ≤ e → (σ m).pins.selN = false
  /-- (d) HOST ends the transaction: at e, after the last frame (`order`), it raises SEL_N. So no frame follows the last
  one with select low. R297 (d) says so of a frame with no pulse; that (a)'s "until after its last frame" says it of a
  last frame with a pulse as well is entry 23 (DEDUCED). -/
  ended : ∃ p, τ e = .host p ∧ p.selN = true
  /-- (a), (b) The cycles of all the frames are in order, after select's fall and before its rise. -/
  order : (∀ k, k < 8 * bytes.length → a < fall k ∧ fall k < rise k ∧ rise k < e) ∧
    ∀ k, k + 1 < 8 * bytes.length → rise k < fall (k + 1)
  /-- (b) Each cycle of each frame is a falling edge of CLK and then a rising one. -/
  cycles : ∀ k, k < 8 * bytes.length →
    ((σ (fall k)).pins.clk = true ∧ (σ (fall k + 1)).pins.clk = false) ∧
    ((σ (rise k)).pins.clk = false ∧ (σ (rise k + 1)).pins.clk = true)
  /-- CLK is 1 when select falls, which R297 does not say (entry 22, DESIGN CHOICE). -/
  rest : (σ a).pins.clk = true
  /-- (b) CLK changes at the edges and nowhere else: up to select's rise at e where the device takes part in every frame
  (a controller transaction, or one frame to any address), and else up to the last rise of frame 0. That it does not
  change between select's fall and the first edge is entry 22, and that it does not change between two of these frames,
  or between the last rise and e, is entry 25 (both DESIGN CHOICE). -/
  edges : ∀ m, a ≤ m → m < e → (framesServed bytes = bytes.length ∨ m ≤ rise (8 * framesServed bytes - 1)) →
    ((σ m).pins.clk ≠ (σ (m + 1)).pins.clk ↔ ∃ k, k < 8 * framesServed bytes ∧ (m = fall k ∨ m = rise k))
  /-- (b) CMD shows bit i of the frame's byte from the fall of cycle i until after its rise, and for as long as RX has
  yet to sample it, so that both sampling points are covered (90_conflicts.md C10). R297 says only "until after CLK
  rises": the end of the hold is entry 21 (DESIGN CHOICE). -/
  command : ∀ k, k < 8 * framesServed bytes → ∀ m, fall k < m →
    (m ≤ rise k + 1 ∨ ∀ j, rise k < j → j ≤ m → beforeRxSample (σ j) = true) →
    (σ m).pins.cmd = (bytes.getD (k / 8) 0).getLsbD (k % 8)
  /-- (c) In those frames CLK changes only to a level ENGINE is waiting for. -/
  pace : ∀ k, k < 8 * framesServed bytes → awaits (σ (fall k)) = some false ∧ awaits (σ (rise k)) = some true
  /-- (d) Between two of those frames the host waits for an acknowledge pulse: a frame with no pulse is the last, and
  `ended` follows it (`WellBehaved.ends_of_no_pulse`). -/
  pulse : ∀ f, f + 1 < framesServed bytes → pulseWithin σ (rise (8 * f + 7)) (fall (8 * (f + 1)))
  /-- (e) No other device drives a line. -/
  alone : ∀ m, a ≤ m → m ≤ e → (σ m).pins.datExt = true ∧ (σ m).pins.ackExt = true
  /-- (f) Every wait ENGINE makes on HOST for the transaction ends by the awaited level, and so by no abort: HOST raises
  SEL_N only after ENGINE has seen the last level it waits for (entry 24, DEDUCED, says which waits these are). -/
  waitsEnd : ∀ m, servesWindow σ a e m → pollsHost (σ m) = true → endsByLevel σ τ m
  /-- (f) No wait ends by timeout. -/
  intime : ∀ m, a ≤ m → m < e → (σ (m + 1)).failReason = .timeout → (σ m).failReason = .timeout

/-! ## Whole frames -/

/-- HOST sets CLK and CMD and leaves its other bits. -/
def hostClock (p : Pins) (clk cmd : Bool) : Turn := .host { p with clk := clk, cmd := cmd }

/-- One cycle of a receive-only frame: the host lowers CLK and shows the bit, RX sees the level, the host raises CLK,
RX sees it and samples (30_encoding.md R111; 40_bus_primitives.md R145). -/
def rxCycle (p : Pins) (b : Bool) : List Turn :=
  [hostClock p false b, .engine, .engine, hostClock p true b, .engine, .engine, .engine]

/-- One cycle of a full-duplex frame: the host lowers CLK and shows the bit, XFER sees the level, samples and drives,
the host raises CLK, XFER sees it and moves on (30_encoding.md R111; 40_bus_primitives.md R147). -/
def xferCycle (p : Pins) (b : Bool) : List Turn :=
  [hostClock p false b, .engine, .engine, .engine, .engine, hostClock p true b, .engine, .engine, .engine]

/-- The cycles i, i + 1, … (n of them) of a frame that carries v, bit 0 first. -/
def frameCycles (cycle : Bool → List Turn) (v : Byte) (i n : Nat) : List Turn :=
  match n with
  | 0 => []
  | n + 1 => cycle (v.getLsbD i) ++ frameCycles cycle v (i + 1) n

end Sys2Proof.Machine
end

