-- ==== Sys2Proof/Certificates/Slice0/Obligations.lean ====
section
/-! DEFINITION. The statements for the provers. A statement names the rule of spec/ it formalises in its docstring. -/

open Sys2Proof
open Sys2Proof.Machine

/-! ## Words the statements share -/

/-- The abort condition, in the words of 40_bus_primitives.md R141. -/
def Sys2Proof.Claims.abortSeen (s : State) : Prop := s.pins.selN = true ∨ s.active = false

/-- `elapsed(R.start) >= d` (00_scope.md R16). -/
def Sys2Proof.Claims.waited (d : U32) (s : State) : Prop := d.toNat ≤ (s.now - s.start).toNat

/-- `new` is `old` with bit i written to b (00_scope.md R15). -/
def Sys2Proof.Claims.bitWritten (old new : Byte) (i : Nat) (b : Bool) : Prop :=
  ∀ j, j < 8 → new.getLsbD j = if j = i then b else old.getLsbD j

/-- The micro-steps of an edge wait inside instruction i (R143, R144): w0 takes the time; w1 fails on abort, else ends
at the level, else fails on timeout, else stutters. -/
def Sys2Proof.Claims.edgeWait (i : Instr) (label : WaitPos → Mpc) (level : Bool) (bound : State → U32)
    (onOk onFail : State → State) : Prop :=
  ∀ s : State,
    (s.mpc = label .w0 → exec i s = .next { s with start := s.now, mpc := label .w1 }) ∧
    (s.mpc = label .w1 → Claims.abortSeen s →
      exec i s = .next (onFail { s with failReason := .abort })) ∧
    (s.mpc = label .w1 → ¬Claims.abortSeen s → s.pins.clk = level → exec i s = .next (onOk s)) ∧
    (s.mpc = label .w1 → ¬Claims.abortSeen s → s.pins.clk ≠ level → Claims.waited (bound s) s →
      exec i s = .next (onFail { s with failReason := .timeout })) ∧
    (s.mpc = label .w1 → ¬Claims.abortSeen s → s.pins.clk ≠ level → ¬Claims.waited (bound s) s →
      exec i s = .next s)

/-- `T(R.bit)` (R142). -/
def Sys2Proof.Claims.bitBound (s : State) : U32 :=
  if s.bit.val = 0 then s.cfg.byteTimeout else s.cfg.edgeTimeout

/-- The full-duplex transfer of v, micro-step by micro-step (R147), for an instruction i that reads v at y0. -/
def Sys2Proof.Claims.transfer (i : Instr) (v : State → Byte) : Prop :=
  (∀ s : State, s.mpc = .y0 → exec i s =
    .next { s with tx := v s, rx := 0x00, failReason := .none, bit := 0, mpc := .y1 .w0 }) ∧
  Claims.edgeWait i .y1 false Claims.bitBound (fun s => { s with mpc := .y2 }) (fun s => { s with mpc := .yf }) ∧
  (∀ (s : State) (r : Byte), s.mpc = .y2 → s.bit.val < 8 → Claims.bitWritten s.rx r s.bit.val s.pins.cmd →
    exec i s = .next { s with rx := r, mpc := .y3 }) ∧
  (∀ s : State, s.mpc = .y3 → exec i s =
    .next { s with datDrv := if s.tx.getLsbD s.bit.val then .rel else .low, mpc := .y4 .w0 }) ∧
  Claims.edgeWait i .y4 true (fun s => s.cfg.edgeTimeout)
    (fun s => { s with mpc := .y5 }) (fun s => { s with mpc := .yf }) ∧
  (∀ (s : State) (b : Fin 9), s.mpc = .y5 → b.val = s.bit.val + 1 →
    exec i s = .next { s with bit := b, mpc := if b.val < 8 then .y1 .w0 else .y6 }) ∧
  (∀ s : State, s.mpc = .y6 → exec i s = .next (done .ok { s with datDrv := .rel })) ∧
  (∀ s : State, s.mpc = .yf → exec i s = .next (done .fail { s with datDrv := .rel, rx := 0xFF }))

/-- Sending v, micro-step by micro-step (R146), for an instruction i that reads v at t0. -/
def Sys2Proof.Claims.transmission (i : Instr) (v : State → Byte) : Prop :=
  (∀ s : State, s.mpc = .t0 → exec i s =
    .next { s with tx := v s, failReason := .none, bit := 0, mpc := .t1 .w0 }) ∧
  Claims.edgeWait i .t1 false Claims.bitBound (fun s => { s with mpc := .t2 }) (fun s => { s with mpc := .tf }) ∧
  (∀ s : State, s.mpc = .t2 → exec i s =
    .next { s with datDrv := if s.tx.getLsbD s.bit.val then .rel else .low, mpc := .t3 .w0 }) ∧
  Claims.edgeWait i .t3 true (fun s => s.cfg.edgeTimeout)
    (fun s => { s with mpc := .t4 }) (fun s => { s with mpc := .tf }) ∧
  (∀ (s : State) (b : Fin 9), s.mpc = .t4 → b.val = s.bit.val + 1 →
    exec i s = .next { s with bit := b, mpc := if b.val < 8 then .t1 .w0 else .t5 }) ∧
  (∀ s : State, s.mpc = .t5 → exec i s = .next (done .ok { s with datDrv := .rel })) ∧
  (∀ s : State, s.mpc = .tf → exec i s = .next (done .fail { s with datDrv := .rel }))

/-- The operation words of R117 whose operand is not reserved (30_encoding.md R115, R118), by number. -/
def Sys2Proof.Claims.operationWord (w : OpWord) : Prop :=
  (w.toNat % 256 ∈ [0x01, 0x02, 0x03, 0x04, 0x05, 0x0A, 0x0B, 0x0C, 0x0D, 0x0E, 0x0F, 0x14, 0x15, 0x20, 0x30] ∧
    w.toNat / 256 = 0) ∨
  w.toNat % 256 ∈ [0x07, 0x10] ∨
  (w.toNat % 256 ∈ [0x08, 0x09, 0x11, 0x12, 0x13] ∧ w.toNat / 256 ≤ 1) ∨
  (w.toNat % 256 = 0x06 ∧ w.toNat / 256 ≤ 2) ∨
  (w.toNat % 256 = 0x31 ∧ w.toNat / 256 ≤ 0x0D)

/-- The constraints of 00_scope.md R13, by number. -/
def Sys2Proof.Claims.parametersAllowed (p : RawParams) : Prop :=
  (0x01 ∉ p.ignoreSet ∧ 0x81 ∉ p.ignoreSet ∧ 0xFF ∉ p.ignoreSet) ∧
  (0 < p.byteTimeout.toNat ∧ p.byteTimeout.toNat < 2 ^ 31) ∧
  (0 < p.edgeTimeout.toNat ∧ p.edgeTimeout.toNat < 2 ^ 31) ∧
  p.ackDelay.toNat < 2 ^ 31 ∧ p.ackPulseFixed.toNat < 2 ^ 31 ∧ p.postWaitFixed.toNat < 2 ^ 31 ∧
  p.debounce.toNat < 2 ^ 31 ∧
  (p.pwMin.toNat ≤ p.pwMax.toNat ∧ p.pwMax.toNat < 2 ^ 31) ∧
  (p.pwaitMin.toNat ≤ p.pwaitMax.toNat ∧ p.pwaitMax.toNat < 2 ^ 31) ∧
  (0 < p.calStep.toNat ∧ p.calStep.toNat < 2 ^ 31) ∧
  1 ≤ p.trialN.toNat ∧ p.trialTimeout.toNat < 2 ^ 31 ∧
  (1 ≤ p.minRateDen.toNat ∧ p.minRateNum.toNat ≤ p.minRateDen.toNat) ∧
  (0 < p.idleTimeout.toNat ∧ p.idleTimeout.toNat < 2 ^ 31) ∧
  (p.bitUp ≠ p.bitDown ∧ p.bitUp ≠ p.bitLeft ∧ p.bitUp ≠ p.bitRight ∧
    p.bitDown ≠ p.bitLeft ∧ p.bitDown ≠ p.bitRight ∧ p.bitLeft ≠ p.bitRight)

/-- The idle period has elapsed since the last observation (42_calibrator.md R214, R220). -/
def Sys2Proof.Claims.idlePast (s : State) : Prop :=
  s.cal.hasSeen = true ∧ s.cfg.idleTimeout.toNat ≤ (s.now - s.cal.lastSeen).toNat

/-- Every calibrator register that `cal_reset()` gives a value, at that value (42_calibrator.md R221); the two to which
it gives none, `R.win_start` and `R.last_seen`, kept (DEDUCED, entry 13). -/
def Sys2Proof.Claims.calResetTo (p : Params) (c : Calibrator) : Calibrator :=
  { c with
    pulse := p.pwMax, post := p.pwaitMin, winAtt := 0, winSucc := 0, bestValid := false, bestPulse := p.pwMax,
    bestPost := p.pwaitMax, bestSucc := 0, bestAtt := 0, locked := false, sweepStarted := false, hasSeen := false }

/-- `cal_tick()` (42_calibrator.md R220) leaves the calibrator at c. -/
def Sys2Proof.Claims.ticked (s : State) (c : Calibrator) : Prop :=
  (s.cfg.calEnable = true ∧ Claims.idlePast s ∧ c = Claims.calResetTo s.cfg s.cal) ∨
  (¬(s.cfg.calEnable = true ∧ Claims.idlePast s) ∧ c = s.cal)

/-- The successor columns of the control store (41_transaction_fsm.md R170): from, outcome, to, and the first
micro-step there. -/
def Sys2Proof.Claims.successors : List (Pc × Branch × Pc × Mpc) :=
  [(0, .ok, 1, .s0), (1, .ok, 2, .x0), (2, .ok, 3, .p0), (2, .fail, 19, .b0), (3, .ctl, 4, .a0), (3, .mc, 18, .m0),
   (3, .ign, 17, .e0), (3, .inv, 17, .e0), (4, .ok, 5, .d0), (4, .fail, 20, .c0), (5, .ok, 6, .y0), (6, .ok, 7, .c0),
   (6, .fail, 7, .c0), (7, .ok, 8, .k0), (8, .poll, 9, .sp0), (8, .sentinel, 19, .b0), (8, .other, 17, .e0),
   (9, .ok, 10, .r1)] ++
  [(10, .ok, 11, .a0), (11, .ok, 12, .y0), (11, .fail, 19, .b0), (12, .ok, 13, .a0), (12, .fail, 19, .b0),
   (13, .ok, 14, .y0), (13, .fail, 19, .b0), (14, .ok, 15, .a0), (14, .fail, 19, .b0), (15, .ok, 16, .y0),
   (15, .fail, 19, .b0), (16, .ok, 17, .e0), (16, .fail, 19, .b0), (17, .ok, 0, .i0), (18, .ok, 17, .e0),
   (19, .ok, 0, .i0), (20, .ok, 19, .b0)]

/-- The successor of an outcome, for an entry that names it once or not at all: the one the entry names, and else the
next line (the second is the test programs' convention, entry 8). -/
def Sys2Proof.Claims.successorIs (e : Entry) (pc : Pc) (o : Branch) (target : Pc) : Prop :=
  (∀ p, (o, p) ∈ e.succs ↔ p = target) ∨ ((∀ p, (o, p) ∉ e.succs) ∧ target = pc + 1)

/-! ## Encodings -/

/-- 30_encoding.md R113, R115, R117: for every well-formed instruction, decoding its encoding gives it back. -/
def Obligations.DecodeEncodeRoundTrip : Prop :=
  ∀ (ignore : List Byte) (i : Instr), i.wf ignore = true → decode ignore (encode i) = .ok i

/-- 30_encoding.md R117, R122: a word that decodes is the one word of its operation. -/
def Obligations.EncodeDecodedWord : Prop :=
  ∀ (w : OpWord) (i : Instr), decodeWord w = .ok i → encode i = .word w

/-- 30_encoding.md R118: every word outside the table's ranges is refused whoever is given it, every other word is an
operation, and an operation of another agent's role is refused. -/
def Obligations.ReservedWordsRefused : Prop :=
  (∀ (w : OpWord) (a : Agent) (s : State), ¬Claims.operationWord w →
    ∃ why, issue a w s = .refused (.reservedWord why)) ∧
  (∀ w : OpWord, Claims.operationWord w → ∃ i, decodeWord w = .ok i) ∧
  (∀ (w : OpWord) (a : Agent) (i : Instr) (s : State), decodeWord w = .ok i → i.agent ≠ a →
    issue a w s = .refused (.wrongAgent i.agent a))

/-- 30_encoding.md R117: words written out from the encoding column decode to their operations. -/
def Obligations.SampleWordsDecode : Prop :=
  decodeWord 0b0000000000000001 = .ok .idlewait ∧
  decodeWord 0b0000001000000110 = .ok (.delay .debounce) ∧
  decodeWord 0b0100000100000111 = .ok (.xferi 0x41) ∧
  decodeWord 0b0000000100001000 = .ok (.xferr .b2) ∧
  decodeWord 0b0000000100001001 = .ok (.calobs .cmd) ∧
  decodeWord 0b0000000100010010 = .ok (.waitf .byte) ∧
  decodeWord 0b0000000000100000 = .ok .chw ∧
  decodeWord 0b0000110100110001 = .ok (.tread .calStarted)

/-! ## The step -/

/-- 41_transaction_fsm.md R170 and 60_exceptions.md R286, R290: a step takes the next turn off the agenda (or the free
one; both are the model's, entry 3) and runs the operation word that the turn's agent fetches; a pending, unmasked
interrupt comes before ENGINE. -/
def Obligations.StepRunsDecodedWord : Prop :=
  (∀ (s : State) (t : Turn) (rest : List Turn), s.agenda = t :: rest →
    step s = takeTurn t { s with agenda := rest }) ∧
  (∀ s : State, s.agenda = [] → step s = takeTurn (Config.schedule s.turns) { s with turns := s.turns + 1 }) ∧
  (∀ (s : State) (e : Entry) (i : Instr), (s.irqPending = false ∨ s.irqEnabled = false) →
    s.store[s.pc.toNat]? = some e → decodeWord e.word = .ok i → i.agent = .engine →
    takeTurn .engine s = exec i s) ∧
  (∀ s : State, s.irqPending = true → s.irqEnabled = true → decodeWord s.isrOp = .ok .isr →
    takeTurn .engine s = exec .isr s) ∧
  (∀ (s : State) (s1 s2 : Byte), decodeWord s.writerOp = .ok .chw →
    takeTurn (.writer s1 s2) s = exec .chw { s with snap1 := s1, snap2 := s2 }) ∧
  (∀ (s : State) (w : OpWord) (x : TelReg), decodeWord w = .ok (.tread x) →
    takeTurn (.telemetry w) s = exec (.tread x) s)

/-- 60_exceptions.md R285, R296, R300: a HOST step sets its five bits and latches a rise of SEL_N whatever the mask; a
TIMEBASE step adds one tick, modulo 2^32. Neither changes anything else. -/
def Obligations.EnvironmentSteps : Prop :=
  (∀ (s : State) (p : Pins), s.pins.selN = false → p.selN = true →
    takeTurn (.host p) s = .next { s with pins := p, irqPending := true }) ∧
  (∀ (s : State) (p : Pins), ¬(s.pins.selN = false ∧ p.selN = true) →
    takeTurn (.host p) s = .next { s with pins := p }) ∧
  (∀ s : State, takeTurn .timebase s = .next { s with now := BitVec.ofNat 32 (s.now.toNat + 1) })

/-- 10_state.md R41, with entries 5 and 7, the model's choices: every ENGINE instruction goes on at each of its own
micro-steps, at a label of another operation it faults, and an index cell that holds neither 0 nor 1 (which
20_memory.md R82 says never occurs) stops CHW's w1 and CHR's r1. The channel invariant is what CHR's index read needs
to go on. -/
def Obligations.OwnMicroStepsComplete : Prop :=
  (∀ (i : Instr) (s : State), i.agent = .engine → ChannelInv s →
    (ownsMpc i s.mpc = true → ∃ t, exec i s = .next t) ∧
    (ownsMpc i s.mpc = false → exec i s = .fault .foreignMicroStep)) ∧
  (∀ s : State, s.wr.pos = .w1 → 1 < (s.ch.byteAt 5).toNat ∨ 1 < (s.ch.byteAt 4).toNat →
    exec .chw s = .fault .channelIndex) ∧
  (∀ s : State, s.mpc = .r1 → 1 < (s.ch.byteAt 4).toNat → exec .chr s = .fault .channelIndex)

/-- 41_transaction_fsm.md R170: ENGINE refuses a pc outside 0..20. -/
def Obligations.PcOutsideStoreRefused : Prop :=
  ∀ s : State, s.store = controlStore → 20 < s.pc.toNat → (s.irqPending = false ∨ s.irqEnabled = false) →
    takeTurn .engine s = .refused (.pcOutsideStore s.pc)

/-- 41_transaction_fsm.md R170 and 10_state.md R39, R41: an outcome takes its successor, the next operation starts at its
first micro-step, and `R.rx` goes to the entry's dest. In the fixed control store that is `R.addr` at address 2 and
`R.cmd` at address 6, and nothing elsewhere. In any store it is so for every entry, so also for the operations that
stand only in test programs (TXI, TXR, WAITF, WAITR, RELBUS, CALTICK); that an outcome the entry does not name goes to
the next line is entry 8. -/
def Obligations.OutcomeTakesSuccessor : Prop :=
  (∀ (s : State) (o : Branch) (target : Pc) (m : Mpc), s.store = controlStore →
    (s.pc, o, target, m) ∈ Claims.successors →
    done o s = { s with
      pc := target
      mpc := m
      addr := if s.pc = 2 then s.rx else s.addr
      cmd := if s.pc = 6 then s.rx else s.cmd }) ∧
  (∀ (s : State) (o : Branch) (e : Entry) (target : Pc), s.store[s.pc.toNat]? = some e →
    Claims.successorIs e s.pc o target → ∃ m,
    done o s = { s with
      pc := target
      mpc := m
      addr := if e.dest = .addr then s.rx else s.addr
      cmd := if e.dest = .cmd then s.rx else s.cmd } ∧
    ∀ (f : Entry) (i : Instr), s.store[target.toNat]? = some f → decodeWord f.word = .ok i → m = firstMpc i) ∧
  ((∀ v : Byte, firstMpc (.txi v) = .t0) ∧ (∀ r : ButtonReg, firstMpc (.txr r) = .t0) ∧
    (∀ t : TimeoutSel, firstMpc (.waitf t) = .w .w0 ∧ firstMpc (.waitr t) = .w .w0) ∧
    firstMpc .relbus = .rb0 ∧ firstMpc .caltick = .ct0)

/-! ## Bus primitives -/

/-- 40_bus_primitives.md R143, R144, with R141: WAITF and WAITR for both bounds. -/
def Obligations.EdgeWaitsPollAbortLevelTimeout : Prop :=
  (decodeWord 0x0012 = .ok (.waitf .edge) ∧ decodeWord 0x0112 = .ok (.waitf .byte) ∧
    decodeWord 0x0013 = .ok (.waitr .edge) ∧ decodeWord 0x0113 = .ok (.waitr .byte)) ∧
  ∀ (t : TimeoutSel) (bound : State → U32),
    bound = (fun s => match t with | .edge => s.cfg.edgeTimeout | .byte => s.cfg.byteTimeout) →
    Claims.edgeWait (.waitf t) .w false bound (done .ok) (done .fail) ∧
    Claims.edgeWait (.waitr t) .w true bound (done .ok) (done .fail)

/-- 40_bus_primitives.md R145: RX, micro-step by micro-step; a complete 0xFF fails and leaves the reason as it is. -/
def Obligations.RxReceivesByte : Prop :=
  decodeWord 0x0003 = .ok .rx ∧
  (∀ s : State, s.mpc = .x0 →
    exec .rx s = .next { s with failReason := .none, rx := 0x00, bit := 0, mpc := .x1 .w0 }) ∧
  Claims.edgeWait .rx .x1 false Claims.bitBound (fun s => { s with mpc := .x2 .w0 }) (fun s => { s with mpc := .xf }) ∧
  Claims.edgeWait .rx .x2 true (fun s => s.cfg.edgeTimeout)
    (fun s => { s with mpc := .x3 }) (fun s => { s with mpc := .xf }) ∧
  (∀ (s : State) (r : Byte) (b : Fin 9), s.mpc = .x3 → s.bit.val < 7 → b.val = s.bit.val + 1 →
    Claims.bitWritten s.rx r s.bit.val s.pins.cmd →
    exec .rx s = .next { s with rx := r, bit := b, mpc := .x1 .w0 }) ∧
  (∀ (s : State) (r : Byte), s.mpc = .x3 → s.bit.val = 7 → Claims.bitWritten s.rx r 7 s.pins.cmd → r ≠ 0xFF →
    exec .rx s = .next (done .ok { s with rx := r, bit := 8 })) ∧
  (∀ s : State, s.mpc = .x3 → s.bit.val = 7 → Claims.bitWritten s.rx 0xFF 7 s.pins.cmd →
    exec .rx s = .next (done .fail { s with rx := 0xFF, bit := 8 })) ∧
  (∀ s : State, s.mpc = .xf → exec .rx s = .next (done .fail { s with rx := 0xFF }))

/-- 40_bus_primitives.md R146: TXI and TXR, micro-step by micro-step; every exit releases DAT. -/
def Obligations.TxSendsByte : Prop :=
  (∀ v : Byte, decodeWord (v ++ (0x10 : Byte)) = .ok (.txi v)) ∧
  decodeWord 0x0011 = .ok (.txr .b1) ∧ decodeWord 0x0111 = .ok (.txr .b2) ∧
  (∀ v : Byte, Claims.transmission (.txi v) (fun _ => v)) ∧
  Claims.transmission (.txr .b1) (fun s => s.b1) ∧ Claims.transmission (.txr .b2) (fun s => s.b2)

/-- 40_bus_primitives.md R147: XFERI and XFERR, micro-step by micro-step; the incoming bit is sampled before the
outgoing line changes, and every exit releases DAT. -/
def Obligations.XferTransfersByte : Prop :=
  (∀ v : Byte, decodeWord (v ++ (0x07 : Byte)) = .ok (.xferi v)) ∧
  decodeWord 0x0008 = .ok (.xferr .b1) ∧ decodeWord 0x0108 = .ok (.xferr .b2) ∧
  (∀ v : Byte, Claims.transfer (.xferi v) (fun _ => v)) ∧
  Claims.transfer (.xferr .b1) (fun s => s.b1) ∧ Claims.transfer (.xferr .b2) (fun s => s.b2)

/-- 40_bus_primitives.md R148: ACK, micro-step by micro-step; the abort check stands before the mask, and the last
micro-step releases, drains and unmasks at once. -/
def Obligations.AckPulsesMasked : Prop :=
  decodeWord 0x0005 = .ok .ack ∧
  (∀ s : State, s.mpc = .a0 → exec .ack s = .next { s with start := s.now, mpc := .a1 }) ∧
  (∀ s : State, s.mpc = .a1 → Claims.waited s.cfg.ackDelay s → exec .ack s = .next { s with mpc := .a2 }) ∧
  (∀ s : State, s.mpc = .a1 → ¬Claims.waited s.cfg.ackDelay s → exec .ack s = .next s) ∧
  (∀ s : State, s.mpc = .a2 → Claims.abortSeen s → exec .ack s = .next (done .fail { s with failReason := .abort })) ∧
  (∀ s : State, s.mpc = .a2 → ¬Claims.abortSeen s → exec .ack s = .next { s with mpc := .a3 }) ∧
  (∀ s : State, s.mpc = .a3 → exec .ack s = .next { s with irqEnabled := false, mpc := .a4 }) ∧
  (∀ s : State, s.mpc = .a4 → exec .ack s = .next { s with ackDrv := .low, start := s.now, mpc := .a5 }) ∧
  (∀ (s : State) (d : U32), s.mpc = .a5 →
    d = (if s.cfg.calEnable then s.cal.pulse else s.cfg.ackPulseFixed) →
    exec .ack s = .next { s with mpc := if d.toNat ≤ (s.now - s.start).toNat then .a6 else .a5 }) ∧
  (∀ s : State, s.mpc = .a6 →
    exec .ack s = .next (done .ok { s with ackDrv := .rel, irqPending := false, irqEnabled := true }))

/-- 40_bus_primitives.md R150, with 42_calibrator.md R211: DELAY for its three durations; it never tests abort. -/
def Obligations.DelayWaitsItsDuration : Prop :=
  (decodeWord 0x0006 = .ok (.delay .post) ∧ decodeWord 0x0106 = .ok (.delay .ackdly) ∧
    decodeWord 0x0206 = .ok (.delay .debounce)) ∧
  ∀ (d : DelaySel) (dur : State → U32),
    dur = (fun s => match d with
      | .post => if s.cfg.calEnable then s.cal.post else s.cfg.postWaitFixed
      | .ackdly => s.cfg.ackDelay
      | .debounce => s.cfg.debounce) →
    ∀ s : State,
      (s.mpc = .d0 → exec (.delay d) s = .next { s with start := s.now, mpc := .d1 }) ∧
      (s.mpc = .d1 → Claims.waited (dur s) s → exec (.delay d) s = .next (done .ok s)) ∧
      (s.mpc = .d1 → ¬Claims.waited (dur s) s → exec (.delay d) s = .next s)

/-- 40_bus_primitives.md R149: RELBUS releases both lines and changes nothing else. -/
def Obligations.RelbusReleasesBothLines : Prop :=
  decodeWord 0x0014 = .ok .relbus ∧
  ∀ s : State, s.mpc = .rb0 → exec .relbus s = .next (done .ok { s with datDrv := .rel, ackDrv := .rel })

/-- 30_encoding.md R111 and 40_bus_primitives.md R145: a whole receive-only frame. With select held low and no
interrupt pending, RX takes a byte bit 0 first from a host that waits for it, and fails exactly on 0xFF. -/
def Obligations.RxReceivesWholeFrame : Prop :=
  ∀ (s : State) (e : Entry) (p : Pins) (v : Byte), s.store[s.pc.toNat]? = some e → decodeWord e.word = .ok .rx →
    s.mpc = .x0 → s.active = true → s.irqPending = false → p.selN = false →
    runTurns (.engine :: frameCycles (rxCycle p) v 0 8) s =
      .next (done (if v = 0xFF then .fail else .ok) { s with
        pins := { p with clk := true, cmd := v.getLsbD 7 }
        failReason := .none
        rx := v
        bit := 8
        start := s.now })

/-- 30_encoding.md R111 and 40_bus_primitives.md R147: a whole full-duplex frame. Each bit of the sent byte is on DAT
when CLK rises, the host's byte arrives bit 0 first, and a complete 0xFF is no failure. -/
def Obligations.XferTransfersWholeFrame : Prop :=
  ∀ (s : State) (e : Entry) (i : Instr) (p : Pins) (v h : Byte),
    (i = .xferi v ∨ (i = .xferr .b1 ∧ v = s.b1) ∨ (i = .xferr .b2 ∧ v = s.b2)) →
    s.store[s.pc.toNat]? = some e → decodeWord e.word = .ok i →
    s.mpc = .y0 → s.active = true → s.irqPending = false → p.selN = false →
    (∀ k, k < 8 → ∃ u,
      runTurns (.engine :: (frameCycles (xferCycle p) h 0 k ++ (xferCycle p (h.getLsbD k)).take 6)) s = .next u ∧
      u.pins.clk = true ∧ u.datDrv = if v.getLsbD k then .rel else .low) ∧
    runTurns (.engine :: (frameCycles (xferCycle p) h 0 8 ++ [.engine])) s =
      .next (done .ok { s with
        pins := { p with clk := true, cmd := h.getLsbD 7 }
        tx := v
        rx := h
        failReason := .none
        bit := 8
        start := s.now
        datDrv := .rel })

/-- 10_state.md R34: a line is high exactly when this device releases it and no other drives it low. -/
def Obligations.WireIsWiredAnd : Prop :=
  ∀ s : State,
    (s.datWire = true ↔ s.datDrv = .rel ∧ s.pins.datExt = true) ∧
    (s.ackWire = true ↔ s.ackDrv = .rel ∧ s.pins.ackExt = true)

/-! ## Transaction state machine -/

/-- 41_transaction_fsm.md R171: IDLEWAIT; each poll runs the calibrator's idle check, and a low select starts a
transaction only after it was seen high and is still low after the re-check. That an idle reset keeps `R.win_start` and
`R.last_seen` (`Claims.calResetTo`) is the model's reading, entry 13. -/
def Obligations.IdlewaitStartsAfterSelectHigh : Prop :=
  decodeWord 0x0001 = .ok .idlewait ∧
  (∀ (s : State) (c : Calibrator), s.mpc = .i0 → Claims.ticked s c → s.pins.selN = true →
    exec .idlewait s = .next { s with cal := c, selSeenHigh := true }) ∧
  (∀ (s : State) (c : Calibrator), s.mpc = .i0 → Claims.ticked s c → s.pins.selN = false → s.selSeenHigh = true →
    exec .idlewait s = .next { s with cal := c, start := s.now, mpc := .i1 }) ∧
  (∀ (s : State) (c : Calibrator), s.mpc = .i0 → Claims.ticked s c → s.pins.selN = false → s.selSeenHigh = false →
    exec .idlewait s = .next { s with cal := c }) ∧
  (∀ s : State, s.mpc = .i1 →
    exec .idlewait s =
      .next { s with mpc := if s.cfg.debounce.toNat ≤ (s.now - s.start).toNat then .i2 else .i1 }) ∧
  (∀ s : State, s.mpc = .i2 → s.pins.selN = false → exec .idlewait s = .next (done .ok s)) ∧
  (∀ s : State, s.mpc = .i2 → s.pins.selN = true →
    exec .idlewait s = .next { s with selSeenHigh := true, mpc := .i0 })

/-- 41_transaction_fsm.md R172: START. -/
def Obligations.StartCreatesTransaction : Prop :=
  decodeWord 0x0002 = .ok .start ∧
  ∀ s : State, s.mpc = .s0 →
    exec .start s = .next (done .ok { s with
      active := true
      selSeenHigh := false
      failReason := .none
      st := { s.st with total := BitVec.ofNat 32 (s.st.total.toNat + 1) } })

/-- 41_transaction_fsm.md R174: DISPATCH. -/
def Obligations.DispatchDecodesAddress : Prop :=
  decodeWord 0x0004 = .ok .dispatch ∧
  ∀ s : State, s.mpc = .p0 →
    (s.addr = 0x01 → exec .dispatch s =
      .next (done .ctl { s with st := { s.st with controller := BitVec.ofNat 32 (s.st.controller.toNat + 1) } })) ∧
    (s.addr = 0x81 → exec .dispatch s =
      .next (done .mc { s with st := { s.st with memcard := BitVec.ofNat 32 (s.st.memcard.toNat + 1) } })) ∧
    (s.addr ≠ 0x01 → s.addr ≠ 0x81 → s.addr ∈ s.cfg.ignoreSet → exec .dispatch s = .next (done .ign s)) ∧
    (s.addr ≠ 0x01 → s.addr ≠ 0x81 → s.addr ∉ s.cfg.ignoreSet → exec .dispatch s =
      .next (done .inv { s with st := { s.st with
        invalid := BitVec.ofNat 32 (s.st.invalid.toNat + 1), lastInvAddr := s.addr } }))

/-- 41_transaction_fsm.md R175: MCWAIT releases both lines, then waits for select or the cancellation flag, driving
nothing and without a bound. -/
def Obligations.McwaitPassesThrough : Prop :=
  decodeWord 0x000E = .ok .mcwait ∧
  (∀ s : State, s.mpc = .m0 → exec .mcwait s = .next { s with datDrv := .rel, ackDrv := .rel, mpc := .m1 }) ∧
  (∀ s : State, s.mpc = .m1 → Claims.abortSeen s → exec .mcwait s = .next (done .ok s)) ∧
  (∀ s : State, s.mpc = .m1 → ¬Claims.abortSeen s → exec .mcwait s = .next s)

/-- 41_transaction_fsm.md R182: CMDCHK. -/
def Obligations.CmdchkDecodesCommand : Prop :=
  decodeWord 0x000A = .ok .cmdchk ∧
  ∀ s : State, s.mpc = .k0 →
    (s.cmd = 0xFF → exec .cmdchk s = .next (done .sentinel s)) ∧
    (s.cmd = 0x42 → exec .cmdchk s = .next (done .poll s)) ∧
    (s.cmd ≠ 0xFF → s.cmd ≠ 0x42 → exec .cmdchk s =
      .next (done .other { s with st := { s.st with
        invalid := BitVec.ofNat 32 (s.st.invalid.toNat + 1), lastInvCmd := s.cmd } }))

/-- 41_transaction_fsm.md R187: END. -/
def Obligations.EndReleasesAndCloses : Prop :=
  decodeWord 0x000D = .ok .endTxn ∧
  ∀ s : State, s.mpc = .e0 →
    exec .endTxn s = .next (done .ok { s with datDrv := .rel, ackDrv := .rel, active := false })

/-- 41_transaction_fsm.md R188: ABORT counts a timeout only where the failure was a timeout. -/
def Obligations.AbortCountsOnlyTimeouts : Prop :=
  decodeWord 0x000F = .ok .abort ∧
  ∀ s : State, s.mpc = .b0 →
    (s.failReason = .timeout → exec .abort s = .next (done .ok { s with
      datDrv := .rel
      ackDrv := .rel
      active := false
      st := { s.st with timeout := BitVec.ofNat 32 (s.st.timeout.toNat + 1) } })) ∧
    (s.failReason ≠ .timeout → exec .abort s = .next (done .ok { s with
      datDrv := .rel
      ackDrv := .rel
      active := false }))

/-- The model's reading of the wire rows (entry 9; 30_encoding.md R113; 41_transaction_fsm.md R173, R176, R177, R186):
what each wire byte does at the micro-step that acts on it. -/
def Obligations.WireBytesAct : Prop :=
  (∀ s : State, s.mpc = .p0 → exec .addrController s =
    .next (done .ctl { s with st := { s.st with controller := s.st.controller + 1 } })) ∧
  (∀ s : State, s.mpc = .p0 → exec .addrMemcard s =
    .next (done .mc { s with st := { s.st with memcard := s.st.memcard + 1 } })) ∧
  (∀ s : State, s.mpc = .x3 → exec .addrSentinel s = .next (done .fail { s with rx := 0xFF, bit := 8 })) ∧
  (∀ (s : State) (b : Byte), s.mpc = .p0 → exec (.addrIgnored b) s = .next (done .ign s)) ∧
  (∀ (s : State) (b : Byte), s.mpc = .p0 → exec (.addrInvalid b) s =
    .next (done .inv { s with st := { s.st with invalid := s.st.invalid + 1, lastInvAddr := b } })) ∧
  (∀ s : State, s.mpc = .k0 → exec .cmdPoll s = .next (done .poll s)) ∧
  (∀ s : State, s.mpc = .k0 → exec .cmdSentinel s = .next (done .sentinel s)) ∧
  (∀ (s : State) (b : Byte), s.mpc = .k0 → exec (.cmdOther b) s =
    .next (done .other { s with st := { s.st with invalid := s.st.invalid + 1, lastInvCmd := b } })) ∧
  Claims.transfer .idLow (fun _ => 0x41) ∧ Claims.transfer .idHigh (fun _ => 0x5A)

/-- The model's reading of the wire rows (entry 9): what ENGINE runs on a received byte is the wire row that the byte
decodes to, at DISPATCH, at CMDCHK and at the last bit of RX, and the identification bytes are the transfers of
addresses 6 and 12. -/
def Obligations.OperationsActOnDecodedBytes : Prop :=
  (∀ s : State, s.addr ≠ 0xFF → exec .dispatch s = exec (decodeAddr s.cfg.ignoreSet s.addr) s) ∧
  (∀ s : State, exec .cmdchk s = exec (decodeCmd s.cmd) s) ∧
  (∀ s : State, s.mpc = .x3 → s.bit.val = 7 → Claims.bitWritten s.rx 0xFF 7 s.pins.cmd →
    exec .rx s = exec (decodeAddr s.cfg.ignoreSet 0xFF) s) ∧
  (∀ (b : Byte) (i : Instr), decodeTx b = .ok i → ∀ s : State, exec (.xferi b) s = exec i s) ∧
  (controlStore[6]?.map (fun e => decodeWord e.word)) = some (.ok (.xferi 0x41)) ∧
  (controlStore[12]?.map (fun e => decodeWord e.word)) = some (.ok (.xferi 0x5A))

/-- 70_reset_and_hazards.md R331 and 41_transaction_fsm.md R192, R193, with 60_exceptions.md R288: every step of the
machine keeps the bus invariant, from every state that has it. -/
def Obligations.StepKeepsBusInv : Prop :=
  ∀ s t : State, BusInv s → step s = .next t → BusInv t

/-- 70_reset_and_hazards.md R331, 41_transaction_fsm.md R192, R193 and 60_exceptions.md R288: what the bus invariant
says. At rest both lines are released and no transaction is active; with any address but 0x01 both lines are released;
a low line belongs to a controller reply; and in a pulse no interrupt is taken. -/
def Obligations.BusInvMeansReleased : Prop :=
  ∀ s : State, BusInv s →
    (s.pc = 0 ∨ s.pc = 1 → s.datDrv = .rel ∧ s.ackDrv = .rel ∧ s.active = false) ∧
    (s.addr ≠ 0x01 → s.datDrv = .rel ∧ s.ackDrv = .rel) ∧
    (s.datDrv = .low → s.pc = 6 ∨ s.pc = 12 ∨ s.pc = 14 ∨ s.pc = 16) ∧
    (s.ackDrv = .low → (s.pc = 4 ∨ s.pc = 11 ∨ s.pc = 13 ∨ s.pc = 15) ∧ isrEnabled s = false)

/-- 41_transaction_fsm.md R191 and 70_reset_and_hazards.md R337: the machine never halts. From every state with the
machine's invariants, and whatever agent the scheduler picks, the step is a next state. Of ENGINE's operations it covers
the forms of the fixed control store; `OwnMicroStepsComplete` covers every form. -/
def Obligations.NeverHalts : Prop :=
  ∀ s : State, BusInv s → RoleInv s → ChannelInv s → legalTurn (nextTurn s) → ∃ t, step s = .next t

/-- 60_exceptions.md R291, with 40_bus_primitives.md R152 and 41_transaction_fsm.md R175, R191: in a fair run every wait
and every delay ends; one that ENGINE still polls has lasted fewer ticks than its bound; and from every state ENGINE
comes back to pc 0, unless MCWAIT waits for HOST for ever. That ENGINE's micro-steps are fewer than 2^31 ticks apart is
a premise, without which `elapsed` is not exact (70_reset_and_hazards.md R334; entry 19). -/
def Obligations.FairRunsEndWaitsAndReturn : Prop :=
  ∀ (σ : Nat → State) (τ : Nat → Turn), isRun σ τ → FairRun σ τ → pollsInTime σ τ → CalInv (σ 0).cfg (σ 0).cal →
    (∀ (n : Nat) (d : U32), waitBound (σ n) = some d → ∃ k,
      (∀ j, j ≤ k → (σ (n + j)).mpc = (σ n).mpc) ∧ engineSteps σ τ (n + k) ∧ (σ (n + k + 1)).mpc ≠ (σ n).mpc) ∧
    (∀ (n k : Nat) (d : U32), waitBound (σ n) = some d → (σ n).start = (σ n).now →
      (∀ j, j ≤ k + 1 → (σ (n + j)).mpc = (σ n).mpc) → engineSteps σ τ (n + k) → ticksFrom τ n k < d.toNat) ∧
    (BusInv (σ 0) → ∀ n, ∃ m, n ≤ m ∧ ((σ m).pc = 0 ∨
      ∀ k, m ≤ k → (σ k).pc = 18 ∧ (σ k).mpc = .m1 ∧ (σ k).pins.selN = false ∧ (σ k).active = true))

/-! ## Calibrator -/

/-- 42_calibrator.md R214, R219: CALOBS. Disabled it changes nothing; after an idle period it acts as after
`cal_reset()` (the two registers that R221 gives no value are then both written, so entry 13 has no
part in it); locked it only takes the time; otherwise it counts the arrival in its window, and closes the window
when that is over. -/
def Obligations.CalobsCountsArrival : Prop :=
  decodeWord 0x0009 = .ok (.calobs .fail) ∧ decodeWord 0x0109 = .ok (.calobs .cmd) ∧
  ∀ (o : ObsSel) (s : State), s.mpc = .c0 →
    (s.cfg.calEnable = false → exec (.calobs o) s = .next (done .ok s)) ∧
    (s.cfg.calEnable = true → Claims.idlePast s →
      exec (.calobs o) s = exec (.calobs o) { s with cal := Claims.calResetTo s.cfg s.cal } ∧
      ∃ t, exec (.calobs o) s = .next t) ∧
    (s.cfg.calEnable = true → ¬Claims.idlePast s → s.cal.locked = true →
      exec (.calobs o) s = .next (done .ok { s with cal := { s.cal with lastSeen := s.now, hasSeen := true } })) ∧
    (∀ d : Calibrator, s.cfg.calEnable = true → ¬Claims.idlePast s → s.cal.locked = false →
      d = { s.cal with
        lastSeen := s.now
        hasSeen := true
        sweepStarted := true
        winStart := if s.cal.sweepStarted then s.cal.winStart else s.now
        winAtt := (if s.cal.sweepStarted then s.cal.winAtt else 0) + 1
        winSucc := (if s.cal.sweepStarted then s.cal.winSucc else 0) +
          (if o = .cmd ∧ s.cmd ≠ 0xFF then 1 else 0) } →
      exec (.calobs o) s = .next (done .ok { s with
        cal := if s.cfg.trialN.toNat ≤ d.winAtt.toNat ∨ s.cfg.trialTimeout.toNat ≤ (s.now - d.winStart).toNat
          then calClose s.cfg s.now d else d }))

/-- 42_calibrator.md R220, R221, R225: CALTICK resets the calibrator after an idle period, and otherwise changes
nothing. That the reset keeps `R.win_start` and `R.last_seen` (`Claims.calResetTo`) is the model's reading, entry 13. -/
def Obligations.CaltickResetsAfterIdle : Prop :=
  decodeWord 0x0015 = .ok .caltick ∧
  ∀ (s : State) (c : Calibrator), s.mpc = .ct0 → Claims.ticked s c →
    exec .caltick s = .next (done .ok { s with cal := c })

/-- 42_calibrator.md R215, R218: closing a window records a better candidate, moves the cursor, and at the last point
locks the best or starts the sweep again; the window is empty after it. -/
def Obligations.CloseWindowMovesCursor : Prop :=
  ∀ (p : Params) (now : U32) (c d : Calibrator),
    d = (if calCandidate p c.winSucc c.winAtt = true ∧ calBetter p c c.winSucc c.winAtt c.pulse c.post = true
      then { c with bestValid := true, bestSucc := c.winSucc, bestAtt := c.winAtt,
                    bestPulse := c.pulse, bestPost := c.post }
      else c) →
    (∀ n, calAdvance p c = some n →
      calClose p now c = { d with pulse := n.pulse, post := n.post, winAtt := 0, winSucc := 0, winStart := now }) ∧
    (calAdvance p c = none → d.bestValid = true →
      calClose p now c = { d with pulse := d.bestPulse, post := d.bestPost, locked := true,
                                  winAtt := 0, winSucc := 0, winStart := now }) ∧
    (calAdvance p c = none → d.bestValid = false →
      calClose p now c = { d with pulse := p.pwMax, post := p.pwaitMin, winAtt := 0, winSucc := 0, winStart := now })

/-- 42_calibrator.md R212, R213: `advance()` visits the grid in order: the next post-wait, then the next lower pulse
width with the first post-wait, and after the last point nothing. -/
def Obligations.AdvanceVisitsGridInOrder : Prop :=
  ∀ (p : Params) (c : Calibrator) (k j : Nat),
    k ≤ (p.pwMax.toNat - p.pwMin.toNat) / p.calStep.toNat →
    j ≤ (p.pwaitMax.toNat - p.pwaitMin.toNat) / p.calStep.toNat →
    c.pulse.toNat = p.pwMax.toNat - k * p.calStep.toNat →
    c.post.toNat = p.pwaitMin.toNat + j * p.calStep.toNat →
    (j < (p.pwaitMax.toNat - p.pwaitMin.toNat) / p.calStep.toNat →
      calAdvance p c = some { c with post := BitVec.ofNat 32 (p.pwaitMin.toNat + (j + 1) * p.calStep.toNat) }) ∧
    (j = (p.pwaitMax.toNat - p.pwaitMin.toNat) / p.calStep.toNat →
      k < (p.pwMax.toNat - p.pwMin.toNat) / p.calStep.toNat →
      calAdvance p c = some { c with
        pulse := BitVec.ofNat 32 (p.pwMax.toNat - (k + 1) * p.calStep.toNat), post := p.pwaitMin }) ∧
    (j = (p.pwaitMax.toNat - p.pwaitMin.toNat) / p.calStep.toNat →
      k = (p.pwMax.toNat - p.pwMin.toNat) / p.calStep.toNat → calAdvance p c = none)

/-- 42_calibrator.md R216, R217: the candidate test and the preference, on unbounded integers. -/
def Obligations.CandidateAndPreference : Prop :=
  (∀ (p : Params) (s a : U32), calCandidate p s a = true ↔
    0 < a.toNat ∧ s.toNat * p.minRateDen.toNat ≥ p.minRateNum.toNat * a.toNat) ∧
  (∀ (p : Params) (c : Calibrator) (s a pw po : U32), calBetter p c s a pw po = true ↔
    c.bestValid = false ∨
    s.toNat * c.bestAtt.toNat > c.bestSucc.toNat * a.toNat ∨
    (s.toNat * c.bestAtt.toNat = c.bestSucc.toNat * a.toNat ∧ po.toNat < c.bestPost.toNat) ∨
    (s.toNat * c.bestAtt.toNat = c.bestSucc.toNat * a.toNat ∧ po.toNat = c.bestPost.toNat ∧
      |2 * (pw.toNat : Int) - (p.pwMin.toNat + p.pwMax.toNat)| <
        |2 * (c.bestPulse.toNat : Int) - (p.pwMin.toNat + p.pwMax.toNat)|)) ∧
  (∀ (p : Params) (c : Calibrator) (s a pw po : U32), c.bestValid = true → calBetter p c s a pw po = true →
    calBetter p { c with bestSucc := s, bestAtt := a, bestPulse := pw, bestPost := po }
      c.bestSucc c.bestAtt c.bestPulse c.bestPost = false)

/-- 42_calibrator.md R212, R215, R218: every step keeps the calibrator invariant. The timing in force is always a grid
point, and a lock is always on a recorded candidate. -/
def Obligations.StepKeepsCalInv : Prop :=
  ∀ s t : State, CalInv s.cfg s.cal → step s = .next t → CalInv t.cfg t.cal

/-- 42_calibrator.md R219: while locked, and until an idle period elapses, every step of the machine leaves the lock,
the timing and the best record. -/
def Obligations.LockedTimingIsConstant : Prop :=
  ∀ s t : State, s.cal.locked = true → ¬(s.cfg.calEnable = true ∧ Claims.idlePast s) → step s = .next t →
    t.cal = { s.cal with lastSeen := t.cal.lastSeen, hasSeen := t.cal.hasSeen }

/-! ## Channel -/

/-- 43_channel.md R242: `socd`, bit by bit, and that it is idempotent. -/
def Obligations.SocdReleasesOppositePairs : Prop :=
  ∀ (p : Params) (b1 b2 : Byte),
    (socd p b1 b2).2 = b2 ∧
    (∀ i : Fin 8, (socd p b1 b2).1.getLsbD i.val =
      (b1.getLsbD i.val ||
        (decide (i = p.bitLeft ∨ i = p.bitRight) && !b1.getLsbD p.bitLeft.val && !b1.getLsbD p.bitRight.val) ||
        (decide (i = p.bitUp ∨ i = p.bitDown) && !b1.getLsbD p.bitUp.val && !b1.getLsbD p.bitDown.val))) ∧
    socd p (socd p b1 b2).1 (socd p b1 b2).2 = socd p b1 b2

/-- 43_channel.md R244: CHW, micro-step by micro-step. The memory changes only in the cell stored to: w3 and w4 store the
target slot's fields, w6 stores `write_idx`, and no other micro-step stores. That w1 writes `R.wcons` in Direct mode as
well, as the pseudocode has it and R247 denies, is the model's choice, entry 15. -/
def Obligations.ChwPublishesSnapshot : Prop :=
  decodeWord 0x0020 = .ok .chw ∧
  (∀ (s : State) (r w : Idx), s.wr.pos = .w1 → s.ch.byteAt 5 = r.setWidth 8 → s.ch.byteAt 4 = w.setWidth 8 →
    exec .chw s = .next { s with wr := { s.wr with pos := .w2, wt := 1 - r, wcons := decide (r = w) } }) ∧
  (∀ s : State, s.wr.pos = .w2 → s.cfg.latch = false →
    exec .chw s = .next { s with wr := { s.wr with pos := .w3, wv1 := s.snap1, wv2 := s.snap2 } }) ∧
  (∀ s : State, s.wr.pos = .w2 → s.cfg.latch = true → s.wr.wcons = true →
    exec .chw s = .next { s with wr := { s.wr with
      pos := .w3, wv1 := s.snap1, wv2 := s.snap2, acc1 := s.snap1, acc2 := s.snap2 } }) ∧
  (∀ s : State, s.wr.pos = .w2 → s.cfg.latch = true → s.wr.wcons = false →
    exec .chw s = .next { s with wr := { s.wr with
      pos := .w3, wv1 := s.wr.acc1 &&& s.snap1, wv2 := s.wr.acc2 &&& s.snap2,
      acc1 := s.wr.acc1 &&& s.snap1, acc2 := s.wr.acc2 &&& s.snap2 } }) ∧
  (∀ s : State, s.wr.pos = .w3 → s.ch.wf = true → ∃ m, exec .chw s =
    .next { s with ch := m, wr := { s.wr with pos := .w4 } } ∧
    ∀ a, m.byteAt a = if a = 2 * s.wr.wt.toNat then s.wr.wv1 else s.ch.byteAt a) ∧
  (∀ s : State, s.wr.pos = .w4 → s.ch.wf = true → ∃ m, exec .chw s =
    .next { s with ch := m, wr := { s.wr with pos := .w5 } } ∧
    ∀ a, m.byteAt a = if a = 2 * s.wr.wt.toNat + 1 then s.wr.wv2 else s.ch.byteAt a) ∧
  (∀ s : State, s.wr.pos = .w5 → exec .chw s = .next { s with wr := { s.wr with pos := .w6 } }) ∧
  (∀ s : State, s.wr.pos = .w6 → s.ch.wf = true → ∃ m, exec .chw s =
    .next { s with ch := m, wr := { s.wr with pos := .w1 } } ∧
    ∀ a, m.byteAt a = if a = 4 then s.wr.wt.setWidth 8 else s.ch.byteAt a)

/-- 43_channel.md R245: CHR, micro-step by micro-step. The memory changes only in `read_idx`'s cell, at r5. -/
def Obligations.ChrConsumesSnapshot : Prop :=
  decodeWord 0x000C = .ok .chr ∧
  (∀ (s : State) (w : Idx), s.mpc = .r1 → s.ch.byteAt 4 = w.setWidth 8 →
    exec .chr s = .next { s with ridx := w, mpc := .r2 }) ∧
  (∀ s : State, s.mpc = .r2 → exec .chr s = .next { s with mpc := .r3 }) ∧
  (∀ s : State, s.mpc = .r3 →
    exec .chr s = .next { s with b1 := s.ch.byteAt (2 * s.ridx.toNat), mpc := .r4 }) ∧
  (∀ s : State, s.mpc = .r4 →
    exec .chr s = .next { s with b2 := s.ch.byteAt (2 * s.ridx.toNat + 1), mpc := .r5 }) ∧
  (∀ s : State, s.mpc = .r5 → s.ch.wf = true → ∃ m, exec .chr s =
    .next (done .ok { s with
      ch := m, b1 := (socd s.cfg s.b1 s.b2).1, b2 := (socd s.cfg s.b1 s.b2).2 }) ∧
    ∀ a, m.byteAt a = if a = 5 then s.ridx.setWidth 8 else s.ch.byteAt a)

/-- 43_channel.md R251, R246, R247, R252, over runs: a whole CHW and then a whole CHR, with no WRITER step after that CHW
up to the end of the CHR and with any other steps inside and between them, return the published pair, cleaned. In
Direct mode that is the sample; in Latching mode it is the sample where the last publication was consumed, and else the
sample and the accumulator. -/
def Obligations.ReadAfterWriteIsCleanedSample : Prop :=
  ∀ (σ : Nat → State) (τ : Nat → Turn) (c b a n m : Nat) (s1 s2 : Byte), isRun σ τ → ChannelInv (σ 0) →
    WholeChw σ τ c b a s1 s2 → WholeChr σ τ n m → a < n → noWriterTurn τ a m →
    ((σ (m + 1)).b1, (σ (m + 1)).b2) = socd (σ m).cfg (σ a).wr.wv1 (σ a).wr.wv2 ∧
    (σ (m + 1)).ch.byteAt 5 = (σ (m + 1)).ch.byteAt 4 ∧
    ((σ c).cfg.latch = false ∨ (σ c).ch.byteAt 5 = (σ c).ch.byteAt 4 → (σ a).wr.wv1 = s1 ∧ (σ a).wr.wv2 = s2) ∧
    ((σ c).cfg.latch = true → (σ c).ch.byteAt 5 ≠ (σ c).ch.byteAt 4 →
      (σ a).wr.wv1 = (σ c).wr.acc1 &&& s1 ∧ (σ a).wr.wv2 = (σ c).wr.acc2 &&& s2)

/-- 20_memory.md R87 and 43_channel.md R245, over runs: two whole CHRs with no WRITER step from the first one's r1 to the
second one's r5, and with any other steps inside and between them, return the same snapshot. -/
def Obligations.RereadReturnsSameSnapshot : Prop :=
  ∀ (σ : Nat → State) (τ : Nat → Turn) (n m n' m' : Nat), isRun σ τ → ChannelInv (σ 0) →
    WholeChr σ τ n m → WholeChr σ τ n' m' → m < n' → noWriterTurn τ n m' →
    (σ (m' + 1)).b1 = (σ (m + 1)).b1 ∧ (σ (m' + 1)).b2 = (σ (m + 1)).b2

/-- 20_memory.md R82 and 43_channel.md R248: every step keeps the channel memory canonical and its index cells at 0
or 1. -/
def Obligations.StepKeepsChannelInv : Prop :=
  ∀ s t : State, ChannelInv s → step s = .next t → ChannelInv t

/-- 43_channel.md R250: outside an overlap of an accumulating CHW with a CHR, every step keeps the no-tear
invariant. `NoTearInv` and `channelOverlap` take `R.wcons` as the accumulating test in Direct mode as well: that CHW's w1
writes it there, as R244's pseudocode has it and R247 denies, is the model's choice, entry 15 (DEDUCED, unsafe for a
claim about `R.wcons` in Direct mode). -/
def Obligations.StepKeepsNoTearInv : Prop :=
  ∀ s t : State, NoTearInv s → channelOverlap s = false → step s = .next t → NoTearInv t

/-- 43_channel.md R250, R248, R249. Every step, with Q or without, keeps what the slot that `write_idx` names holds: the
pair last published, but for what an accumulating CHW has rewritten. In a run under precondition Q, the two fields a CHR
has loaded by its r5 are the two that one CHW wrote, the last to complete before the CHR's r1, or the pair the run began
with (at reset the reset pair, `InvariantsHoldAtReset`) where no CHW completed before it; and they are the two that its
slot held together at its r2. `PublishedInv` and `preconditionQ` take `R.wcons` as the accumulating test in Direct mode
as well: that CHW's w1 writes it there, as R244's pseudocode has it and R247 denies, is the model's choice, entry 15
(DEDUCED, unsafe for a claim about `R.wcons` in Direct mode). -/
def Obligations.NoTornReadUnderQ : Prop :=
  (∀ (s t : State) (p : Byte × Byte), PublishedInv p s → step s = .next t →
    PublishedInv (publishedAfter (nextTurn s) s p) t) ∧
  (∀ (σ : Nat → State) (τ : Nat → Turn) (p : Byte × Byte) (n m : Nat), isRun σ τ → preconditionQ σ →
    NoTearInv (σ 0) → PublishedInv p (σ 0) → WholeChr σ τ n m →
    (∃ k, k < n ∧ publishes (τ k) (σ k) = true ∧ (∀ j, k < j → j < n → publishes (τ j) (σ j) = false) ∧
      (σ m).b1 = (σ k).wr.wv1 ∧ (σ m).b2 = (σ k).wr.wv2) ∨
    ((∀ j, j < n → publishes (τ j) (σ j) = false) ∧ ((σ m).b1, (σ m).b2) = p)) ∧
  (∀ (σ : Nat → State) (τ : Nat → Turn) (n m : Nat), isRun σ τ → preconditionQ σ → NoTearInv (σ 0) →
    n ≤ m → (σ n).mpc = .r2 → (σ m).mpc = .r5 → (∀ k, n ≤ k → k ≤ m → reading (σ k) = true) →
    (σ m).ridx = (σ n).ridx ∧
    (σ m).b1 = (σ n).ch.byteAt (2 * (σ n).ridx.toNat) ∧
    (σ m).b2 = (σ n).ch.byteAt (2 * (σ n).ridx.toNat + 1))

/-! ## Statistics and telemetry -/

/-- 44_telemetry.md R261: STPOLL. The first poll records no interval; a later one widens the extremes and, until the
count is full, adds to the sum and the count and takes the truncated mean. -/
def Obligations.StpollRecordsInterval : Prop :=
  decodeWord 0x000B = .ok .stpoll ∧
  ∀ (s : State) (iv mn mx : U32) (sum : U64), s.mpc = .sp0 → iv = s.now - s.st.pollLast →
    mn = (if iv.toNat < s.st.pollMin.toNat then iv else s.st.pollMin) →
    mx = (if iv.toNat > s.st.pollMax.toNat then iv else s.st.pollMax) →
    sum = s.st.pollSum + iv.setWidth 64 →
    (s.st.pollHasPrev = false → exec .stpoll s = .next (done .ok { s with st := { s.st with
      pollLast := s.now, pollHasPrev := true } })) ∧
    (s.st.pollHasPrev = true → s.st.pollCnt = 0xFFFFFFFF → exec .stpoll s = .next (done .ok { s with st := { s.st with
      pollMin := mn, pollMax := mx, pollLast := s.now } })) ∧
    (s.st.pollHasPrev = true → s.st.pollCnt ≠ 0xFFFFFFFF → exec .stpoll s = .next (done .ok { s with st := { s.st with
      pollMin := mn
      pollMax := mx
      pollSum := sum
      pollCnt := s.st.pollCnt + 1
      pollAvg := BitVec.ofNat 32 (sum.toNat / (s.st.pollCnt.toNat + 1))
      pollLast := s.now } }))

/-- 44_telemetry.md R261: every step keeps the poll-interval invariant. The average is the truncated mean of the
recorded intervals and never exceeds the maximum. -/
def Obligations.StepKeepsPollInv : Prop :=
  ∀ s t : State, PollInv s.st → step s = .next t → PollInv t.st

/-- 44_telemetry.md R265: while the total does not wrap, every step keeps the counter relations. -/
def Obligations.StepKeepsCounterInv : Prop :=
  ∀ s t : State, BusInv s → CounterInv s → s.st.total ≠ 0xFFFFFFFF → step s = .next t → CounterInv t

/-- 44_telemetry.md R264: two states that differ only in the statistics (and in what the telemetry port shows) step to
states that differ only so. -/
def Obligations.StatisticsInfluenceNothing : Prop :=
  ∀ s t s' : State, sameButStats s t → step s = .next s' → ∃ t', step t = .next t' ∧ sameButStats s' t'

/-- 44_telemetry.md R268: TREAD delivers the register of its index at the telemetry port, and changes no state of the
hardware. An index above 0x0D is refused. -/
def Obligations.TreadDeliversRegister : Prop :=
  ([0x0031, 0x0131, 0x0231, 0x0331, 0x0431, 0x0531, 0x0631, 0x0731, 0x0831, 0x0931, 0x0A31, 0x0B31, 0x0C31,
      0x0D31].map decodeWord =
    [.stTotal, .controller, .memcard, .invalid, .timeout, .lastInvAddr, .lastInvCmd, .pollMin, .pollMax, .pollAvg,
      .calPulse, .calPost, .calLocked, .calStarted].map fun x => .ok (.tread x)) ∧
  (∀ (v : Byte) (s : State), 0x0D < v.toNat →
    issue .telemetry (v ++ (0x31 : Byte)) s = .refused (.reservedWord (.operand 0x31 v))) ∧
  ∀ s : State,
    exec (.tread .stTotal) s = .next { s with telPort := some s.st.total } ∧
    exec (.tread .controller) s = .next { s with telPort := some s.st.controller } ∧
    exec (.tread .memcard) s = .next { s with telPort := some s.st.memcard } ∧
    exec (.tread .invalid) s = .next { s with telPort := some s.st.invalid } ∧
    exec (.tread .timeout) s = .next { s with telPort := some s.st.timeout } ∧
    exec (.tread .lastInvAddr) s = .next { s with telPort := some (BitVec.ofNat 32 s.st.lastInvAddr.toNat) } ∧
    exec (.tread .lastInvCmd) s = .next { s with telPort := some (BitVec.ofNat 32 s.st.lastInvCmd.toNat) } ∧
    exec (.tread .pollMin) s = .next { s with telPort := some s.st.pollMin } ∧
    exec (.tread .pollMax) s = .next { s with telPort := some s.st.pollMax } ∧
    exec (.tread .pollAvg) s = .next { s with telPort := some s.st.pollAvg } ∧
    exec (.tread .calPulse) s = .next { s with telPort := some s.cal.pulse } ∧
    exec (.tread .calPost) s = .next { s with telPort := some s.cal.post } ∧
    exec (.tread .calLocked) s = .next { s with telPort := some (if s.cal.locked then 1 else 0) } ∧
    exec (.tread .calStarted) s = .next { s with telPort := some (if s.cal.sweepStarted then 1 else 0) }

/-! ## Interrupt, agents, reset -/

/-- 60_exceptions.md R287, R289: ISR clears the pending latch, releases both lines and clears `R.active`; ENGINE's
position and registers stay as they are. -/
def Obligations.IsrReleasesAndCancels : Prop :=
  decodeWord 0x0030 = .ok .isr ∧
  ∀ s : State, exec .isr s =
    .next { s with irqPending := false, datDrv := .rel, ackDrv := .rel, active := false }

/-- 10_state.md R53: the agents other than ENGINE write only what is theirs. WRITER writes the cells 0..4, its registers
and the snapshot port; ISR the drivers, which it releases, `R.active` and the pending latch; TELEMETRY its port. -/
def Obligations.OtherAgentsWriteOnlyTheirOwn : Prop :=
  (∀ s t : State, s.ch.wf = true → exec .chw s = .next t →
    t = { s with ch := t.ch, wr := t.wr } ∧ t.ch.byteAt 5 = s.ch.byteAt 5) ∧
  (∀ s t : State, exec .isr s = .next t →
    t = { s with irqPending := t.irqPending, active := t.active, datDrv := .rel, ackDrv := .rel }) ∧
  (∀ (x : TelReg) (s t : State), exec (.tread x) s = .next t → t = { s with telPort := t.telPort })

/-- 10_state.md R53, 20_memory.md R93, 10_state.md R37: an ENGINE micro-step writes neither the ports, nor the time, nor
the parameters, nor the control store, nor WRITER's registers, nor any channel cell but `read_idx`. -/
def Obligations.EngineWritesOnlyItsOwn : Prop :=
  ∀ (i : Instr) (s t : State), i.agent = .engine → s.ch.wf = true → exec i s = .next t →
    t.cfg = s.cfg ∧ t.pins = s.pins ∧ t.snap1 = s.snap1 ∧ t.snap2 = s.snap2 ∧ t.telPort = s.telPort ∧
    t.now = s.now ∧ t.store = s.store ∧ t.wr = s.wr ∧ t.writerOp = s.writerOp ∧ t.isrOp = s.isrOp ∧
    t.agenda = s.agenda ∧ t.turns = s.turns ∧ ∀ a, a ≠ 5 → t.ch.byteAt a = s.ch.byteAt a

/-- 60_exceptions.md R284, R285, R286: the flags change only where the spec says. The mask and the pending latch are
ACK's, and the cancellation token is set by START and cleared by END and ABORT. -/
def Obligations.FlagsChangeOnlyWhereStated : Prop :=
  ∀ (i : Instr) (s t : State), i.agent = .engine → exec i s = .next t →
    (i ≠ .ack → t.irqEnabled = s.irqEnabled ∧ t.irqPending = s.irqPending ∧
      (t.ackDrv = s.ackDrv ∨ t.ackDrv = .rel)) ∧
    (i ≠ .start → i ≠ .endTxn → i ≠ .abort → t.active = s.active) ∧
    (i ≠ .start → i ≠ .idlewait → t.selSeenHigh = s.selSeenHigh)

/-- 20_memory.md R93 and 10_state.md R37: no step changes the parameters, the control store or the agents' operation
words (the model's own fields, entry 12). -/
def Obligations.StepKeepsConfiguration : Prop :=
  ∀ s t : State, step s = .next t →
    t.cfg = s.cfg ∧ t.store = s.store ∧ t.writerOp = s.writerOp ∧ t.isrOp = s.isrOp

/-- 70_reset_and_hazards.md R320: the reset values that the spec gives. -/
def Obligations.ResetValues : Prop :=
  State.reset.store = controlStore ∧ State.reset.pc = 0 ∧ State.reset.mpc = .i0 ∧
  State.reset.failReason = .none ∧ State.reset.active = false ∧ State.reset.irqEnabled = true ∧
  State.reset.irqPending = false ∧ State.reset.selSeenHigh = false ∧
  State.reset.datDrv = .rel ∧ State.reset.ackDrv = .rel ∧
  (∀ a, a < 4 → State.reset.ch.byteAt a = 0xFF) ∧
  State.reset.ch.byteAt 4 = 0x00 ∧ State.reset.ch.byteAt 5 = 0x00 ∧
  State.reset.wr.acc1 = 0xFF ∧ State.reset.wr.acc2 = 0xFF ∧ State.reset.wr.pos = .w1 ∧
  State.reset.cal.pulse = State.reset.cfg.pwMax ∧ State.reset.cal.post = State.reset.cfg.pwaitMin ∧
  State.reset.cal.winAtt = 0 ∧ State.reset.cal.winSucc = 0 ∧ State.reset.cal.bestValid = false ∧
  State.reset.cal.bestPulse = State.reset.cfg.pwMax ∧ State.reset.cal.bestPost = State.reset.cfg.pwaitMax ∧
  State.reset.cal.bestSucc = 0 ∧ State.reset.cal.bestAtt = 0 ∧ State.reset.cal.locked = false ∧
  State.reset.cal.sweepStarted = false ∧ State.reset.cal.hasSeen = false ∧
  (State.reset.st.total = 0 ∧ State.reset.st.controller = 0 ∧ State.reset.st.memcard = 0 ∧
    State.reset.st.invalid = 0 ∧ State.reset.st.timeout = 0 ∧ State.reset.st.lastInvAddr = 0x00 ∧
    State.reset.st.lastInvCmd = 0x00 ∧ State.reset.st.pollMin = 0xFFFFFFFF ∧ State.reset.st.pollMax = 0 ∧
    State.reset.st.pollSum = 0 ∧ State.reset.st.pollCnt = 0 ∧ State.reset.st.pollAvg = 0 ∧
    State.reset.st.pollHasPrev = false) ∧
  State.reset.now = State.reset.cfg.now0

/-- 70_reset_and_hazards.md R323: power-on with a parameter set that breaks a constraint of 00_scope.md R13 is refused,
and every other set starts the machine in its reset state. -/
def Obligations.BootChecksParameters : Prop :=
  (∀ (p : RawParams) (pins : Pins), ¬Claims.parametersAllowed p → State.boot p pins = .refused .badParameters) ∧
  (∀ (p : RawParams) (pins : Pins), Claims.parametersAllowed p →
    ∃ q : Params, q.toRawParams = p ∧ State.boot p pins = .next (State.atReset q pins))

/-- The invariants hold at reset (70_reset_and_hazards.md R320, R331; 42_calibrator.md R221; 44_telemetry.md R261), and
the pair last published is then the reset pair. That WRITER's and ISR's operation words hold CHW and ISR (`RoleInv`) is
the model's choice, entry 12. -/
def Obligations.InvariantsHoldAtReset : Prop :=
  BusInv State.reset ∧ RoleInv State.reset ∧ ChannelInv State.reset ∧ NoTearInv State.reset ∧
  PublishedInv (0xFF, 0xFF) State.reset ∧
  CalInv State.reset.cfg State.reset.cal ∧ PollInv State.reset.st ∧ CounterInv State.reset
end

