-- ==== Sys2Proof/Laws/State.lean ====
section
/-! SUPPORT. What each named update of the state does to each field, true by definition. -/

namespace Sys2Proof.Machine

/-! ## Moving to another micro-step. -/

@[simp] theorem stepTo_cfg (m : Mpc) (s : State) : (stepTo m s).cfg = s.cfg := rfl
@[simp] theorem stepTo_pins (m : Mpc) (s : State) : (stepTo m s).pins = s.pins := rfl
@[simp] theorem stepTo_snap1 (m : Mpc) (s : State) : (stepTo m s).snap1 = s.snap1 := rfl
@[simp] theorem stepTo_snap2 (m : Mpc) (s : State) : (stepTo m s).snap2 = s.snap2 := rfl
@[simp] theorem stepTo_telPort (m : Mpc) (s : State) : (stepTo m s).telPort = s.telPort := rfl
@[simp] theorem stepTo_now (m : Mpc) (s : State) : (stepTo m s).now = s.now := rfl
@[simp] theorem stepTo_store (m : Mpc) (s : State) : (stepTo m s).store = s.store := rfl
@[simp] theorem stepTo_pc (m : Mpc) (s : State) : (stepTo m s).pc = s.pc := rfl
@[simp] theorem stepTo_mpc (m : Mpc) (s : State) : (stepTo m s).mpc = m := rfl
@[simp] theorem stepTo_addr (m : Mpc) (s : State) : (stepTo m s).addr = s.addr := rfl
@[simp] theorem stepTo_cmd (m : Mpc) (s : State) : (stepTo m s).cmd = s.cmd := rfl
@[simp] theorem stepTo_rx (m : Mpc) (s : State) : (stepTo m s).rx = s.rx := rfl
@[simp] theorem stepTo_tx (m : Mpc) (s : State) : (stepTo m s).tx = s.tx := rfl
@[simp] theorem stepTo_bit (m : Mpc) (s : State) : (stepTo m s).bit = s.bit := rfl
@[simp] theorem stepTo_start (m : Mpc) (s : State) : (stepTo m s).start = s.start := rfl
@[simp] theorem stepTo_b1 (m : Mpc) (s : State) : (stepTo m s).b1 = s.b1 := rfl
@[simp] theorem stepTo_b2 (m : Mpc) (s : State) : (stepTo m s).b2 = s.b2 := rfl
@[simp] theorem stepTo_ridx (m : Mpc) (s : State) : (stepTo m s).ridx = s.ridx := rfl
@[simp] theorem stepTo_failReason (m : Mpc) (s : State) : (stepTo m s).failReason = s.failReason := rfl
@[simp] theorem stepTo_active (m : Mpc) (s : State) : (stepTo m s).active = s.active := rfl
@[simp] theorem stepTo_irqEnabled (m : Mpc) (s : State) : (stepTo m s).irqEnabled = s.irqEnabled := rfl
@[simp] theorem stepTo_irqPending (m : Mpc) (s : State) : (stepTo m s).irqPending = s.irqPending := rfl
@[simp] theorem stepTo_selSeenHigh (m : Mpc) (s : State) : (stepTo m s).selSeenHigh = s.selSeenHigh := rfl
@[simp] theorem stepTo_datDrv (m : Mpc) (s : State) : (stepTo m s).datDrv = s.datDrv := rfl
@[simp] theorem stepTo_ackDrv (m : Mpc) (s : State) : (stepTo m s).ackDrv = s.ackDrv := rfl
@[simp] theorem stepTo_ch (m : Mpc) (s : State) : (stepTo m s).ch = s.ch := rfl
@[simp] theorem stepTo_wr (m : Mpc) (s : State) : (stepTo m s).wr = s.wr := rfl
@[simp] theorem stepTo_cal (m : Mpc) (s : State) : (stepTo m s).cal = s.cal := rfl
@[simp] theorem stepTo_st (m : Mpc) (s : State) : (stepTo m s).st = s.st := rfl
@[simp] theorem stepTo_writerOp (m : Mpc) (s : State) : (stepTo m s).writerOp = s.writerOp := rfl
@[simp] theorem stepTo_isrOp (m : Mpc) (s : State) : (stepTo m s).isrOp = s.isrOp := rfl
@[simp] theorem stepTo_agenda (m : Mpc) (s : State) : (stepTo m s).agenda = s.agenda := rfl
@[simp] theorem stepTo_turns (m : Mpc) (s : State) : (stepTo m s).turns = s.turns := rfl

/-! ## Going to another control-store address. -/

@[simp] theorem goto_cfg (p : Pc) (s : State) : (goto p s).cfg = s.cfg := rfl
@[simp] theorem goto_pins (p : Pc) (s : State) : (goto p s).pins = s.pins := rfl
@[simp] theorem goto_snap1 (p : Pc) (s : State) : (goto p s).snap1 = s.snap1 := rfl
@[simp] theorem goto_snap2 (p : Pc) (s : State) : (goto p s).snap2 = s.snap2 := rfl
@[simp] theorem goto_telPort (p : Pc) (s : State) : (goto p s).telPort = s.telPort := rfl
@[simp] theorem goto_now (p : Pc) (s : State) : (goto p s).now = s.now := rfl
@[simp] theorem goto_store (p : Pc) (s : State) : (goto p s).store = s.store := rfl
@[simp] theorem goto_pc (p : Pc) (s : State) : (goto p s).pc = p := rfl
@[simp] theorem goto_mpc (p : Pc) (s : State) : (goto p s).mpc = entryMpc s.store p := rfl
@[simp] theorem goto_addr (p : Pc) (s : State) : (goto p s).addr = s.addr := rfl
@[simp] theorem goto_cmd (p : Pc) (s : State) : (goto p s).cmd = s.cmd := rfl
@[simp] theorem goto_rx (p : Pc) (s : State) : (goto p s).rx = s.rx := rfl
@[simp] theorem goto_tx (p : Pc) (s : State) : (goto p s).tx = s.tx := rfl
@[simp] theorem goto_bit (p : Pc) (s : State) : (goto p s).bit = s.bit := rfl
@[simp] theorem goto_start (p : Pc) (s : State) : (goto p s).start = s.start := rfl
@[simp] theorem goto_b1 (p : Pc) (s : State) : (goto p s).b1 = s.b1 := rfl
@[simp] theorem goto_b2 (p : Pc) (s : State) : (goto p s).b2 = s.b2 := rfl
@[simp] theorem goto_ridx (p : Pc) (s : State) : (goto p s).ridx = s.ridx := rfl
@[simp] theorem goto_failReason (p : Pc) (s : State) : (goto p s).failReason = s.failReason := rfl
@[simp] theorem goto_active (p : Pc) (s : State) : (goto p s).active = s.active := rfl
@[simp] theorem goto_irqEnabled (p : Pc) (s : State) : (goto p s).irqEnabled = s.irqEnabled := rfl
@[simp] theorem goto_irqPending (p : Pc) (s : State) : (goto p s).irqPending = s.irqPending := rfl
@[simp] theorem goto_selSeenHigh (p : Pc) (s : State) : (goto p s).selSeenHigh = s.selSeenHigh := rfl
@[simp] theorem goto_datDrv (p : Pc) (s : State) : (goto p s).datDrv = s.datDrv := rfl
@[simp] theorem goto_ackDrv (p : Pc) (s : State) : (goto p s).ackDrv = s.ackDrv := rfl
@[simp] theorem goto_ch (p : Pc) (s : State) : (goto p s).ch = s.ch := rfl
@[simp] theorem goto_wr (p : Pc) (s : State) : (goto p s).wr = s.wr := rfl
@[simp] theorem goto_cal (p : Pc) (s : State) : (goto p s).cal = s.cal := rfl
@[simp] theorem goto_st (p : Pc) (s : State) : (goto p s).st = s.st := rfl
@[simp] theorem goto_writerOp (p : Pc) (s : State) : (goto p s).writerOp = s.writerOp := rfl
@[simp] theorem goto_isrOp (p : Pc) (s : State) : (goto p s).isrOp = s.isrOp := rfl
@[simp] theorem goto_agenda (p : Pc) (s : State) : (goto p s).agenda = s.agenda := rfl
@[simp] theorem goto_turns (p : Pc) (s : State) : (goto p s).turns = s.turns := rfl

/-! ## Raising a failure. -/

@[simp] theorem raise_cfg (r : FailReason) (s : State) : (raise r s).cfg = s.cfg := rfl
@[simp] theorem raise_pins (r : FailReason) (s : State) : (raise r s).pins = s.pins := rfl
@[simp] theorem raise_snap1 (r : FailReason) (s : State) : (raise r s).snap1 = s.snap1 := rfl
@[simp] theorem raise_snap2 (r : FailReason) (s : State) : (raise r s).snap2 = s.snap2 := rfl
@[simp] theorem raise_telPort (r : FailReason) (s : State) : (raise r s).telPort = s.telPort := rfl
@[simp] theorem raise_now (r : FailReason) (s : State) : (raise r s).now = s.now := rfl
@[simp] theorem raise_store (r : FailReason) (s : State) : (raise r s).store = s.store := rfl
@[simp] theorem raise_pc (r : FailReason) (s : State) : (raise r s).pc = s.pc := rfl
@[simp] theorem raise_mpc (r : FailReason) (s : State) : (raise r s).mpc = s.mpc := rfl
@[simp] theorem raise_addr (r : FailReason) (s : State) : (raise r s).addr = s.addr := rfl
@[simp] theorem raise_cmd (r : FailReason) (s : State) : (raise r s).cmd = s.cmd := rfl
@[simp] theorem raise_rx (r : FailReason) (s : State) : (raise r s).rx = s.rx := rfl
@[simp] theorem raise_tx (r : FailReason) (s : State) : (raise r s).tx = s.tx := rfl
@[simp] theorem raise_bit (r : FailReason) (s : State) : (raise r s).bit = s.bit := rfl
@[simp] theorem raise_start (r : FailReason) (s : State) : (raise r s).start = s.start := rfl
@[simp] theorem raise_b1 (r : FailReason) (s : State) : (raise r s).b1 = s.b1 := rfl
@[simp] theorem raise_b2 (r : FailReason) (s : State) : (raise r s).b2 = s.b2 := rfl
@[simp] theorem raise_ridx (r : FailReason) (s : State) : (raise r s).ridx = s.ridx := rfl
@[simp] theorem raise_failReason (r : FailReason) (s : State) : (raise r s).failReason = r := rfl
@[simp] theorem raise_active (r : FailReason) (s : State) : (raise r s).active = s.active := rfl
@[simp] theorem raise_irqEnabled (r : FailReason) (s : State) : (raise r s).irqEnabled = s.irqEnabled := rfl
@[simp] theorem raise_irqPending (r : FailReason) (s : State) : (raise r s).irqPending = s.irqPending := rfl
@[simp] theorem raise_selSeenHigh (r : FailReason) (s : State) : (raise r s).selSeenHigh = s.selSeenHigh := rfl
@[simp] theorem raise_datDrv (r : FailReason) (s : State) : (raise r s).datDrv = s.datDrv := rfl
@[simp] theorem raise_ackDrv (r : FailReason) (s : State) : (raise r s).ackDrv = s.ackDrv := rfl
@[simp] theorem raise_ch (r : FailReason) (s : State) : (raise r s).ch = s.ch := rfl
@[simp] theorem raise_wr (r : FailReason) (s : State) : (raise r s).wr = s.wr := rfl
@[simp] theorem raise_cal (r : FailReason) (s : State) : (raise r s).cal = s.cal := rfl
@[simp] theorem raise_st (r : FailReason) (s : State) : (raise r s).st = s.st := rfl
@[simp] theorem raise_writerOp (r : FailReason) (s : State) : (raise r s).writerOp = s.writerOp := rfl
@[simp] theorem raise_isrOp (r : FailReason) (s : State) : (raise r s).isrOp = s.isrOp := rfl
@[simp] theorem raise_agenda (r : FailReason) (s : State) : (raise r s).agenda = s.agenda := rfl
@[simp] theorem raise_turns (r : FailReason) (s : State) : (raise r s).turns = s.turns := rfl

/-! ## Releasing both lines. -/

@[simp] theorem releaseBus_cfg (s : State) : (releaseBus s).cfg = s.cfg := rfl
@[simp] theorem releaseBus_pins (s : State) : (releaseBus s).pins = s.pins := rfl
@[simp] theorem releaseBus_snap1 (s : State) : (releaseBus s).snap1 = s.snap1 := rfl
@[simp] theorem releaseBus_snap2 (s : State) : (releaseBus s).snap2 = s.snap2 := rfl
@[simp] theorem releaseBus_telPort (s : State) : (releaseBus s).telPort = s.telPort := rfl
@[simp] theorem releaseBus_now (s : State) : (releaseBus s).now = s.now := rfl
@[simp] theorem releaseBus_store (s : State) : (releaseBus s).store = s.store := rfl
@[simp] theorem releaseBus_pc (s : State) : (releaseBus s).pc = s.pc := rfl
@[simp] theorem releaseBus_mpc (s : State) : (releaseBus s).mpc = s.mpc := rfl
@[simp] theorem releaseBus_addr (s : State) : (releaseBus s).addr = s.addr := rfl
@[simp] theorem releaseBus_cmd (s : State) : (releaseBus s).cmd = s.cmd := rfl
@[simp] theorem releaseBus_rx (s : State) : (releaseBus s).rx = s.rx := rfl
@[simp] theorem releaseBus_tx (s : State) : (releaseBus s).tx = s.tx := rfl
@[simp] theorem releaseBus_bit (s : State) : (releaseBus s).bit = s.bit := rfl
@[simp] theorem releaseBus_start (s : State) : (releaseBus s).start = s.start := rfl
@[simp] theorem releaseBus_b1 (s : State) : (releaseBus s).b1 = s.b1 := rfl
@[simp] theorem releaseBus_b2 (s : State) : (releaseBus s).b2 = s.b2 := rfl
@[simp] theorem releaseBus_ridx (s : State) : (releaseBus s).ridx = s.ridx := rfl
@[simp] theorem releaseBus_failReason (s : State) : (releaseBus s).failReason = s.failReason := rfl
@[simp] theorem releaseBus_active (s : State) : (releaseBus s).active = s.active := rfl
@[simp] theorem releaseBus_irqEnabled (s : State) : (releaseBus s).irqEnabled = s.irqEnabled := rfl
@[simp] theorem releaseBus_irqPending (s : State) : (releaseBus s).irqPending = s.irqPending := rfl
@[simp] theorem releaseBus_selSeenHigh (s : State) : (releaseBus s).selSeenHigh = s.selSeenHigh := rfl
@[simp] theorem releaseBus_datDrv (s : State) : (releaseBus s).datDrv = .rel := rfl
@[simp] theorem releaseBus_ackDrv (s : State) : (releaseBus s).ackDrv = .rel := rfl
@[simp] theorem releaseBus_ch (s : State) : (releaseBus s).ch = s.ch := rfl
@[simp] theorem releaseBus_wr (s : State) : (releaseBus s).wr = s.wr := rfl
@[simp] theorem releaseBus_cal (s : State) : (releaseBus s).cal = s.cal := rfl
@[simp] theorem releaseBus_st (s : State) : (releaseBus s).st = s.st := rfl
@[simp] theorem releaseBus_writerOp (s : State) : (releaseBus s).writerOp = s.writerOp := rfl
@[simp] theorem releaseBus_isrOp (s : State) : (releaseBus s).isrOp = s.isrOp := rfl
@[simp] theorem releaseBus_agenda (s : State) : (releaseBus s).agenda = s.agenda := rfl
@[simp] theorem releaseBus_turns (s : State) : (releaseBus s).turns = s.turns := rfl

/-! ## Taking the interrupt. -/

@[simp] theorem takeInterrupt_cfg (s : State) : (takeInterrupt s).cfg = s.cfg := rfl
@[simp] theorem takeInterrupt_pins (s : State) : (takeInterrupt s).pins = s.pins := rfl
@[simp] theorem takeInterrupt_snap1 (s : State) : (takeInterrupt s).snap1 = s.snap1 := rfl
@[simp] theorem takeInterrupt_snap2 (s : State) : (takeInterrupt s).snap2 = s.snap2 := rfl
@[simp] theorem takeInterrupt_telPort (s : State) : (takeInterrupt s).telPort = s.telPort := rfl
@[simp] theorem takeInterrupt_now (s : State) : (takeInterrupt s).now = s.now := rfl
@[simp] theorem takeInterrupt_store (s : State) : (takeInterrupt s).store = s.store := rfl
@[simp] theorem takeInterrupt_pc (s : State) : (takeInterrupt s).pc = s.pc := rfl
@[simp] theorem takeInterrupt_mpc (s : State) : (takeInterrupt s).mpc = s.mpc := rfl
@[simp] theorem takeInterrupt_addr (s : State) : (takeInterrupt s).addr = s.addr := rfl
@[simp] theorem takeInterrupt_cmd (s : State) : (takeInterrupt s).cmd = s.cmd := rfl
@[simp] theorem takeInterrupt_rx (s : State) : (takeInterrupt s).rx = s.rx := rfl
@[simp] theorem takeInterrupt_tx (s : State) : (takeInterrupt s).tx = s.tx := rfl
@[simp] theorem takeInterrupt_bit (s : State) : (takeInterrupt s).bit = s.bit := rfl
@[simp] theorem takeInterrupt_start (s : State) : (takeInterrupt s).start = s.start := rfl
@[simp] theorem takeInterrupt_b1 (s : State) : (takeInterrupt s).b1 = s.b1 := rfl
@[simp] theorem takeInterrupt_b2 (s : State) : (takeInterrupt s).b2 = s.b2 := rfl
@[simp] theorem takeInterrupt_ridx (s : State) : (takeInterrupt s).ridx = s.ridx := rfl
@[simp] theorem takeInterrupt_failReason (s : State) : (takeInterrupt s).failReason = s.failReason := rfl
@[simp] theorem takeInterrupt_active (s : State) : (takeInterrupt s).active = false := rfl
@[simp] theorem takeInterrupt_irqEnabled (s : State) : (takeInterrupt s).irqEnabled = s.irqEnabled := rfl
@[simp] theorem takeInterrupt_irqPending (s : State) : (takeInterrupt s).irqPending = false := rfl
@[simp] theorem takeInterrupt_selSeenHigh (s : State) : (takeInterrupt s).selSeenHigh = s.selSeenHigh := rfl
@[simp] theorem takeInterrupt_datDrv (s : State) : (takeInterrupt s).datDrv = .rel := rfl
@[simp] theorem takeInterrupt_ackDrv (s : State) : (takeInterrupt s).ackDrv = .rel := rfl
@[simp] theorem takeInterrupt_ch (s : State) : (takeInterrupt s).ch = s.ch := rfl
@[simp] theorem takeInterrupt_wr (s : State) : (takeInterrupt s).wr = s.wr := rfl
@[simp] theorem takeInterrupt_cal (s : State) : (takeInterrupt s).cal = s.cal := rfl
@[simp] theorem takeInterrupt_st (s : State) : (takeInterrupt s).st = s.st := rfl
@[simp] theorem takeInterrupt_writerOp (s : State) : (takeInterrupt s).writerOp = s.writerOp := rfl
@[simp] theorem takeInterrupt_isrOp (s : State) : (takeInterrupt s).isrOp = s.isrOp := rfl
@[simp] theorem takeInterrupt_agenda (s : State) : (takeInterrupt s).agenda = s.agenda := rfl
@[simp] theorem takeInterrupt_turns (s : State) : (takeInterrupt s).turns = s.turns := rfl

/-! ## Moving WRITER. -/

@[simp] theorem writerTo_cfg (p : WriterPos) (s : State) : (writerTo p s).cfg = s.cfg := rfl
@[simp] theorem writerTo_pins (p : WriterPos) (s : State) : (writerTo p s).pins = s.pins := rfl
@[simp] theorem writerTo_snap1 (p : WriterPos) (s : State) : (writerTo p s).snap1 = s.snap1 := rfl
@[simp] theorem writerTo_snap2 (p : WriterPos) (s : State) : (writerTo p s).snap2 = s.snap2 := rfl
@[simp] theorem writerTo_telPort (p : WriterPos) (s : State) : (writerTo p s).telPort = s.telPort := rfl
@[simp] theorem writerTo_now (p : WriterPos) (s : State) : (writerTo p s).now = s.now := rfl
@[simp] theorem writerTo_store (p : WriterPos) (s : State) : (writerTo p s).store = s.store := rfl
@[simp] theorem writerTo_pc (p : WriterPos) (s : State) : (writerTo p s).pc = s.pc := rfl
@[simp] theorem writerTo_mpc (p : WriterPos) (s : State) : (writerTo p s).mpc = s.mpc := rfl
@[simp] theorem writerTo_addr (p : WriterPos) (s : State) : (writerTo p s).addr = s.addr := rfl
@[simp] theorem writerTo_cmd (p : WriterPos) (s : State) : (writerTo p s).cmd = s.cmd := rfl
@[simp] theorem writerTo_rx (p : WriterPos) (s : State) : (writerTo p s).rx = s.rx := rfl
@[simp] theorem writerTo_tx (p : WriterPos) (s : State) : (writerTo p s).tx = s.tx := rfl
@[simp] theorem writerTo_bit (p : WriterPos) (s : State) : (writerTo p s).bit = s.bit := rfl
@[simp] theorem writerTo_start (p : WriterPos) (s : State) : (writerTo p s).start = s.start := rfl
@[simp] theorem writerTo_b1 (p : WriterPos) (s : State) : (writerTo p s).b1 = s.b1 := rfl
@[simp] theorem writerTo_b2 (p : WriterPos) (s : State) : (writerTo p s).b2 = s.b2 := rfl
@[simp] theorem writerTo_ridx (p : WriterPos) (s : State) : (writerTo p s).ridx = s.ridx := rfl
@[simp] theorem writerTo_failReason (p : WriterPos) (s : State) : (writerTo p s).failReason = s.failReason := rfl
@[simp] theorem writerTo_active (p : WriterPos) (s : State) : (writerTo p s).active = s.active := rfl
@[simp] theorem writerTo_irqEnabled (p : WriterPos) (s : State) : (writerTo p s).irqEnabled = s.irqEnabled := rfl
@[simp] theorem writerTo_irqPending (p : WriterPos) (s : State) : (writerTo p s).irqPending = s.irqPending := rfl
@[simp] theorem writerTo_selSeenHigh (p : WriterPos) (s : State) : (writerTo p s).selSeenHigh = s.selSeenHigh := rfl
@[simp] theorem writerTo_datDrv (p : WriterPos) (s : State) : (writerTo p s).datDrv = s.datDrv := rfl
@[simp] theorem writerTo_ackDrv (p : WriterPos) (s : State) : (writerTo p s).ackDrv = s.ackDrv := rfl
@[simp] theorem writerTo_ch (p : WriterPos) (s : State) : (writerTo p s).ch = s.ch := rfl
@[simp] theorem writerTo_wr (p : WriterPos) (s : State) : (writerTo p s).wr = { s.wr with pos := p } := rfl
@[simp] theorem writerTo_cal (p : WriterPos) (s : State) : (writerTo p s).cal = s.cal := rfl
@[simp] theorem writerTo_st (p : WriterPos) (s : State) : (writerTo p s).st = s.st := rfl
@[simp] theorem writerTo_writerOp (p : WriterPos) (s : State) : (writerTo p s).writerOp = s.writerOp := rfl
@[simp] theorem writerTo_isrOp (p : WriterPos) (s : State) : (writerTo p s).isrOp = s.isrOp := rfl
@[simp] theorem writerTo_agenda (p : WriterPos) (s : State) : (writerTo p s).agenda = s.agenda := rfl
@[simp] theorem writerTo_turns (p : WriterPos) (s : State) : (writerTo p s).turns = s.turns := rfl

/-! ## Cleaning the snapshot. -/

@[simp] theorem cleanSnapshot_cfg (s : State) : (cleanSnapshot s).cfg = s.cfg := rfl
@[simp] theorem cleanSnapshot_pins (s : State) : (cleanSnapshot s).pins = s.pins := rfl
@[simp] theorem cleanSnapshot_snap1 (s : State) : (cleanSnapshot s).snap1 = s.snap1 := rfl
@[simp] theorem cleanSnapshot_snap2 (s : State) : (cleanSnapshot s).snap2 = s.snap2 := rfl
@[simp] theorem cleanSnapshot_telPort (s : State) : (cleanSnapshot s).telPort = s.telPort := rfl
@[simp] theorem cleanSnapshot_now (s : State) : (cleanSnapshot s).now = s.now := rfl
@[simp] theorem cleanSnapshot_store (s : State) : (cleanSnapshot s).store = s.store := rfl
@[simp] theorem cleanSnapshot_pc (s : State) : (cleanSnapshot s).pc = s.pc := rfl
@[simp] theorem cleanSnapshot_mpc (s : State) : (cleanSnapshot s).mpc = s.mpc := rfl
@[simp] theorem cleanSnapshot_addr (s : State) : (cleanSnapshot s).addr = s.addr := rfl
@[simp] theorem cleanSnapshot_cmd (s : State) : (cleanSnapshot s).cmd = s.cmd := rfl
@[simp] theorem cleanSnapshot_rx (s : State) : (cleanSnapshot s).rx = s.rx := rfl
@[simp] theorem cleanSnapshot_tx (s : State) : (cleanSnapshot s).tx = s.tx := rfl
@[simp] theorem cleanSnapshot_bit (s : State) : (cleanSnapshot s).bit = s.bit := rfl
@[simp] theorem cleanSnapshot_start (s : State) : (cleanSnapshot s).start = s.start := rfl
@[simp] theorem cleanSnapshot_b1 (s : State) : (cleanSnapshot s).b1 = (socd s.cfg s.b1 s.b2).1 := rfl
@[simp] theorem cleanSnapshot_b2 (s : State) : (cleanSnapshot s).b2 = (socd s.cfg s.b1 s.b2).2 := rfl
@[simp] theorem cleanSnapshot_ridx (s : State) : (cleanSnapshot s).ridx = s.ridx := rfl
@[simp] theorem cleanSnapshot_failReason (s : State) : (cleanSnapshot s).failReason = s.failReason := rfl
@[simp] theorem cleanSnapshot_active (s : State) : (cleanSnapshot s).active = s.active := rfl
@[simp] theorem cleanSnapshot_irqEnabled (s : State) : (cleanSnapshot s).irqEnabled = s.irqEnabled := rfl
@[simp] theorem cleanSnapshot_irqPending (s : State) : (cleanSnapshot s).irqPending = s.irqPending := rfl
@[simp] theorem cleanSnapshot_selSeenHigh (s : State) : (cleanSnapshot s).selSeenHigh = s.selSeenHigh := rfl
@[simp] theorem cleanSnapshot_datDrv (s : State) : (cleanSnapshot s).datDrv = s.datDrv := rfl
@[simp] theorem cleanSnapshot_ackDrv (s : State) : (cleanSnapshot s).ackDrv = s.ackDrv := rfl
@[simp] theorem cleanSnapshot_ch (s : State) : (cleanSnapshot s).ch = s.ch := rfl
@[simp] theorem cleanSnapshot_wr (s : State) : (cleanSnapshot s).wr = s.wr := rfl
@[simp] theorem cleanSnapshot_cal (s : State) : (cleanSnapshot s).cal = s.cal := rfl
@[simp] theorem cleanSnapshot_st (s : State) : (cleanSnapshot s).st = s.st := rfl
@[simp] theorem cleanSnapshot_writerOp (s : State) : (cleanSnapshot s).writerOp = s.writerOp := rfl
@[simp] theorem cleanSnapshot_isrOp (s : State) : (cleanSnapshot s).isrOp = s.isrOp := rfl
@[simp] theorem cleanSnapshot_agenda (s : State) : (cleanSnapshot s).agenda = s.agenda := rfl
@[simp] theorem cleanSnapshot_turns (s : State) : (cleanSnapshot s).turns = s.turns := rfl

/-! ## A HOST step. -/

@[simp] theorem hostStep_cfg (p : Pins) (s : State) : (hostStep p s).cfg = s.cfg := rfl
@[simp] theorem hostStep_pins (p : Pins) (s : State) : (hostStep p s).pins = p := rfl
@[simp] theorem hostStep_snap1 (p : Pins) (s : State) : (hostStep p s).snap1 = s.snap1 := rfl
@[simp] theorem hostStep_snap2 (p : Pins) (s : State) : (hostStep p s).snap2 = s.snap2 := rfl
@[simp] theorem hostStep_telPort (p : Pins) (s : State) : (hostStep p s).telPort = s.telPort := rfl
@[simp] theorem hostStep_now (p : Pins) (s : State) : (hostStep p s).now = s.now := rfl
@[simp] theorem hostStep_store (p : Pins) (s : State) : (hostStep p s).store = s.store := rfl
@[simp] theorem hostStep_pc (p : Pins) (s : State) : (hostStep p s).pc = s.pc := rfl
@[simp] theorem hostStep_mpc (p : Pins) (s : State) : (hostStep p s).mpc = s.mpc := rfl
@[simp] theorem hostStep_addr (p : Pins) (s : State) : (hostStep p s).addr = s.addr := rfl
@[simp] theorem hostStep_cmd (p : Pins) (s : State) : (hostStep p s).cmd = s.cmd := rfl
@[simp] theorem hostStep_rx (p : Pins) (s : State) : (hostStep p s).rx = s.rx := rfl
@[simp] theorem hostStep_tx (p : Pins) (s : State) : (hostStep p s).tx = s.tx := rfl
@[simp] theorem hostStep_bit (p : Pins) (s : State) : (hostStep p s).bit = s.bit := rfl
@[simp] theorem hostStep_start (p : Pins) (s : State) : (hostStep p s).start = s.start := rfl
@[simp] theorem hostStep_b1 (p : Pins) (s : State) : (hostStep p s).b1 = s.b1 := rfl
@[simp] theorem hostStep_b2 (p : Pins) (s : State) : (hostStep p s).b2 = s.b2 := rfl
@[simp] theorem hostStep_ridx (p : Pins) (s : State) : (hostStep p s).ridx = s.ridx := rfl
@[simp] theorem hostStep_failReason (p : Pins) (s : State) : (hostStep p s).failReason = s.failReason := rfl
@[simp] theorem hostStep_active (p : Pins) (s : State) : (hostStep p s).active = s.active := rfl
@[simp] theorem hostStep_irqEnabled (p : Pins) (s : State) : (hostStep p s).irqEnabled = s.irqEnabled := rfl
@[simp] theorem hostStep_irqPending (p : Pins) (s : State) : (hostStep p s).irqPending = (s.irqPending || (!s.pins.selN && p.selN)) := rfl
@[simp] theorem hostStep_selSeenHigh (p : Pins) (s : State) : (hostStep p s).selSeenHigh = s.selSeenHigh := rfl
@[simp] theorem hostStep_datDrv (p : Pins) (s : State) : (hostStep p s).datDrv = s.datDrv := rfl
@[simp] theorem hostStep_ackDrv (p : Pins) (s : State) : (hostStep p s).ackDrv = s.ackDrv := rfl
@[simp] theorem hostStep_ch (p : Pins) (s : State) : (hostStep p s).ch = s.ch := rfl
@[simp] theorem hostStep_wr (p : Pins) (s : State) : (hostStep p s).wr = s.wr := rfl
@[simp] theorem hostStep_cal (p : Pins) (s : State) : (hostStep p s).cal = s.cal := rfl
@[simp] theorem hostStep_st (p : Pins) (s : State) : (hostStep p s).st = s.st := rfl
@[simp] theorem hostStep_writerOp (p : Pins) (s : State) : (hostStep p s).writerOp = s.writerOp := rfl
@[simp] theorem hostStep_isrOp (p : Pins) (s : State) : (hostStep p s).isrOp = s.isrOp := rfl
@[simp] theorem hostStep_agenda (p : Pins) (s : State) : (hostStep p s).agenda = s.agenda := rfl
@[simp] theorem hostStep_turns (p : Pins) (s : State) : (hostStep p s).turns = s.turns := rfl

/-! ## A TIMEBASE step. -/

@[simp] theorem timebaseStep_cfg (s : State) : (timebaseStep s).cfg = s.cfg := rfl
@[simp] theorem timebaseStep_pins (s : State) : (timebaseStep s).pins = s.pins := rfl
@[simp] theorem timebaseStep_snap1 (s : State) : (timebaseStep s).snap1 = s.snap1 := rfl
@[simp] theorem timebaseStep_snap2 (s : State) : (timebaseStep s).snap2 = s.snap2 := rfl
@[simp] theorem timebaseStep_telPort (s : State) : (timebaseStep s).telPort = s.telPort := rfl
@[simp] theorem timebaseStep_now (s : State) : (timebaseStep s).now = s.now + 1 := rfl
@[simp] theorem timebaseStep_store (s : State) : (timebaseStep s).store = s.store := rfl
@[simp] theorem timebaseStep_pc (s : State) : (timebaseStep s).pc = s.pc := rfl
@[simp] theorem timebaseStep_mpc (s : State) : (timebaseStep s).mpc = s.mpc := rfl
@[simp] theorem timebaseStep_addr (s : State) : (timebaseStep s).addr = s.addr := rfl
@[simp] theorem timebaseStep_cmd (s : State) : (timebaseStep s).cmd = s.cmd := rfl
@[simp] theorem timebaseStep_rx (s : State) : (timebaseStep s).rx = s.rx := rfl
@[simp] theorem timebaseStep_tx (s : State) : (timebaseStep s).tx = s.tx := rfl
@[simp] theorem timebaseStep_bit (s : State) : (timebaseStep s).bit = s.bit := rfl
@[simp] theorem timebaseStep_start (s : State) : (timebaseStep s).start = s.start := rfl
@[simp] theorem timebaseStep_b1 (s : State) : (timebaseStep s).b1 = s.b1 := rfl
@[simp] theorem timebaseStep_b2 (s : State) : (timebaseStep s).b2 = s.b2 := rfl
@[simp] theorem timebaseStep_ridx (s : State) : (timebaseStep s).ridx = s.ridx := rfl
@[simp] theorem timebaseStep_failReason (s : State) : (timebaseStep s).failReason = s.failReason := rfl
@[simp] theorem timebaseStep_active (s : State) : (timebaseStep s).active = s.active := rfl
@[simp] theorem timebaseStep_irqEnabled (s : State) : (timebaseStep s).irqEnabled = s.irqEnabled := rfl
@[simp] theorem timebaseStep_irqPending (s : State) : (timebaseStep s).irqPending = s.irqPending := rfl
@[simp] theorem timebaseStep_selSeenHigh (s : State) : (timebaseStep s).selSeenHigh = s.selSeenHigh := rfl
@[simp] theorem timebaseStep_datDrv (s : State) : (timebaseStep s).datDrv = s.datDrv := rfl
@[simp] theorem timebaseStep_ackDrv (s : State) : (timebaseStep s).ackDrv = s.ackDrv := rfl
@[simp] theorem timebaseStep_ch (s : State) : (timebaseStep s).ch = s.ch := rfl
@[simp] theorem timebaseStep_wr (s : State) : (timebaseStep s).wr = s.wr := rfl
@[simp] theorem timebaseStep_cal (s : State) : (timebaseStep s).cal = s.cal := rfl
@[simp] theorem timebaseStep_st (s : State) : (timebaseStep s).st = s.st := rfl
@[simp] theorem timebaseStep_writerOp (s : State) : (timebaseStep s).writerOp = s.writerOp := rfl
@[simp] theorem timebaseStep_isrOp (s : State) : (timebaseStep s).isrOp = s.isrOp := rfl
@[simp] theorem timebaseStep_agenda (s : State) : (timebaseStep s).agenda = s.agenda := rfl
@[simp] theorem timebaseStep_turns (s : State) : (timebaseStep s).turns = s.turns := rfl

/-! ## The destination copy and the end of an operation -/

@[simp] theorem copyDest_cfg (d : Dest) (s : State) : (copyDest d s).cfg = s.cfg := by cases d <;> rfl
@[simp] theorem copyDest_pins (d : Dest) (s : State) : (copyDest d s).pins = s.pins := by cases d <;> rfl
@[simp] theorem copyDest_snap1 (d : Dest) (s : State) : (copyDest d s).snap1 = s.snap1 := by cases d <;> rfl
@[simp] theorem copyDest_snap2 (d : Dest) (s : State) : (copyDest d s).snap2 = s.snap2 := by cases d <;> rfl
@[simp] theorem copyDest_telPort (d : Dest) (s : State) : (copyDest d s).telPort = s.telPort := by cases d <;> rfl
@[simp] theorem copyDest_now (d : Dest) (s : State) : (copyDest d s).now = s.now := by cases d <;> rfl
@[simp] theorem copyDest_store (d : Dest) (s : State) : (copyDest d s).store = s.store := by cases d <;> rfl
@[simp] theorem copyDest_pc (d : Dest) (s : State) : (copyDest d s).pc = s.pc := by cases d <;> rfl
@[simp] theorem copyDest_mpc (d : Dest) (s : State) : (copyDest d s).mpc = s.mpc := by cases d <;> rfl
@[simp] theorem copyDest_rx (d : Dest) (s : State) : (copyDest d s).rx = s.rx := by cases d <;> rfl
@[simp] theorem copyDest_tx (d : Dest) (s : State) : (copyDest d s).tx = s.tx := by cases d <;> rfl
@[simp] theorem copyDest_bit (d : Dest) (s : State) : (copyDest d s).bit = s.bit := by cases d <;> rfl
@[simp] theorem copyDest_start (d : Dest) (s : State) : (copyDest d s).start = s.start := by cases d <;> rfl
@[simp] theorem copyDest_b1 (d : Dest) (s : State) : (copyDest d s).b1 = s.b1 := by cases d <;> rfl
@[simp] theorem copyDest_b2 (d : Dest) (s : State) : (copyDest d s).b2 = s.b2 := by cases d <;> rfl
@[simp] theorem copyDest_ridx (d : Dest) (s : State) : (copyDest d s).ridx = s.ridx := by cases d <;> rfl
@[simp] theorem copyDest_failReason (d : Dest) (s : State) : (copyDest d s).failReason = s.failReason := by cases d <;> rfl
@[simp] theorem copyDest_active (d : Dest) (s : State) : (copyDest d s).active = s.active := by cases d <;> rfl
@[simp] theorem copyDest_irqEnabled (d : Dest) (s : State) : (copyDest d s).irqEnabled = s.irqEnabled := by cases d <;> rfl
@[simp] theorem copyDest_irqPending (d : Dest) (s : State) : (copyDest d s).irqPending = s.irqPending := by cases d <;> rfl
@[simp] theorem copyDest_selSeenHigh (d : Dest) (s : State) : (copyDest d s).selSeenHigh = s.selSeenHigh := by cases d <;> rfl
@[simp] theorem copyDest_datDrv (d : Dest) (s : State) : (copyDest d s).datDrv = s.datDrv := by cases d <;> rfl
@[simp] theorem copyDest_ackDrv (d : Dest) (s : State) : (copyDest d s).ackDrv = s.ackDrv := by cases d <;> rfl
@[simp] theorem copyDest_ch (d : Dest) (s : State) : (copyDest d s).ch = s.ch := by cases d <;> rfl
@[simp] theorem copyDest_wr (d : Dest) (s : State) : (copyDest d s).wr = s.wr := by cases d <;> rfl
@[simp] theorem copyDest_cal (d : Dest) (s : State) : (copyDest d s).cal = s.cal := by cases d <;> rfl
@[simp] theorem copyDest_st (d : Dest) (s : State) : (copyDest d s).st = s.st := by cases d <;> rfl
@[simp] theorem copyDest_writerOp (d : Dest) (s : State) : (copyDest d s).writerOp = s.writerOp := by cases d <;> rfl
@[simp] theorem copyDest_isrOp (d : Dest) (s : State) : (copyDest d s).isrOp = s.isrOp := by cases d <;> rfl
@[simp] theorem copyDest_agenda (d : Dest) (s : State) : (copyDest d s).agenda = s.agenda := by cases d <;> rfl
@[simp] theorem copyDest_turns (d : Dest) (s : State) : (copyDest d s).turns = s.turns := by cases d <;> rfl

@[simp] theorem copyDest_addr_of (d : Dest) (s : State) :
    (copyDest d s).addr = if d = .addr then s.rx else s.addr := by cases d <;> rfl
@[simp] theorem copyDest_cmd_of (d : Dest) (s : State) :
    (copyDest d s).cmd = if d = .cmd then s.rx else s.cmd := by cases d <;> rfl

@[simp] theorem done_cfg (o : Branch) (s : State) : (done o s).cfg = s.cfg := by simp [done]
@[simp] theorem done_pins (o : Branch) (s : State) : (done o s).pins = s.pins := by simp [done]
@[simp] theorem done_snap1 (o : Branch) (s : State) : (done o s).snap1 = s.snap1 := by simp [done]
@[simp] theorem done_snap2 (o : Branch) (s : State) : (done o s).snap2 = s.snap2 := by simp [done]
@[simp] theorem done_telPort (o : Branch) (s : State) : (done o s).telPort = s.telPort := by simp [done]
@[simp] theorem done_now (o : Branch) (s : State) : (done o s).now = s.now := by simp [done]
@[simp] theorem done_store (o : Branch) (s : State) : (done o s).store = s.store := by simp [done]
@[simp] theorem done_rx (o : Branch) (s : State) : (done o s).rx = s.rx := by simp [done]
@[simp] theorem done_tx (o : Branch) (s : State) : (done o s).tx = s.tx := by simp [done]
@[simp] theorem done_bit (o : Branch) (s : State) : (done o s).bit = s.bit := by simp [done]
@[simp] theorem done_start (o : Branch) (s : State) : (done o s).start = s.start := by simp [done]
@[simp] theorem done_b1 (o : Branch) (s : State) : (done o s).b1 = s.b1 := by simp [done]
@[simp] theorem done_b2 (o : Branch) (s : State) : (done o s).b2 = s.b2 := by simp [done]
@[simp] theorem done_ridx (o : Branch) (s : State) : (done o s).ridx = s.ridx := by simp [done]
@[simp] theorem done_failReason (o : Branch) (s : State) : (done o s).failReason = s.failReason := by simp [done]
@[simp] theorem done_active (o : Branch) (s : State) : (done o s).active = s.active := by simp [done]
@[simp] theorem done_irqEnabled (o : Branch) (s : State) : (done o s).irqEnabled = s.irqEnabled := by simp [done]
@[simp] theorem done_irqPending (o : Branch) (s : State) : (done o s).irqPending = s.irqPending := by simp [done]
@[simp] theorem done_selSeenHigh (o : Branch) (s : State) : (done o s).selSeenHigh = s.selSeenHigh := by simp [done]
@[simp] theorem done_datDrv (o : Branch) (s : State) : (done o s).datDrv = s.datDrv := by simp [done]
@[simp] theorem done_ackDrv (o : Branch) (s : State) : (done o s).ackDrv = s.ackDrv := by simp [done]
@[simp] theorem done_ch (o : Branch) (s : State) : (done o s).ch = s.ch := by simp [done]
@[simp] theorem done_wr (o : Branch) (s : State) : (done o s).wr = s.wr := by simp [done]
@[simp] theorem done_cal (o : Branch) (s : State) : (done o s).cal = s.cal := by simp [done]
@[simp] theorem done_st (o : Branch) (s : State) : (done o s).st = s.st := by simp [done]
@[simp] theorem done_writerOp (o : Branch) (s : State) : (done o s).writerOp = s.writerOp := by simp [done]
@[simp] theorem done_isrOp (o : Branch) (s : State) : (done o s).isrOp = s.isrOp := by simp [done]
@[simp] theorem done_agenda (o : Branch) (s : State) : (done o s).agenda = s.agenda := by simp [done]
@[simp] theorem done_turns (o : Branch) (s : State) : (done o s).turns = s.turns := by simp [done]
@[simp] theorem done_pc (o : Branch) (s : State) : (done o s).pc = nextPc s.entry s.pc o := rfl
@[simp] theorem done_mpc (o : Branch) (s : State) :
    (done o s).mpc = entryMpc s.store (nextPc s.entry s.pc o) := by simp [done]
@[simp] theorem done_addr (o : Branch) (s : State) :
    (done o s).addr = if destAt s.entry = .addr then s.rx else s.addr := by simp [done]
@[simp] theorem done_cmd (o : Branch) (s : State) :
    (done o s).cmd = if destAt s.entry = .cmd then s.rx else s.cmd := by simp [done]

/-! ## Taking a turn off the agenda -/

@[simp] theorem popTurn_cfg (s : State) : (popTurn s).cfg = s.cfg := by
  unfold popTurn; split <;> rfl
@[simp] theorem popTurn_pins (s : State) : (popTurn s).pins = s.pins := by
  unfold popTurn; split <;> rfl
@[simp] theorem popTurn_snap1 (s : State) : (popTurn s).snap1 = s.snap1 := by
  unfold popTurn; split <;> rfl
@[simp] theorem popTurn_snap2 (s : State) : (popTurn s).snap2 = s.snap2 := by
  unfold popTurn; split <;> rfl
@[simp] theorem popTurn_telPort (s : State) : (popTurn s).telPort = s.telPort := by
  unfold popTurn; split <;> rfl
@[simp] theorem popTurn_now (s : State) : (popTurn s).now = s.now := by
  unfold popTurn; split <;> rfl
@[simp] theorem popTurn_store (s : State) : (popTurn s).store = s.store := by
  unfold popTurn; split <;> rfl
@[simp] theorem popTurn_pc (s : State) : (popTurn s).pc = s.pc := by
  unfold popTurn; split <;> rfl
@[simp] theorem popTurn_mpc (s : State) : (popTurn s).mpc = s.mpc := by
  unfold popTurn; split <;> rfl
@[simp] theorem popTurn_addr (s : State) : (popTurn s).addr = s.addr := by
  unfold popTurn; split <;> rfl
@[simp] theorem popTurn_cmd (s : State) : (popTurn s).cmd = s.cmd := by
  unfold popTurn; split <;> rfl
@[simp] theorem popTurn_rx (s : State) : (popTurn s).rx = s.rx := by
  unfold popTurn; split <;> rfl
@[simp] theorem popTurn_tx (s : State) : (popTurn s).tx = s.tx := by
  unfold popTurn; split <;> rfl
@[simp] theorem popTurn_bit (s : State) : (popTurn s).bit = s.bit := by
  unfold popTurn; split <;> rfl
@[simp] theorem popTurn_start (s : State) : (popTurn s).start = s.start := by
  unfold popTurn; split <;> rfl
@[simp] theorem popTurn_b1 (s : State) : (popTurn s).b1 = s.b1 := by
  unfold popTurn; split <;> rfl
@[simp] theorem popTurn_b2 (s : State) : (popTurn s).b2 = s.b2 := by
  unfold popTurn; split <;> rfl
@[simp] theorem popTurn_ridx (s : State) : (popTurn s).ridx = s.ridx := by
  unfold popTurn; split <;> rfl
@[simp] theorem popTurn_failReason (s : State) : (popTurn s).failReason = s.failReason := by
  unfold popTurn; split <;> rfl
@[simp] theorem popTurn_active (s : State) : (popTurn s).active = s.active := by
  unfold popTurn; split <;> rfl
@[simp] theorem popTurn_irqEnabled (s : State) : (popTurn s).irqEnabled = s.irqEnabled := by
  unfold popTurn; split <;> rfl
@[simp] theorem popTurn_irqPending (s : State) : (popTurn s).irqPending = s.irqPending := by
  unfold popTurn; split <;> rfl
@[simp] theorem popTurn_selSeenHigh (s : State) : (popTurn s).selSeenHigh = s.selSeenHigh := by
  unfold popTurn; split <;> rfl
@[simp] theorem popTurn_datDrv (s : State) : (popTurn s).datDrv = s.datDrv := by
  unfold popTurn; split <;> rfl
@[simp] theorem popTurn_ackDrv (s : State) : (popTurn s).ackDrv = s.ackDrv := by
  unfold popTurn; split <;> rfl
@[simp] theorem popTurn_ch (s : State) : (popTurn s).ch = s.ch := by
  unfold popTurn; split <;> rfl
@[simp] theorem popTurn_wr (s : State) : (popTurn s).wr = s.wr := by
  unfold popTurn; split <;> rfl
@[simp] theorem popTurn_cal (s : State) : (popTurn s).cal = s.cal := by
  unfold popTurn; split <;> rfl
@[simp] theorem popTurn_st (s : State) : (popTurn s).st = s.st := by
  unfold popTurn; split <;> rfl
@[simp] theorem popTurn_writerOp (s : State) : (popTurn s).writerOp = s.writerOp := by
  unfold popTurn; split <;> rfl
@[simp] theorem popTurn_isrOp (s : State) : (popTurn s).isrOp = s.isrOp := by
  unfold popTurn; split <;> rfl

end Sys2Proof.Machine
end

