-- ==== Sys2Proof/Laws/Ops.lean ====
section
/-! SUPPORT. What each shared operation can do, said once: the channel memory and its canonical form, an edge wait,
the end of an operation, issuing a word, and one turn. -/

namespace Sys2Proof.Machine

/-! ## Channel memory -/

@[simp] theorem Memory.byteAt_nil (a : Nat) : Memory.byteAt [] a = unlisted a := rfl

theorem Memory.byteAt_cons (k : Nat) (x : Byte) (m : Memory) (a : Nat) :
    Memory.byteAt ((k, x) :: m) a = if k = a then x else Memory.byteAt m a := rfl

theorem Memory.wfFrom_cons (k : Nat) (x : Byte) (m : Memory) (lo : Nat) :
    Memory.wfFrom ((k, x) :: m) lo = true ↔
      lo ≤ k ∧ k < chCells ∧ x ≠ unlisted k ∧ Memory.wfFrom m (k + 1) = true := by
  simp [Memory.wfFrom, and_assoc]

theorem Memory.wfFrom_mono {m : Memory} {lo lo' : Nat} (hle : lo' ≤ lo) (h : m.wfFrom lo = true) :
    m.wfFrom lo' = true := by
  cases m with
  | nil => rfl
  | cons c rest =>
    obtain ⟨k, x⟩ := c
    rw [Memory.wfFrom_cons] at h ⊢
    exact ⟨by omega, h.2⟩

/-- Below the bound nothing is listed. -/
theorem Memory.byteAt_below {m : Memory} {lo a : Nat} (h : m.wfFrom lo = true) (ha : a < lo) :
    m.byteAt a = unlisted a := by
  induction m generalizing lo with
  | nil => rfl
  | cons c rest ih =>
    obtain ⟨k, x⟩ := c
    rw [Memory.wfFrom_cons] at h
    rw [Memory.byteAt_cons, if_neg (by omega)]
    exact ih h.2.2.2 (by omega)

/-- Reading after writing, in a canonical memory. -/
theorem Memory.byteAt_put_from {m : Memory} {lo : Nat} (h : m.wfFrom lo = true) (a : Nat) (v : Byte) (b : Nat) :
    (m.setByte a v).byteAt b = if b = a then v else m.byteAt b := by
  induction m generalizing lo with
  | nil =>
    simp only [Memory.setByte]
    split
    · split <;> simp_all
    · rw [Memory.byteAt_cons]
      by_cases hb : b = a
      · simp [hb]
      · rw [if_neg hb, if_neg (Ne.symm hb)]
  | cons c rest ih =>
    obtain ⟨k, x⟩ := c
    rw [Memory.wfFrom_cons] at h
    have hlow : ∀ c, c < k → Memory.byteAt rest c = unlisted c := fun c hc =>
      Memory.byteAt_below h.2.2.2 (by omega)
    simp only [Memory.setByte]
    split
    · rename_i hak
      split
      · rename_i hv
        split
        · rename_i hb
          rw [hb, Memory.byteAt_cons, if_neg (by omega), hlow a hak, hv]
        · rfl
      · rw [Memory.byteAt_cons]
        by_cases hb : b = a
        · simp [hb]
        · simp [hb, Ne.symm hb]
    · split
      · rename_i hak
        subst hak
        have hself : Memory.byteAt rest a = unlisted a := Memory.byteAt_below h.2.2.2 (by omega)
        split
        · rename_i hv
          by_cases hb : b = a
          · rw [if_pos hb, hb, hself, hv]
          · rw [if_neg hb, Memory.byteAt_cons, if_neg (Ne.symm hb)]
        · by_cases hb : b = a
          · simp [hb, Memory.byteAt_cons]
          · simp [hb, Memory.byteAt_cons, Ne.symm hb]
      · rw [Memory.byteAt_cons, Memory.byteAt_cons, ih h.2.2.2]
        by_cases hk : k = b
        · rw [if_pos hk, if_pos hk, if_neg (by omega)]
        · rw [if_neg hk, if_neg hk]

theorem Memory.byteAt_put {m : Memory} (h : m.wf = true) (a : Nat) (v : Byte) (b : Nat) :
    (m.setByte a v).byteAt b = if b = a then v else m.byteAt b := Memory.byteAt_put_from h a v b

theorem Memory.setByte_wfFrom {m : Memory} {lo a : Nat} (h : m.wfFrom lo = true) (hlo : lo ≤ a) (ha : a < chCells)
    (v : Byte) : (m.setByte a v).wfFrom lo = true := by
  induction m generalizing lo with
  | nil =>
    simp only [Memory.setByte]
    split
    · rfl
    · rw [Memory.wfFrom_cons]
      exact ⟨hlo, ha, by assumption, rfl⟩
  | cons c rest ih =>
    obtain ⟨k, x⟩ := c
    have h' := h
    rw [Memory.wfFrom_cons] at h
    simp only [Memory.setByte]
    split
    · split
      · exact h'
      · rw [Memory.wfFrom_cons, Memory.wfFrom_cons]
        exact ⟨hlo, ha, by assumption, by omega, h.2⟩
    · split
      · split
        · exact Memory.wfFrom_mono (by omega) h.2.2.2
        · rw [Memory.wfFrom_cons]
          rename_i hak hv
          subst hak
          exact ⟨hlo, ha, hv, h.2.2.2⟩
      · rw [Memory.wfFrom_cons]
        exact ⟨h.1, h.2.1, h.2.2.1, ih h.2.2.2 (by omega)⟩

/-- Writing keeps the canonical form. -/
theorem Memory.setByte_wf {m : Memory} (h : m.wf = true) {a : Nat} (ha : a < chCells) (v : Byte) :
    (m.setByte a v).wf = true := Memory.setByte_wfFrom h (Nat.zero_le a) ha v

/-- The memory at reset has the canonical form. -/
theorem Memory.wf_reset : State.reset.ch.wf = true := rfl

theorem slotAddr_lt (i : Idx) {f : Nat} (hf : f < 2) : slotAddr i f < chCells := by
  have := i.isLt
  simp only [slotAddr, chCells]
  omega

/-- The two indices are the two bytes an index cell holds. -/
theorem idxOf_idxByte (i : Idx) : idxOf (idxByte i) = some i := by
  revert i
  decide

theorem idxOf_eq_some {b : Byte} {i : Idx} : idxOf b = some i ↔ b = idxByte i := by
  constructor
  · unfold idxOf
    split
    · rintro ⟨⟩
      assumption
    · split
      · rintro ⟨⟩
        assumption
      · rintro ⟨⟩
  · rintro rfl
    exact idxOf_idxByte i

theorem idxByte_zero_or_one (i : Idx) : idxByte i = 0x00 ∨ idxByte i = 0x01 := by
  revert i
  decide

/-- What a channel read that goes on did. -/
theorem chRead_next {a : Nat} {s t : State} {k : Byte → Host.Outcome State Fault Refusal} :
    chRead a s k = .next t ↔ a < chCells ∧ k (s.ch.byteAt a) = .next t := by
  unfold chRead
  split <;> simp_all

/-- What a channel write that goes on did. -/
theorem chWrite_next {a : Nat} {v : Byte} {s t : State} {k : State → Host.Outcome State Fault Refusal} :
    chWrite a v s k = .next t ↔ a < chCells ∧ k { s with ch := s.ch.setByte a v } = .next t := by
  unfold chWrite
  split <;> simp_all

/-- What an index read that goes on did. -/
theorem chReadIdx_next {a : Nat} {s t : State} {k : Idx → Host.Outcome State Fault Refusal} :
    chReadIdx a s k = .next t ↔ a < chCells ∧ ∃ i, s.ch.byteAt a = idxByte i ∧ k i = .next t := by
  unfold chReadIdx
  rw [chRead_next]
  refine and_congr_right fun _ => ?_
  constructor
  · split
    · rename_i i hi
      exact fun h => ⟨i, idxOf_eq_some.mp hi, h⟩
    · rintro ⟨⟩
  · rintro ⟨i, hi, h⟩
    rw [hi, idxOf_idxByte]
    exact h

/-! ## Conditions and bits -/

/-- `elapsed(R.start) >= d` (00_scope.md R16). -/
theorem startElapsed_iff (d : U32) (s : State) :
    startElapsed d s = true ↔ d.toNat ≤ (s.now - s.start).toNat := by
  simp only [startElapsed, decide_eq_true_eq]
  rfl

/-- The abort condition (40_bus_primitives.md R141). -/
theorem aborted_iff (s : State) : aborted s = true ↔ s.pins.selN = true ∨ s.active = false := by
  simp [aborted]

/-- The interrupt is taken where it is pending and not masked (60_exceptions.md R286). -/
theorem isrEnabled_iff (s : State) : isrEnabled s = true ↔ s.irqPending = true ∧ s.irqEnabled = true := by
  simp [isrEnabled]

/-- What writing one bit of a byte does to each bit (00_scope.md R15). -/
theorem getLsbD_setBit (v : Byte) {i j : Nat} (b : Bool) (hi : i < 8) (hj : j < 8) :
    (setBit v i b).getLsbD j = if j = i then b else v.getLsbD j := by
  revert v
  interval_cases i <;> interval_cases j <;> cases b <;> decide

/-- The next bit index, below 8. -/
theorem bitSucc_val {i : Fin 9} (h : i.val < 8) : (bitSucc i).val = i.val + 1 := by
  simp [bitSucc, h]

/-! ## Waits and failures -/

/-- One poll fails, reaches the level or goes on, in that order (40_bus_primitives.md R143). -/
theorem pollEdge_cases (level : Bool) (bound : U32) (s : State) :
    (aborted s = true ∧ pollEdge level bound s = .failed .abort) ∨
    (aborted s = false ∧ s.pins.clk = level ∧ pollEdge level bound s = .reached) ∨
    (aborted s = false ∧ s.pins.clk ≠ level ∧ startElapsed bound s = true ∧
      pollEdge level bound s = .failed .timeout) ∨
    (aborted s = false ∧ s.pins.clk ≠ level ∧ startElapsed bound s = false ∧
      pollEdge level bound s = .again) := by
  unfold pollEdge
  by_cases h : aborted s = true
  · exact .inl ⟨h, if_pos h⟩
  · have h' : aborted s = false := by simpa using h
    by_cases hl : s.pins.clk = level
    · exact .inr (.inl ⟨h', hl, by simp [h', hl]⟩)
    · by_cases ht : startElapsed bound s = true
      · exact .inr (.inr (.inl ⟨h', hl, ht, by simp [h', hl, ht]⟩))
      · have ht' : startElapsed bound s = false := by simpa using ht
        exact .inr (.inr (.inr ⟨h', hl, ht', by simp [h', hl, ht']⟩))

/-- All an edge wait's micro-step can do: start, end reached, end failed, or stay. -/
theorem waitStep_cases (level : Bool) (bound : U32) (stay : WaitPos → Mpc) (onOk onFail : State → State)
    (p : WaitPos) (s : State) :
    (p = .w0 ∧ waitStep level bound stay onOk onFail p s = stepTo (stay .w1) { s with start := s.now }) ∨
    (p = .w1 ∧ waitStep level bound stay onOk onFail p s = onOk s) ∨
    (p = .w1 ∧ ∃ r, waitStep level bound stay onOk onFail p s = onFail (raise r s)) ∨
    (p = .w1 ∧ waitStep level bound stay onOk onFail p s = s) := by
  cases p with
  | w0 => exact .inl ⟨rfl, rfl⟩
  | w1 =>
    unfold waitStep
    rcases pollEdge level bound s with _ | r | _
    · exact .inr (.inl ⟨rfl, rfl⟩)
    · exact .inr (.inr (.inl ⟨rfl, r, rfl⟩))
    · exact .inr (.inr (.inr ⟨rfl, rfl⟩))

/-! ## Issuing a word -/

/-- A word that an agent runs is an operation of its role (30_encoding.md R118). -/
theorem issue_next {a : Agent} {w : OpWord} {s t : State} :
    issue a w s = .next t ↔ ∃ i, decodeWord w = .ok i ∧ i.agent = a ∧ exec i s = .next t := by
  unfold issue
  constructor
  · split
    · rintro ⟨⟩
    · rename_i i hi
      split
      · rename_i ha
        exact fun h => ⟨i, hi, ha, h⟩
      · rintro ⟨⟩
  · rintro ⟨i, hi, ha, h⟩
    simp [hi, ha, h]

/-- What ENGINE runs is the word of the entry at `R.pc` (41_transaction_fsm.md R170). -/
theorem engineStep_next {s t : State} :
    engineStep s = .next t ↔
      ∃ e i, s.entry = some e ∧ decodeWord e.word = .ok i ∧ i.agent = .engine ∧ exec i s = .next t := by
  unfold engineStep
  constructor
  · split
    · rintro ⟨⟩
    · rename_i e he
      rw [issue_next]
      rintro ⟨i, h⟩
      exact ⟨e, i, he, h⟩
  · rintro ⟨e, i, he, h⟩
    rw [he]
    exact issue_next.mpr ⟨i, h⟩

/-- The protocol context runs ISR while it is enabled, and ENGINE otherwise (60_exceptions.md R286). -/
theorem contextStep_next {s t : State} :
    contextStep s = .next t ↔
      (isrEnabled s = true ∧ issue .isr s.isrOp s = .next t) ∨
      (isrEnabled s = false ∧ engineStep s = .next t) := by
  unfold contextStep
  split <;> simp_all

/-- All one turn can do. -/
theorem takeTurn_cases {t : Turn} {s s' : State} (h : takeTurn t s = .next s') :
    (t = .engine ∧ isrEnabled s = true ∧ issue .isr s.isrOp s = .next s') ∨
    (t = .engine ∧ isrEnabled s = false ∧
      ∃ e i, s.entry = some e ∧ decodeWord e.word = .ok i ∧ i.agent = .engine ∧ exec i s = .next s') ∨
    (∃ s1 s2, t = .writer s1 s2 ∧ issue .writer s.writerOp { s with snap1 := s1, snap2 := s2 } = .next s') ∨
    (∃ w, t = .telemetry w ∧ issue .telemetry w s = .next s') ∨
    (∃ p, t = .host p ∧ s' = hostStep p s) ∨
    (t = .timebase ∧ s' = timebaseStep s) := by
  cases t with
  | engine =>
    rcases contextStep_next.mp h with h | h
    · exact .inl ⟨rfl, h⟩
    · exact .inr (.inl ⟨rfl, h.1, engineStep_next.mp h.2⟩)
  | writer s1 s2 => exact .inr (.inr (.inl ⟨s1, s2, rfl, h⟩))
  | telemetry w => exact .inr (.inr (.inr (.inl ⟨w, rfl, h⟩)))
  | host p =>
    cases h
    exact .inr (.inr (.inr (.inr (.inl ⟨p, rfl, rfl⟩))))
  | timebase =>
    cases h
    exact .inr (.inr (.inr (.inr (.inr ⟨rfl, rfl⟩))))

/-- The only operation of WRITER is CHW, of ISR the handler, of TELEMETRY a read. -/
theorem agent_writer {i : Instr} : i.agent = .writer ↔ i = .chw := by cases i <;> simp [Instr.agent]

theorem agent_isr {i : Instr} : i.agent = .isr ↔ i = .isr := by cases i <;> simp [Instr.agent]

theorem agent_telemetry {i : Instr} : i.agent = .telemetry ↔ ∃ x, i = .tread x := by
  cases i <;> simp [Instr.agent]

end Sys2Proof.Machine
end

