-- ==== Sys2Proof/Laws/Channel.lean ====
section
/-! SUPPORT. All that one micro-step of CHW and of CHR can do (43_channel.md R244, R245), said once, and what the
addresses of the channel's cells have to do with each other. -/

namespace Sys2Proof.Machine

/-! ## Cells -/

theorem idxByte_inj {i j : Idx} : idxByte i = idxByte j ↔ i = j := by
  revert i j
  decide

theorem slotAddr_inj {i j : Idx} {f : Nat} : slotAddr i f = slotAddr j f ↔ i = j := by
  simp [slotAddr, BitVec.toNat_inj]

theorem slotAddr_fields_ne (i j : Idx) : slotAddr i 0 ≠ slotAddr j 1 := by
  unfold slotAddr
  omega

theorem slotAddr_ne_index (i : Idx) {f : Nat} (hf : f < 2) :
    slotAddr i f ≠ writeIdxAddr ∧ slotAddr i f ≠ readIdxAddr := by
  have := i.isLt
  unfold slotAddr writeIdxAddr readIdxAddr
  omega

/-! ## CHW and CHR -/

/-- All that one micro-step of CHW can do (R244). -/
theorem execChw_cases {s t : State} (h : exec .chw s = .next t) :
    (s.wr.pos = .w1 ∧ ∃ r w, s.ch.byteAt readIdxAddr = idxByte r ∧ s.ch.byteAt writeIdxAddr = idxByte w ∧
      t = { s with wr := { s.wr with pos := .w2, wt := 1 - r, wcons := r == w } }) ∨
    (s.wr.pos = .w2 ∧ t = { s with wr := { writerValues s.cfg.latch s.snap1 s.snap2 s.wr with pos := .w3 } }) ∨
    (s.wr.pos = .w3 ∧
      t = { s with ch := s.ch.setByte (slotAddr s.wr.wt 0) s.wr.wv1, wr := { s.wr with pos := .w4 } }) ∨
    (s.wr.pos = .w4 ∧
      t = { s with ch := s.ch.setByte (slotAddr s.wr.wt 1) s.wr.wv2, wr := { s.wr with pos := .w5 } }) ∨
    (s.wr.pos = .w5 ∧ t = { s with wr := { s.wr with pos := .w6 } }) ∨
    (s.wr.pos = .w6 ∧
      t = { s with ch := s.ch.setByte writeIdxAddr (idxByte s.wr.wt), wr := { s.wr with pos := .w1 } }) := by
  simp only [exec, execChw] at h
  split at h <;> rename_i hp
  · simp only [chReadIdx_next] at h
    obtain ⟨_, r, hr, _, w, hw, h⟩ := h
    cases h
    exact .inl ⟨hp, r, w, hr, hw, rfl⟩
  · cases h
    exact .inr (.inl ⟨hp, rfl⟩)
  · obtain ⟨_, h⟩ := chWrite_next.mp h
    cases h
    exact .inr (.inr (.inl ⟨hp, rfl⟩))
  · obtain ⟨_, h⟩ := chWrite_next.mp h
    cases h
    exact .inr (.inr (.inr (.inl ⟨hp, rfl⟩)))
  · cases h
    exact .inr (.inr (.inr (.inr (.inl ⟨hp, rfl⟩))))
  · obtain ⟨_, h⟩ := chWrite_next.mp h
    cases h
    exact .inr (.inr (.inr (.inr (.inr ⟨hp, rfl⟩))))

/-- All that one micro-step of CHR can do (R245). -/
theorem execChr_cases {s t : State} (h : exec .chr s = .next t) :
    (s.mpc = .r1 ∧ ∃ i, s.ch.byteAt writeIdxAddr = idxByte i ∧ t = stepTo .r2 { s with ridx := i }) ∨
    (s.mpc = .r2 ∧ t = stepTo .r3 s) ∨
    (s.mpc = .r3 ∧ t = stepTo .r4 { s with b1 := s.ch.byteAt (slotAddr s.ridx 0) }) ∨
    (s.mpc = .r4 ∧ t = stepTo .r5 { s with b2 := s.ch.byteAt (slotAddr s.ridx 1) }) ∨
    (s.mpc = .r5 ∧ t = done .ok (cleanSnapshot { s with ch := s.ch.setByte readIdxAddr (idxByte s.ridx) })) := by
  simp only [exec, execChr] at h
  split at h <;> rename_i hm
  · obtain ⟨_, i, hi, h⟩ := chReadIdx_next.mp h
    cases h
    exact .inl ⟨hm, i, hi, rfl⟩
  · cases h
    exact .inr (.inl ⟨hm, rfl⟩)
  · obtain ⟨_, h⟩ := chRead_next.mp h
    cases h
    exact .inr (.inr (.inl ⟨hm, rfl⟩))
  · obtain ⟨_, h⟩ := chRead_next.mp h
    cases h
    exact .inr (.inr (.inr (.inl ⟨hm, rfl⟩)))
  · obtain ⟨_, h⟩ := chWrite_next.mp h
    cases h
    exact .inr (.inr (.inr (.inr ⟨hm, rfl⟩)))
  · cases h

end Sys2Proof.Machine
end

