-- ==== Sys2Proof/Laws/Host.lean ====
section
/-! SUPPORT. What the clauses of the well-behaved host say together (60_exceptions.md R297 (d), (f)). -/

namespace Sys2Proof.Machine

variable {σ : Nat → State} {τ : Nat → Turn} {bytes : List Byte} {a e : Nat} {fall rise : Nat → Nat}

theorem framesServed_le_length (bytes : List Byte) : framesServed bytes ≤ bytes.length := by
  unfold framesServed
  split <;> omega

theorem pulseWithin.mono {m n k : Nat} (h : pulseWithin σ m n) (hk : n ≤ k) : pulseWithin σ m k := by
  obtain ⟨i, j, hi, hj, hn, low, rel⟩ := h
  exact ⟨i, j, hi, hj, hn.trans hk, low, rel⟩

/-- R297 (d), second sentence: a frame the device takes part in, with no pulse after it, is the last of them, and HOST
ends the transaction by raising SEL_N at the end of the window. -/
theorem WellBehaved.ends_of_no_pulse (h : WellBehaved σ τ bytes a e fall rise) {f : Nat} (hf : f < framesServed bytes)
    (hp : ¬ pulseWithin σ (rise (8 * f + 7)) e) :
    f + 1 = framesServed bytes ∧ rise (8 * f + 7) < e ∧ ∃ p, τ e = .host p ∧ p.selN = true := by
  have hl := framesServed_le_length bytes
  refine ⟨?_, (h.order.1 _ (by omega)).2.2, h.ended⟩
  by_contra hne
  obtain ⟨-, up, last⟩ := h.order.1 (8 * (f + 1)) (by omega)
  exact hp ((h.pulse f (by omega)).mono (by omega))

/-- Where the device takes part in every frame, no CLK edge, and so no further frame, comes between the last frame and
the end of the transaction (entry 25, DESIGN CHOICE). -/
theorem WellBehaved.clk_still_after_last (h : WellBehaved σ τ bytes a e fall rise)
    (hs : framesServed bytes = bytes.length) {m : Nat} (ha : a ≤ m)
    (hm : ∀ k, k < 8 * framesServed bytes → rise k < m) (he : m < e) :
    (σ m).pins.clk = (σ (m + 1)).pins.clk := by
  by_contra hne
  obtain ⟨k, hk, hkm⟩ := (h.edges m ha he (.inl hs)).1 hne
  have h1 := hm k hk
  have h2 := (h.order.1 k (by omega)).2.1
  omega

/-- A poll that reaches its level at an edge wait is one that `pollEdge` finds reached, whatever the bound. -/
theorem pollReaches_edge {s : State} {i : Instr} {l : Bool} (hi : currentOp s = some i)
    (hl : awaitedLevel i s.mpc = some l) : pollReaches s = true ↔ ∀ bound, pollEdge l bound s = .reached := by
  simp only [pollReaches, hi, hl, pollEdge]
  constructor
  · simp +contextual
  · intro h
    have h0 := h 0
    split at h0
    · cases h0
    · split at h0
      · simp_all
      · split at h0 <;> cases h0

/-- R297 (f): while the wait is polled, no micro-step of ENGINE at it ends it otherwise. At the position where ENGINE
leaves the poll, it has seen the awaited level. -/
theorem WellBehaved.leaves_by_level (h : WellBehaved σ τ bytes a e fall rise) {m : Nat} (hm : servesWindow σ a e m)
    (hp : pollsHost (σ m) = true) (hne : (σ (m + 1)).mpc ≠ (σ m).mpc) :
    engineSteps σ τ m ∧ pollReaches (σ m) = true := by
  obtain ⟨k, hk, same, steps, reached⟩ := h.waitsEnd m hm hp
  by_cases hkm : k = m
  · exact hkm ▸ ⟨steps, reached⟩
  · exact absurd (same (m + 1) (by omega) (by omega)) hne

end Sys2Proof.Machine
end

