-- ==== Sys2Proof/Laws/PerInstr.lean ====
section
/-! SUPPORT. Laws stated once for each instruction: its encoding is its row of spec/opcode_table.json. -/

namespace Sys2Proof.Laws.TableRow

/-- A row of the table: how many bits it has, their fixed value and which of them are fixed. -/
structure Row where
  nbits : Nat
  fixed : Nat
  mask : Nat
  deriving DecidableEq, Repr

/-- The row of each instruction, as the table gives it (30_encoding.md R113, R117). -/
def row : Instr → Row
  | .idlewait => ⟨16, 0x0001, 0xFFFF⟩
  | .start => ⟨16, 0x0002, 0xFFFF⟩
  | .rx => ⟨16, 0x0003, 0xFFFF⟩
  | .dispatch => ⟨16, 0x0004, 0xFFFF⟩
  | .ack => ⟨16, 0x0005, 0xFFFF⟩
  | .delay _ => ⟨16, 0x0006, 0xFCFF⟩
  | .xferi _ => ⟨16, 0x0007, 0x00FF⟩
  | .xferr _ => ⟨16, 0x0008, 0xFEFF⟩
  | .calobs _ => ⟨16, 0x0009, 0xFEFF⟩
  | .cmdchk => ⟨16, 0x000A, 0xFFFF⟩
  | .stpoll => ⟨16, 0x000B, 0xFFFF⟩
  | .chr => ⟨16, 0x000C, 0xFFFF⟩
  | .endTxn => ⟨16, 0x000D, 0xFFFF⟩
  | .mcwait => ⟨16, 0x000E, 0xFFFF⟩
  | .abort => ⟨16, 0x000F, 0xFFFF⟩
  | .txi _ => ⟨16, 0x0010, 0x00FF⟩
  | .txr _ => ⟨16, 0x0011, 0xFEFF⟩
  | .waitf _ => ⟨16, 0x0012, 0xFEFF⟩
  | .waitr _ => ⟨16, 0x0013, 0xFEFF⟩
  | .relbus => ⟨16, 0x0014, 0xFFFF⟩
  | .caltick => ⟨16, 0x0015, 0xFFFF⟩
  | .chw => ⟨16, 0x0020, 0xFFFF⟩
  | .isr => ⟨16, 0x0030, 0xFFFF⟩
  | .tread _ => ⟨16, 0x0031, 0x00FF⟩
  | .addrController => ⟨8, 0x01, 0xFF⟩
  | .addrMemcard => ⟨8, 0x81, 0xFF⟩
  | .addrSentinel => ⟨8, 0xFF, 0xFF⟩
  | .addrIgnored _ => ⟨8, 0x00, 0x00⟩
  | .addrInvalid _ => ⟨8, 0x00, 0x00⟩
  | .cmdPoll => ⟨8, 0x42, 0xFF⟩
  | .cmdSentinel => ⟨8, 0xFF, 0xFF⟩
  | .cmdOther _ => ⟨8, 0x00, 0x00⟩
  | .idLow => ⟨8, 0x41, 0xFF⟩
  | .idHigh => ⟨8, 0x5A, 0xFF⟩

/-- The encoding has the row's width and its fixed bits. -/
def Statement (i : Instr) : Prop :=
  match encode i with
  | .word w => (row i).nbits = 16 ∧ w.toNat &&& (row i).mask = (row i).fixed
  | .wire _ b => (row i).nbits = 8 ∧ b.toNat &&& (row i).mask = (row i).fixed

/-- The opcode byte of a word with any immediate. -/
theorem low_xferi : ∀ v : Byte, (mkWord 0x07 v).toNat &&& 0x00FF = 0x0007 := by decide

theorem low_txi : ∀ v : Byte, (mkWord 0x10 v).toNat &&& 0x00FF = 0x0010 := by decide

theorem idlewait : Statement .idlewait := ⟨rfl, rfl⟩

theorem start : Statement .start := ⟨rfl, rfl⟩

theorem rx : Statement .rx := ⟨rfl, rfl⟩

theorem dispatch : Statement .dispatch := ⟨rfl, rfl⟩

theorem ack : Statement .ack := ⟨rfl, rfl⟩

theorem delay (d : DelaySel) : Statement (.delay d) := by
  cases d <;> exact ⟨rfl, rfl⟩

theorem xferi (v : Byte) : Statement (.xferi v) := ⟨rfl, low_xferi v⟩

theorem xferr (r : ButtonReg) : Statement (.xferr r) := by
  cases r <;> exact ⟨rfl, rfl⟩

theorem calobs (o : ObsSel) : Statement (.calobs o) := by
  cases o <;> exact ⟨rfl, rfl⟩

theorem cmdchk : Statement .cmdchk := ⟨rfl, rfl⟩

theorem stpoll : Statement .stpoll := ⟨rfl, rfl⟩

theorem chr : Statement .chr := ⟨rfl, rfl⟩

theorem endTxn : Statement .endTxn := ⟨rfl, rfl⟩

theorem mcwait : Statement .mcwait := ⟨rfl, rfl⟩

theorem abort : Statement .abort := ⟨rfl, rfl⟩

theorem txi (v : Byte) : Statement (.txi v) := ⟨rfl, low_txi v⟩

theorem txr (r : ButtonReg) : Statement (.txr r) := by
  cases r <;> exact ⟨rfl, rfl⟩

theorem waitf (t : TimeoutSel) : Statement (.waitf t) := by
  cases t <;> exact ⟨rfl, rfl⟩

theorem waitr (t : TimeoutSel) : Statement (.waitr t) := by
  cases t <;> exact ⟨rfl, rfl⟩

theorem relbus : Statement .relbus := ⟨rfl, rfl⟩

theorem caltick : Statement .caltick := ⟨rfl, rfl⟩

theorem chw : Statement .chw := ⟨rfl, rfl⟩

theorem isr : Statement .isr := ⟨rfl, rfl⟩

theorem tread (x : TelReg) : Statement (.tread x) := by
  cases x <;> exact ⟨rfl, rfl⟩

theorem addrController : Statement .addrController := ⟨rfl, rfl⟩

theorem addrMemcard : Statement .addrMemcard := ⟨rfl, rfl⟩

theorem addrSentinel : Statement .addrSentinel := ⟨rfl, rfl⟩

theorem addrIgnored (b : Byte) : Statement (.addrIgnored b) := ⟨rfl, Nat.and_zero _⟩

theorem addrInvalid (b : Byte) : Statement (.addrInvalid b) := ⟨rfl, Nat.and_zero _⟩

theorem cmdPoll : Statement .cmdPoll := ⟨rfl, rfl⟩

theorem cmdSentinel : Statement .cmdSentinel := ⟨rfl, rfl⟩

theorem cmdOther (b : Byte) : Statement (.cmdOther b) := ⟨rfl, Nat.and_zero _⟩

theorem idLow : Statement .idLow := ⟨rfl, rfl⟩

theorem idHigh : Statement .idHigh := ⟨rfl, rfl⟩

end Sys2Proof.Laws.TableRow
end

