-- ==== Sys2Proof/Tests/Slice0.lean ====
section
/-! SUPPORT. Tests of one step each, with results taken by hand from the rules or from a vector of
95_test_vectors.md (named in the docstring), and a witness for the hypotheses of every statement. -/

namespace Sys2Proof.Tests

open Sys2Proof.Machine

/-! ## Small states -/

/-- All lines idle, select high. -/
def quietPins : Pins := ⟨true, true, false, true, true⟩

/-- The parameters V with the calibrator enabled. -/
def calParams : Params := ⟨{ Params.standIn.toRawParams with calEnable := true }, by decide⟩

/-- The parameters V in Latching mode. -/
def latchParams : Params := ⟨{ Params.standIn.toRawParams with latch := true }, by decide⟩

/-- The machine after reset with parameters V. -/
def idle : State := State.atReset Params.standIn quietPins

/-- ENGINE in a transaction, with select low and CLK high. -/
def busy (pc : Pc) (m : Mpc) : State :=
  { idle with pc := pc, mpc := m, active := true, pins := { quietPins with selN := false } }

/-- ENGINE in the one-line test program of a word (95_test_vectors.md, test programs). -/
def alone (w : OpWord) (m : Mpc) : State :=
  { busy 0 m with store := [{ word := w, dest := .none, succs := [(.ok, 1), (.fail, 2)] }] }

/-- WRITER at a micro-step. -/
def writerAt (pos : WriterPos) : State := { idle with wr := { Writer.atReset with pos := pos } }

/-- What a step that goes on left in one place. -/
def got {α : Type} (o : Host.Outcome State Fault Refusal) (f : State → α) : Option α :=
  match o with
  | .next s => some (f s)
  | .fault _ => none
  | .refused _ => none

/-- Why a step was refused. -/
def refusal (o : Host.Outcome State Fault Refusal) : Option Refusal :=
  match o with
  | .next _ => none
  | .fault _ => none
  | .refused r => some r

/-- Why a step faulted. -/
def faultOf (o : Host.Outcome State Fault Refusal) : Option Fault :=
  match o with
  | .next _ => none
  | .fault r => some r
  | .refused _ => none

/-- The state after a turn, or the state itself where the turn stops. -/
def after (o : Host.Outcome State Fault Refusal) (s : State) : State :=
  match o with
  | .next t => t
  | .fault _ => s
  | .refused _ => s

/-- The run of a schedule from a state. -/
def trace (τ : Nat → Turn) (s : State) (n : Nat) : State :=
  match n with
  | 0 => s
  | n + 1 => after (takeTurn (τ n) (trace τ s n)) (trace τ s n)

theorem trace_next {τ : Nat → Turn} {s : State} {n : Nat}
    (h : (got (takeTurn (τ n) (trace τ s n)) fun _ => ()) = some ()) :
    takeTurn (τ n) (trace τ s n) = .next (trace τ s (n + 1)) := by
  rw [trace]
  cases ho : takeTurn (τ n) (trace τ s n) with
  | next t => rfl
  | fault r => simp [got, ho] at h
  | refused r => simp [got, ho] at h

/-! ## Well-formedness: terms that the check refuses -/

theorem test_wf_ignored_not_listed : (Instr.addrIgnored 0x04).wf [0x03] = false := by decide
theorem test_wf_ignored_named : (Instr.addrIgnored 0x01).wf [0x01] = false := by decide
theorem test_wf_invalid_listed : (Instr.addrInvalid 0x03).wf [0x03] = false := by decide
theorem test_wf_invalid_named : (Instr.addrInvalid 0x81).wf [0x03] = false := by decide
theorem test_wf_other_poll : (Instr.cmdOther 0x42).wf [0x03] = false := by decide
theorem test_wf_other_sentinel : (Instr.cmdOther 0xFF).wf [0x03] = false := by decide

/-! ## Decoding: words written out bit by bit from 30_encoding.md R113 and R117 -/

theorem test_decode_idlewait : decodeWord 0b0000000000000001 = .ok .idlewait := by decide
theorem test_decode_start : decodeWord 0b0000000000000010 = .ok .start := by decide
theorem test_decode_rx : decodeWord 0b0000000000000011 = .ok .rx := by decide
theorem test_decode_dispatch : decodeWord 0b0000000000000100 = .ok .dispatch := by decide
theorem test_decode_ack : decodeWord 0b0000000000000101 = .ok .ack := by decide
theorem test_decode_delay : decodeWord 0b0000000100000110 = .ok (.delay .ackdly) := by decide
theorem test_decode_xferi : decodeWord 0b0101101000000111 = .ok (.xferi 0x5A) := by decide
theorem test_decode_xferr : decodeWord 0b0000000100001000 = .ok (.xferr .b2) := by decide
theorem test_decode_calobs : decodeWord 0b0000000000001001 = .ok (.calobs .fail) := by decide
theorem test_decode_cmdchk : decodeWord 0b0000000000001010 = .ok .cmdchk := by decide
theorem test_decode_stpoll : decodeWord 0b0000000000001011 = .ok .stpoll := by decide
theorem test_decode_chr : decodeWord 0b0000000000001100 = .ok .chr := by decide
theorem test_decode_end : decodeWord 0b0000000000001101 = .ok .endTxn := by decide
theorem test_decode_mcwait : decodeWord 0b0000000000001110 = .ok .mcwait := by decide
theorem test_decode_abort : decodeWord 0b0000000000001111 = .ok .abort := by decide
theorem test_decode_txi : decodeWord 0b0100000100010000 = .ok (.txi 0x41) := by decide
theorem test_decode_txr : decodeWord 0b0000000000010001 = .ok (.txr .b1) := by decide
theorem test_decode_waitf : decodeWord 0b0000000000010010 = .ok (.waitf .edge) := by decide
theorem test_decode_waitr : decodeWord 0b0000000100010011 = .ok (.waitr .byte) := by decide
theorem test_decode_relbus : decodeWord 0b0000000000010100 = .ok .relbus := by decide
theorem test_decode_caltick : decodeWord 0b0000000000010101 = .ok .caltick := by decide
theorem test_decode_chw : decodeWord 0b0000000000100000 = .ok .chw := by decide
theorem test_decode_isr : decodeWord 0b0000000000110000 = .ok .isr := by decide
theorem test_decode_tread : decodeWord 0b0000101000110001 = .ok (.tread .calPulse) := by decide
theorem test_decode_addr_controller : decode [0x03] (.wire .address 0b00000001) = .ok .addrController := by decide
theorem test_decode_addr_memcard : decode [0x03] (.wire .address 0b10000001) = .ok .addrMemcard := by decide
theorem test_decode_addr_sentinel : decode [0x03] (.wire .address 0b11111111) = .ok .addrSentinel := by decide
theorem test_decode_addr_ignored : decode [0x03] (.wire .address 0b00000011) = .ok (.addrIgnored 0x03) := by decide
theorem test_decode_addr_invalid : decode [0x03] (.wire .address 0b01010101) = .ok (.addrInvalid 0x55) := by decide
theorem test_decode_cmd_poll : decode [0x03] (.wire .command 0b01000010) = .ok .cmdPoll := by decide
theorem test_decode_cmd_sentinel : decode [0x03] (.wire .command 0b11111111) = .ok .cmdSentinel := by decide
theorem test_decode_cmd_other : decode [0x03] (.wire .command 0b01000011) = .ok (.cmdOther 0x43) := by decide
theorem test_decode_id_low : decode [0x03] (.wire .transmit 0b01000001) = .ok .idLow := by decide
theorem test_decode_id_high : decode [0x03] (.wire .transmit 0b01011010) = .ok .idHigh := by decide

/-- 30_encoding.md R118: reserved words, and E9 of the vectors. -/
theorem test_decode_reserved :
    decodeWord 0x0306 = .error (.operand 0x06 0x03) ∧ decodeWord 0x0101 = .error (.operand 0x01 0x01) ∧
    decodeWord 0x0016 = .error (.opcode 0x16) ∧ decodeWord 0x0000 = .error (.opcode 0x00) ∧
    decodeWord 0x0E31 = .error (.operand 0x31 0x0E) := by decide

/-- The host's entry points on one row of each kind. -/
theorem test_decodeTableWord :
    decodeTableWord 16 0x5A07 = some (.xferi 0x5A) ∧ decodeTableWord 16 0x0306 = none ∧
    decodeTableWord 8 0x42 = some .cmdPoll ∧ decodeTableWord 8 0xFF = some .addrSentinel ∧
    decodeTableWord 8 0x5A = some .idHigh ∧ decodeTableWord 8 0x81 = some .addrMemcard := by decide

/-- A placed word is what the next step runs: RX's x0 clears `R.rx` and stands at x1 after it. -/
theorem test_withFetchWord_engine :
    got (step (idle.withFetchWord 16 0x0003)) (fun t => t.mpc) = some (.x1 .w0) ∧
    got (step (idle.withFetchWord 16 0x0020)) (fun t => t.wr.pos) = some .w2 ∧
    got (step ((busy 5 .d0).withFetchWord 16 0x0030)) (fun t => t.active) = some false ∧
    got (step (idle.withFetchWord 16 0x0A31)) (fun t => t.telPort) = some (some 6) ∧
    refusal (step (idle.withFetchWord 16 0x0E31)) = some (.reservedWord (.operand 0x31 0x0E)) := by decide

/-- A placed wire byte is what the next step acts on. -/
theorem test_withFetchWord_wire :
    got (step (idle.withFetchWord 8 0x01)) (fun t => t.pc) = some 4 ∧
    got (step (idle.withFetchWord 8 0xFF)) (fun t => t.pc) = some 19 ∧
    got (step (idle.withFetchWord 8 0x42)) (fun t => t.pc) = some 9 ∧
    got (step (idle.withFetchWord 8 0x5A)) (fun t => t.tx) = some 0x5A := by decide

/-! ## Instructions -/

/-- B1: select low at reset starts nothing. -/
theorem test_idlewait_needs_high :
    got (exec .idlewait { busy 0 .i0 with active := false }) (fun t => (t.pc, t.mpc, t.st.total)) =
      some (0, .i0, 0) := by decide

/-- B2, B3: after the debounce a low select starts a transaction, a high one does not. -/
theorem test_idlewait_recheck :
    got (exec .idlewait (busy 0 .i2)) (fun t => (t.pc, t.mpc)) = some (1, .s0) ∧
    got (exec .idlewait { idle with mpc := .i2 }) (fun t => (t.pc, t.mpc, t.selSeenHigh)) =
      some (0, .i0, true) := by decide

/-- B4: the total wraps. -/
theorem test_start_wraps :
    got (exec .start { idle with pc := 1, mpc := .s0, st := { Stats.atReset with total := 0xFFFFFFFF } })
      (fun t => (t.st.total, t.active, t.pc, t.mpc)) = some (0, true, 2, .x0) := by decide

/-- A10: bit 0 times out on P_BYTE_TIMEOUT, at 200 ticks and not at 199. -/
theorem test_rx_byte_timeout :
    got (exec .rx { busy 2 (.x1 .w1) with now := 200 }) (fun t => (t.mpc, t.failReason)) = some (.xf, .timeout) ∧
    got (exec .rx { busy 2 (.x1 .w1) with now := 199 }) (fun t => (t.mpc, t.failReason)) =
      some (.x1 .w1, .none) := by decide

/-- A8, L1-9: a complete 0xFF fails with no reason, and `R.addr` receives it. -/
theorem test_rx_sentinel :
    got (exec .rx { busy 2 .x3 with rx := 0x7F, bit := 7, pins := ⟨false, true, true, true, true⟩ })
      (fun t => (t.pc, t.rx, t.addr, t.failReason)) = some (19, 0xFF, 0xFF, .none) := by decide

/-- B5, B8. -/
theorem test_dispatch :
    got (exec .dispatch { busy 3 .p0 with addr := 0x01 }) (fun t => (t.pc, t.st.controller)) = some (4, 1) ∧
    got (exec .dispatch { busy 3 .p0 with addr := 0x55 })
      (fun t => (t.pc, t.st.invalid, t.st.lastInvAddr)) = some (17, 1, 0x55) := by decide

/-- B6, B7: neither counts as invalid. -/
theorem test_dispatch_silent :
    got (exec .dispatch { busy 3 .p0 with addr := 0x81 })
      (fun t => (t.pc, t.st.memcard, t.st.invalid)) = some (18, 1, 0) ∧
    got (exec .dispatch { busy 3 .p0 with addr := 0x03 }) (fun t => (t.pc, t.st)) =
      some (17, Stats.atReset) := by decide

/-- A21: the abort stands before the mask. -/
theorem test_ack_aborts :
    got (exec .ack { busy 4 .a2 with pins := quietPins })
      (fun t => (t.pc, t.failReason, t.ackDrv, t.irqEnabled)) = some (20, .abort, .rel, true) := by decide

/-- A22: the drain at a6. -/
theorem test_ack_drains :
    got (exec .ack { busy 4 .a6 with ackDrv := .low, irqEnabled := false, irqPending := true })
      (fun t => (t.pc, t.ackDrv, t.irqEnabled, t.irqPending, t.active)) =
      some (5, .rel, true, false, true) := by decide

/-- A26: elapsed time wraps. -/
theorem test_delay_wraps :
    got (exec (.delay .post) { busy 5 .d1 with start := 0xFFFFFFFF, now := 0 }) (fun t => t.pc) = some 5 ∧
    got (exec (.delay .post) { busy 5 .d1 with start := 0xFFFFFFFF, now := 1 }) (fun t => t.pc) = some 6 := by
  decide

/-- A28: DELAY never tests abort. -/
theorem test_delay_ignores_abort :
    got (exec (.delay .debounce) { alone 0x0206 .d1 with pins := quietPins, now := 1 })
      (fun t => (t.pc, t.failReason)) = some (0, .none) ∧
    got (exec (.delay .debounce) { alone 0x0206 .d1 with pins := quietPins, now := 2 })
      (fun t => (t.pc, t.failReason)) = some (1, .none) := by decide

/-- A15: 0x41 is R L L L L L R L, and bit i is sampled before it is driven. -/
theorem test_xferi_bits :
    got (exec (.xferi 0x41) { busy 6 .y3 with tx := 0x41, bit := 1 }) (fun t => (t.datDrv, t.mpc)) =
      some (.low, .y4 .w0) ∧
    got (exec (.xferi 0x41) { busy 6 .y2 with bit := 6, pins := ⟨false, false, true, true, true⟩ })
      (fun t => (t.rx, t.datDrv)) = some (0x40, .rel) := by decide

/-- A17: a timeout makes 0xFF and releases DAT. -/
theorem test_xferi_fails :
    got (exec (.xferi 0x41) { busy 6 .yf with datDrv := .low, failReason := .timeout })
      (fun t => (t.pc, t.rx, t.cmd, t.datDrv)) = some (7, 0xFF, 0xFF, .rel) := by decide

/-- A18: the register is read at y0. -/
theorem test_xferr_reads :
    got (exec (.xferr .b1) { busy 14 .y0 with b1 := 0x6F, b2 := 0xBF }) (fun t => t.tx) = some 0x6F ∧
    got (exec (.xferr .b2) { busy 16 .y0 with b1 := 0x6F, b2 := 0xBF }) (fun t => t.tx) = some 0xBF := by decide

/-- CA14: an arrival after an idle period resets first. -/
theorem test_calobs_idle :
    got (exec (.calobs .cmd) { busy 7 .c0 with
      cfg := calParams, cmd := 0x42, now := 500000,
      cal := { Calibrator.atReset calParams with hasSeen := true, locked := true, pulse := 2 } })
      (fun t => (t.cal.locked, t.cal.winAtt, t.cal.winSucc, t.cal.pulse, t.cal.lastSeen)) =
      some (false, 1, 1, 6, 500000) := by decide

/-- CA12b: the second success closes the window, records (6, 0) at 2/2 and moves to (6, 2). -/
theorem test_calobs_closes :
    got (exec (.calobs .cmd) { busy 7 .c0 with
      cfg := calParams, cmd := 0x42, now := 9,
      cal := { Calibrator.atReset calParams with sweepStarted := true, winAtt := 1, winSucc := 1 } })
      (fun t => ((t.cal.post, t.cal.bestValid, t.cal.winAtt),
        (t.cal.bestPulse, t.cal.bestPost, t.cal.bestSucc, t.cal.bestAtt))) =
      some ((2, true, 0), (6, 0, 2, 2)) := by decide

/-- B12, B13. -/
theorem test_cmdchk :
    got (exec .cmdchk { busy 8 .k0 with cmd := 0x43 })
      (fun t => (t.pc, t.st.invalid, t.st.lastInvCmd)) = some (17, 1, 0x43) ∧
    got (exec .cmdchk { busy 8 .k0 with cmd := 0xFF }) (fun t => (t.pc, t.st)) =
      some (19, Stats.atReset) := by decide

/-- E1. -/
theorem test_stpoll_first :
    got (exec .stpoll { busy 9 .sp0 with now := 100 })
      (fun t => (t.st.pollLast, t.st.pollHasPrev, t.st.pollMin, t.st.pollCnt)) =
      some (100, true, 0xFFFFFFFF, 0) := by decide

/-- E3. -/
theorem test_stpoll_mean :
    got (exec .stpoll { busy 9 .sp0 with
      now := 32767
      st := { Stats.atReset with
        pollLast := 16100, pollHasPrev := true, pollMin := 16000, pollMax := 16000, pollSum := 16000,
        pollCnt := 1, pollAvg := 16000 } })
      (fun t => (t.st.pollMin, t.st.pollMax, t.st.pollSum, t.st.pollCnt, t.st.pollAvg)) =
      some (16000, 16667, 32667, 2, 16333) := by decide

/-- C2: r4 reads field 2 of the latched slot. -/
theorem test_chr_loads :
    got (exec .chr { busy 10 .r4 with ridx := 1, ch := [(2, 0xF7), (3, 0x33), (4, 0x01)] })
      (fun t => (t.b2, t.mpc)) = some (0x33, .r5) := by decide

/-- L1-4, L3-P3: r5 stores the index and cleans the copy, not the slot. -/
theorem test_chr_cleans :
    got (exec .chr { busy 10 .r5 with ridx := 1, b1 := 0x5F, b2 := 0xBF, ch := [(2, 0x5F), (3, 0xBF), (4, 0x01)] })
      (fun t => (t.b1, t.b2, t.ch)) = some (0xFF, 0xBF, [(2, 0x5F), (3, 0xBF), (4, 0x01), (5, 0x01)]) := by decide

/-- END. -/
theorem test_end :
    got (exec .endTxn { busy 17 .e0 with datDrv := .low, ackDrv := .low })
      (fun t => (t.pc, t.datDrv, t.ackDrv, t.active)) = some (0, .rel, .rel, false) := by decide

/-- B6: the wait stutters while select is low, and ends when it rises. -/
theorem test_mcwait :
    got (exec .mcwait { busy 18 .m1 with now := 0x40000000 }) (fun t => (t.pc, t.mpc)) = some (18, .m1) ∧
    got (exec .mcwait { busy 18 .m1 with pins := quietPins }) (fun t => (t.pc, t.failReason)) =
      some (17, .none) := by decide

/-- B10, B11. -/
theorem test_abort :
    got (exec .abort { busy 19 .b0 with failReason := .timeout }) (fun t => (t.pc, t.st.timeout, t.active)) =
      some (0, 1, false) ∧
    got (exec .abort { busy 19 .b0 with failReason := .abort }) (fun t => (t.pc, t.st.timeout, t.active)) =
      some (0, 0, false) := by decide

/-- A11, A14. -/
theorem test_txi :
    got (exec (.txi 0x41) (alone 0x4110 .t0)) (fun t => (t.tx, t.mpc)) = some (0x41, .t1 .w0) ∧
    got (exec (.txi 0x41) { alone 0x4110 .tf with datDrv := .low }) (fun t => (t.datDrv, t.pc)) =
      some (.rel, 2) := by decide

/-- TXR reads its register at t0. -/
theorem test_txr :
    got (exec (.txr .b2) { alone 0x0111 .t0 with b1 := 0x6F, b2 := 0xBF }) (fun t => t.tx) = some 0xBF := by decide

/-- A6: the bound is reached exactly at 100 ticks, across the wrap. -/
theorem test_waitf_timeout :
    got (exec (.waitf .edge) { alone 0x0012 (.w .w1) with start := 0xFFFFFFF0, now := 0x53 })
      (fun t => (t.pc, t.failReason)) = some (0, .none) ∧
    got (exec (.waitf .edge) { alone 0x0012 (.w .w1) with start := 0xFFFFFFF0, now := 0x54 })
      (fun t => (t.pc, t.failReason)) = some (2, .timeout) := by decide

/-- A3, A4: level beats timeout, and abort beats level. -/
theorem test_waitf_priority :
    got (exec (.waitf .edge) { alone 0x0012 (.w .w1) with now := 150, pins := ⟨false, false, false, true, true⟩ })
      (fun t => (t.pc, t.failReason)) = some (1, .none) ∧
    got (exec (.waitf .edge) { alone 0x0012 (.w .w1) with pins := ⟨true, false, false, true, true⟩ })
      (fun t => (t.pc, t.failReason)) = some (2, .abort) := by decide

/-- A5: a cleared `R.active` aborts with select low. -/
theorem test_waitr_abort :
    got (exec (.waitr .edge) { alone 0x0013 (.w .w1) with
      active := false, pins := ⟨false, false, false, true, true⟩ })
      (fun t => (t.pc, t.failReason)) = some (2, .abort) := by decide

/-- A25. -/
theorem test_relbus :
    got (exec .relbus { alone 0x0014 .rb0 with datDrv := .low }) (fun t => (t.datDrv, t.ackDrv, t.pc)) =
      some (.rel, .rel, 1) := by decide

/-- L1-8: the idle reset comes at 500 000 ticks and not a tick before. -/
theorem test_caltick :
    got (exec .caltick { alone 0x0015 .ct0 with
      cfg := calParams, now := 508000,
      cal := { Calibrator.atReset calParams with hasSeen := true, lastSeen := 8000, locked := true, pulse := 2 } })
      (fun t => (t.cal.locked, t.cal.pulse, t.cal.hasSeen)) = some (false, 6, false) ∧
    got (exec .caltick { alone 0x0015 .ct0 with
      cfg := calParams, now := 507999,
      cal := { Calibrator.atReset calParams with hasSeen := true, lastSeen := 8000, locked := true, pulse := 2 } })
      (fun t => (t.cal.locked, t.cal.pulse, t.cal.hasSeen)) = some (true, 2, true) := by decide

/-- C2: an unconsumed publication is overwritten in its own slot. -/
theorem test_chw_target :
    got (exec .chw { writerAt .w1 with ch := [(4, 0x01)] }) (fun t => (t.wr.wt, t.wr.wcons, t.wr.pos)) =
      some (1, false, .w2) ∧
    got (exec .chw (writerAt .w1)) (fun t => (t.wr.wt, t.wr.wcons)) = some (1, true) := by decide

/-- C3: Latching mode accumulates presses. -/
theorem test_chw_accumulates :
    got (exec .chw { writerAt .w2 with
      cfg := latchParams, snap1 := 0xFE, snap2 := 0xFF, wr := { Writer.atReset with pos := .w2, acc1 := 0xEF } })
      (fun t => (t.wr.wv1, t.wr.wv2, t.wr.acc1)) = some (0xEE, 0xFF, 0xEE) := by decide

/-- F1, B17: the handler releases both lines and cancels, and ENGINE stays where it was. -/
theorem test_isr :
    got (exec .isr { busy 14 (.y4 .w1) with irqPending := true, datDrv := .low })
      (fun t => (t.irqPending, t.datDrv, t.active, t.pc, t.mpc)) =
      some (false, .rel, false, 14, .y4 .w1) := by decide

/-- E7. -/
theorem test_tread :
    got (exec (.tread .calPulse) idle) (fun t => t.telPort) = some (some 6) ∧
    got (exec (.tread .pollMin) idle) (fun t => t.telPort) = some (some 0xFFFFFFFF) := by decide

theorem test_addr_controller :
    got (exec .addrController (busy 3 .p0)) (fun t => (t.pc, t.st.controller)) = some (4, 1) := by decide

theorem test_addr_memcard :
    got (exec .addrMemcard (busy 3 .p0)) (fun t => (t.pc, t.st.memcard)) = some (18, 1) := by decide

theorem test_addr_sentinel :
    got (exec .addrSentinel (busy 2 .x3)) (fun t => (t.pc, t.addr)) = some (19, 0xFF) := by decide

theorem test_addr_ignored :
    got (exec (.addrIgnored 0x03) (busy 3 .p0)) (fun t => (t.pc, t.st)) = some (17, Stats.atReset) := by decide

theorem test_addr_invalid :
    got (exec (.addrInvalid 0x55) (busy 3 .p0)) (fun t => (t.pc, t.st.lastInvAddr)) = some (17, 0x55) := by decide

theorem test_cmd_poll : got (exec .cmdPoll (busy 8 .k0)) (fun t => t.pc) = some 9 := by decide

theorem test_cmd_sentinel :
    got (exec .cmdSentinel (busy 8 .k0)) (fun t => (t.pc, t.st)) = some (19, Stats.atReset) := by decide

theorem test_cmd_other :
    got (exec (.cmdOther 0x43) (busy 8 .k0)) (fun t => (t.pc, t.st.lastInvCmd)) = some (17, 0x43) := by decide

theorem test_id_low : got (exec .idLow (busy 6 .y0)) (fun t => t.tx) = some 0x41 := by decide

theorem test_id_high : got (exec .idHigh (busy 12 .y0)) (fun t => t.tx) = some 0x5A := by decide

/-! ## The rest of the machine -/

/-- 20_memory.md R83: CH has six cells. -/
theorem test_channel_address :
    refusal (chRead 6 idle fun _ => .next idle) = some (.channelAddress 6) ∧
    refusal (chWrite 6 0x00 idle fun t => .next t) = some (.channelAddress 6) := by decide

/-- A write of the reset value leaves no entry. -/
theorem test_memory_canonical :
    Memory.setByte [(2, 0x11)] 2 0xFF = [] ∧ Memory.setByte [(4, 0x01)] 0 0x00 = [(0, 0x00), (4, 0x01)] := by decide

/-- F3: an enabled interrupt comes before ENGINE, and a masked one does not. -/
theorem test_interrupt_first :
    got (takeTurn .engine { busy 5 .d0 with irqPending := true }) (fun t => (t.active, t.mpc)) =
      some (false, .d0) ∧
    got (takeTurn .engine { busy 4 .a4 with irqPending := true, irqEnabled := false })
      (fun t => (t.active, t.mpc)) = some (true, .a5) := by decide

/-- 60_exceptions.md R285: only a rise of select latches. -/
theorem test_host_edge :
    got (takeTurn (.host quietPins) (busy 5 .d0)) (fun t => t.irqPending) = some true ∧
    got (takeTurn (.host quietPins) idle) (fun t => t.irqPending) = some false := by decide

/-- 30_encoding.md R118: an operation of another agent's role is refused. -/
theorem test_wrong_agent :
    refusal (issue .engine 0x0020 idle) = some (.wrongAgent .writer .engine) ∧
    refusal (takeTurn (.telemetry 0x0003) idle) = some (.wrongAgent .engine .telemetry) := by decide

/-- 70_reset_and_hazards.md R323. -/
theorem test_boot_refuses :
    refusal (State.boot { Params.standIn.toRawParams with calStep := 0 } quietPins) = some .badParameters ∧
    refusal (State.boot { Params.standIn.toRawParams with ignoreSet := [0x01] } quietPins) =
      some .badParameters := by decide

/-- L1-4 and the table of L2-D. -/
theorem test_socd :
    socd Params.standIn 0x00 0x00 = (0xF0, 0x00) ∧ socd Params.standIn 0xAF 0x12 = (0xFF, 0x12) ∧
    socd Params.standIn 0x5F 0xAA = (0xFF, 0xAA) ∧ socd Params.standIn 0x30 0x00 = (0x30, 0x00) := by decide

/-- CA9, CA10: the pulse nearer the middle wins, and a tie keeps the incumbent. -/
theorem test_preference :
    calBetter calParams { Calibrator.atReset calParams with
      bestValid := true, bestPost := 2, bestSucc := 1, bestAtt := 2 } 1 2 4 2 = true ∧
    calBetter calParams { Calibrator.atReset calParams with
      bestValid := true, bestPost := 2, bestSucc := 1, bestAtt := 2 } 1 2 2 2 = false := by decide

/-! ## Witnesses: a concrete case that meets each statement's hypotheses, clause by clause -/

/-- The clauses of `Claims.edgeWait` at a label with a level and a bound: w0; abort by select and by the flag; the
level; the timeout exactly at its bound; and one tick before it. -/
def edgeWitness (label : WaitPos → Mpc) (level : Bool) (bound : U32) : Prop :=
  (busy 2 (label .w0)).mpc = label .w0 ∧
  Claims.abortSeen { busy 2 (label .w1) with pins := quietPins } ∧
  Claims.abortSeen { busy 2 (label .w1) with active := false } ∧
  (¬Claims.abortSeen (busy 2 (label .w1)) ∧
    { busy 2 (label .w1) with pins := ⟨false, level, false, true, true⟩ }.pins.clk = level) ∧
  Claims.waited bound { busy 2 (label .w1) with now := bound } ∧
  ¬Claims.waited bound { busy 2 (label .w1) with now := bound - 1 }

theorem witness_edgeWait_low : edgeWitness .w false 100 := by
  unfold edgeWitness Claims.abortSeen Claims.waited
  decide

theorem witness_edgeWait_high : edgeWitness .w true 200 := by
  unfold edgeWitness Claims.abortSeen Claims.waited
  decide

theorem witness_EdgeWaitsPollAbortLevelTimeout :
    ∃ bound : State → U32, bound = (fun s => match TimeoutSel.byte with
      | .edge => s.cfg.edgeTimeout
      | .byte => s.cfg.byteTimeout) ∧ bound idle = 200 := ⟨_, rfl, rfl⟩

theorem witness_DecodeEncodeRoundTrip :
    (Instr.addrIgnored 0x03).wf [0x03] = true ∧ (Instr.addrInvalid 0x00).wf [0x03] = true ∧
    (Instr.cmdOther 0x43).wf [0x03] = true ∧ (Instr.xferi 0xFF).wf [] = true := by decide

theorem witness_EncodeDecodedWord : decodeWord 0x0D31 = .ok (.tread .calStarted) := by decide

theorem witness_ReservedWordsRefused :
    ¬Claims.operationWord 0x0306 ∧ ¬Claims.operationWord 0x0E31 ∧ ¬Claims.operationWord 0x0000 ∧
    Claims.operationWord 0x0206 ∧ Claims.operationWord 0x0D31 ∧ Claims.operationWord 0xFF10 ∧
    decodeWord 0x0020 = .ok .chw ∧ Instr.chw.agent ≠ .engine := by
  refine ⟨?_, ?_, ?_, ?_, ?_, ?_, by decide, by decide⟩ <;> unfold Claims.operationWord <;> decide

theorem witness_StepRunsDecodedWord :
    { idle with agenda := [.timebase] }.agenda = .timebase :: [] ∧ idle.agenda = [] ∧
    (idle.irqPending = false ∧ idle.store[idle.pc.toNat]? = some ⟨0x0001, .none, [(.ok, 1)]⟩ ∧
      decodeWord 0x0001 = .ok .idlewait ∧ Instr.idlewait.agent = .engine) ∧
    ({ idle with irqPending := true }.irqPending = true ∧ idle.irqEnabled = true ∧
      decodeWord idle.isrOp = .ok .isr) ∧
    decodeWord idle.writerOp = .ok .chw ∧ decodeWord 0x0031 = .ok (.tread .stTotal) := by decide

theorem witness_EnvironmentSteps :
    ((busy 5 .d0).pins.selN = false ∧ quietPins.selN = true) ∧
    ¬(idle.pins.selN = false ∧ quietPins.selN = true) := by decide

theorem witness_PcOutsideStoreRefused :
    ({ idle with pc := 21 }.store = controlStore ∧ 20 < { idle with pc := 21 }.pc.toNat ∧
      { idle with pc := 21 }.irqPending = false) ∧
    20 < { idle with pc := 31, irqEnabled := false }.pc.toNat := by decide

theorem witness_OutcomeTakesSuccessor :
    (busy 6 .y6).store = controlStore ∧ ((busy 6 .y6).pc, Branch.ok, 7, Mpc.c0) ∈ Claims.successors ∧
    ((busy 2 .xf).pc, Branch.fail, 19, Mpc.b0) ∈ Claims.successors := by decide

/-- TXI's two outcomes in a test program: `ok` is named, `fail` is not and goes to the next line, where there is
nothing; and an entry whose successor is a line that holds an operation. -/
theorem witness_OutcomeTakesSuccessor_anyStore :
    Claims.successorIs { word := 0x5A10, dest := .cmd, succs := [(.ok, 0)] } 0 .ok 0 ∧
    Claims.successorIs { word := 0x5A10, dest := .cmd, succs := [(.ok, 0)] } 0 .fail 1 ∧
    ([{ word := 0x5A10, dest := .cmd, succs := [(.ok, 0)] }] : List Entry)[0]? =
      some { word := 0x5A10, dest := .cmd, succs := [(.ok, 0)] } ∧ decodeWord 0x5A10 = .ok (.txi 0x5A) := by
  refine ⟨.inl fun p => ?_, .inr ⟨fun p => ?_, rfl⟩, rfl, by decide⟩ <;> simp

theorem idle_channel : ChannelInv idle := ⟨rfl, .inl rfl, .inl rfl⟩

theorem witness_OwnMicroStepsComplete :
    Instr.chr.agent = .engine ∧ ChannelInv (busy 10 .r1) ∧ ownsMpc .chr (busy 10 .r1).mpc = true ∧
    ownsMpc .chr (busy 10 .x0).mpc = false := ⟨rfl, ⟨rfl, .inl rfl, .inl rfl⟩, rfl, rfl⟩

/-- Both index cells at 0x02, the least value that is no index, and one at 0xFF. -/
theorem witness_OwnMicroStepsComplete_badIndex :
    (1 < ({ writerAt .w1 with ch := [(5, 0x02)] }.ch.byteAt 5).toNat ∧
      1 < ({ writerAt .w1 with ch := [(4, 0xFF)] }.ch.byteAt 4).toNat) ∧
    (writerAt .w1).wr.pos = .w1 ∧ (busy 10 .r1).mpc = .r1 ∧
    1 < ({ busy 10 .r1 with ch := [(4, 0x02)] }.ch.byteAt 4).toNat := by decide

/-- Writing bit 0 of 0x00 to 1 gives 0x01; writing bit 7 of 0x7F to 1 gives 0xFF, and to 0 leaves it. -/
theorem witness_bitWritten :
    Claims.bitWritten 0x00 0x01 0 true ∧ Claims.bitWritten 0x7F 0xFF 7 true ∧ Claims.bitWritten 0x7F 0x7F 7 false := by
  unfold Claims.bitWritten
  decide

theorem witness_RxReceivesByte :
    ((busy 2 .x0).mpc = .x0 ∧ (busy 2 .xf).mpc = .xf) ∧
    ({ busy 2 .x3 with bit := 6 }.bit.val < 7 ∧ (7 : Fin 9).val = { busy 2 .x3 with bit := 6 }.bit.val + 1) ∧
    ({ busy 2 .x3 with bit := 7 }.mpc = .x3 ∧ { busy 2 .x3 with bit := 7 }.bit.val = 7 ∧ (0x7F : Byte) ≠ 0xFF) := by
  decide

theorem witness_TxSendsByte :
    (alone 0x4110 .t0).mpc = .t0 ∧ (alone 0x4110 .t2).mpc = .t2 ∧ (alone 0x4110 .t5).mpc = .t5 ∧
    (alone 0x4110 .tf).mpc = .tf ∧
    ({ alone 0x4110 .t4 with bit := 7 }.mpc = .t4 ∧ (8 : Fin 9).val = { alone 0x4110 .t4 with bit := 7 }.bit.val + 1) := by
  decide

theorem witness_XferTransfersByte :
    (busy 6 .y0).mpc = .y0 ∧ (busy 6 .y3).mpc = .y3 ∧ (busy 6 .y6).mpc = .y6 ∧ (busy 6 .yf).mpc = .yf ∧
    ({ busy 6 .y2 with bit := 7 }.mpc = .y2 ∧ { busy 6 .y2 with bit := 7 }.bit.val < 8) ∧
    ({ busy 6 .y5 with bit := 7 }.mpc = .y5 ∧ (8 : Fin 9).val = { busy 6 .y5 with bit := 7 }.bit.val + 1) := by decide

theorem witness_AckPulsesMasked :
    Claims.waited idle.cfg.ackDelay (busy 4 .a1) ∧
    ¬Claims.waited 1 (busy 4 .a1) ∧
    Claims.abortSeen { busy 4 .a2 with pins := quietPins } ∧ ¬Claims.abortSeen (busy 4 .a2) ∧
    (3 : U32) = (if (busy 4 .a5).cfg.calEnable then (busy 4 .a5).cal.pulse else (busy 4 .a5).cfg.ackPulseFixed) := by
  unfold Claims.waited Claims.abortSeen
  decide

/-- ACK's delay has not elapsed under parameters with an acknowledge delay of 1. -/
theorem witness_AckPulsesMasked_waits :
    ∃ p : Params, p.ackDelay = 1 ∧ ¬Claims.waited p.ackDelay { busy 4 .a1 with cfg := p } := by
  refine ⟨⟨{ Params.standIn.toRawParams with ackDelay := 1 }, by decide⟩, rfl, ?_⟩
  unfold Claims.waited
  decide

theorem witness_DelayWaitsItsDuration :
    (busy 5 .d0).mpc = .d0 ∧
    ({ busy 5 .d1 with now := 2 }.mpc = .d1 ∧ Claims.waited (busy 5 .d1).cfg.postWaitFixed { busy 5 .d1 with now := 2 }) ∧
    ¬Claims.waited (busy 5 .d1).cfg.postWaitFixed { busy 5 .d1 with now := 1 } := by
  unfold Claims.waited
  decide

theorem witness_RelbusReleasesBothLines : (alone 0x0014 .rb0).mpc = .rb0 := by decide

theorem witness_RxReceivesWholeFrame :
    (busy 2 .x0).store[(busy 2 .x0).pc.toNat]? = some ⟨0x0003, .addr, [(.ok, 3), (.fail, 19)]⟩ ∧
    decodeWord 0x0003 = .ok .rx ∧ (busy 2 .x0).mpc = .x0 ∧ (busy 2 .x0).active = true ∧
    (busy 2 .x0).irqPending = false ∧ (busy 2 .x0).pins.selN = false := by decide

theorem witness_XferTransfersWholeFrame :
    ((busy 6 .y0).store[(busy 6 .y0).pc.toNat]? = some ⟨0x4107, .cmd, [(.ok, 7), (.fail, 7)]⟩ ∧
      decodeWord 0x4107 = .ok (.xferi 0x41)) ∧
    ((busy 14 .y0).store[(busy 14 .y0).pc.toNat]? = some ⟨0x0008, .none, [(.ok, 15), (.fail, 19)]⟩ ∧
      decodeWord 0x0008 = .ok (.xferr .b1) ∧ (0x00 : Byte) = (busy 14 .y0).b1) ∧
    ((busy 16 .y0).store[(busy 16 .y0).pc.toNat]? = some ⟨0x0108, .none, [(.ok, 17), (.fail, 19)]⟩ ∧
      decodeWord 0x0108 = .ok (.xferr .b2) ∧ (0x00 : Byte) = (busy 16 .y0).b2) ∧
    ((busy 6 .y0).active = true ∧ (busy 6 .y0).irqPending = false ∧ (busy 6 .y0).pins.selN = false) := by decide

theorem witness_IdlewaitStartsAfterSelectHigh :
    (idle.mpc = .i0 ∧ idle.pins.selN = true) ∧
    ({ busy 0 .i0 with selSeenHigh := true }.mpc = .i0 ∧ (busy 0 .i0).pins.selN = false ∧
      (busy 0 .i0).selSeenHigh = false) ∧
    ((busy 0 .i1).mpc = .i1 ∧ (busy 0 .i2).mpc = .i2) := by decide

theorem witness_StartCreatesTransaction : (busy 1 .s0).mpc = .s0 := by decide

theorem witness_DispatchDecodesAddress :
    (busy 3 .p0).mpc = .p0 ∧ { busy 3 .p0 with addr := 0x01 }.addr = 0x01 ∧
    { busy 3 .p0 with addr := 0x81 }.addr = 0x81 ∧ (0x03 : Byte) ∈ (busy 3 .p0).cfg.ignoreSet ∧
    (0x55 : Byte) ∉ (busy 3 .p0).cfg.ignoreSet := by decide

theorem witness_McwaitPassesThrough :
    (busy 18 .m0).mpc = .m0 ∧ Claims.abortSeen { busy 18 .m1 with pins := quietPins } ∧
    Claims.abortSeen { busy 18 .m1 with active := false } ∧ ¬Claims.abortSeen (busy 18 .m1) := by
  unfold Claims.abortSeen
  decide

theorem witness_CmdchkDecodesCommand :
    (busy 8 .k0).mpc = .k0 ∧ { busy 8 .k0 with cmd := 0xFF }.cmd = 0xFF ∧ { busy 8 .k0 with cmd := 0x42 }.cmd = 0x42 ∧
    (busy 8 .k0).cmd ≠ 0xFF ∧ (busy 8 .k0).cmd ≠ 0x42 := by decide

theorem witness_EndReleasesAndCloses : (busy 17 .e0).mpc = .e0 := by decide

theorem witness_AbortCountsOnlyTimeouts :
    { busy 19 .b0 with failReason := .timeout }.failReason = .timeout ∧ (busy 19 .b0).failReason ≠ .timeout ∧
    (busy 19 .b0).mpc = .b0 := by decide

theorem witness_WireBytesAct :
    (busy 3 .p0).mpc = .p0 ∧ (busy 2 .x3).mpc = .x3 ∧ (busy 8 .k0).mpc = .k0 ∧ (busy 6 .y0).mpc = .y0 := by decide

theorem witness_OperationsActOnDecodedBytes :
    (busy 3 .p0).addr ≠ 0xFF ∧ { busy 2 .x3 with bit := 7 }.bit.val = 7 ∧ decodeTx 0x41 = .ok .idLow ∧
    decodeTx 0x5A = .ok .idHigh := by decide

/-- The state after reset with an agenda has the bus invariant. -/
theorem idle_bus (l : List Turn) : BusInv { idle with agenda := l } where
  store := rfl
  fits := rfl
  dat := nofun
  ack := nofun
  mask := rfl
  address := nofun
  rest := fun _ => rfl
  bitIndex := nofun

theorem witness_StepKeepsBusInv :
    BusInv { idle with agenda := [.engine] } ∧ ∃ t, step { idle with agenda := [.engine] } = .next t :=
  ⟨idle_bus _, _, rfl⟩

/-- The bus invariant holds with DAT low in a transfer, and with ACK low in a pulse. -/
theorem witness_BusInvMeansReleased :
    BusInv { busy 6 .y5 with datDrv := .low, addr := 0x01 } ∧
    BusInv { busy 4 .a6 with ackDrv := .low, addr := 0x01, irqEnabled := false } := by
  constructor
  · exact ⟨rfl, rfl, fun _ => rfl, nofun, rfl, fun _ => rfl, by decide,
      fun _ => by decide⟩
  · exact ⟨rfl, rfl, nofun, fun _ => rfl, rfl, fun _ => rfl, by decide, nofun⟩

theorem witness_NeverHalts :
    BusInv { idle with agenda := [.telemetry 0x0D31] } ∧ RoleInv { idle with agenda := [.telemetry 0x0D31] } ∧
    ChannelInv { idle with agenda := [.telemetry 0x0D31] } ∧
    legalTurn (nextTurn { idle with agenda := [.telemetry 0x0D31] }) := by
  refine ⟨idle_bus _, ⟨rfl, rfl⟩, ⟨rfl, .inl rfl, .inl rfl⟩, ?_⟩
  intro w h
  cases h
  exact ⟨.calStarted, by decide⟩

/-! ### A fair run -/

/-- ENGINE polls a wait, HOST raises select, ISR runs, the wait aborts, and ENGINE comes back to IDLEWAIT; from there on
ticks and polls alternate. -/
def fairTurns (n : Nat) : Turn :=
  if n = 1 then .host quietPins else if 7 ≤ n ∧ n % 2 = 0 then .timebase else .engine

/-- The run of those turns from RX's first wait. -/
def fairRun : Nat → State := trace fairTurns (busy 2 (.x1 .w1))

/-- The state that run rests in. -/
def rested : State :=
  { idle with selSeenHigh := true, failReason := .abort, rx := 0xFF, addr := 0xFF }

theorem rested_polls (x : U32) : takeTurn .engine { rested with now := x } = .next { rested with now := x } := rfl

theorem fairRun_rests {n : Nat} (h : 7 ≤ n) : ∃ x, fairRun n = { rested with now := x } := by
  induction n, h using Nat.le_induction with
  | base => exact ⟨0, by decide⟩
  | succ n hn ih =>
    obtain ⟨x, h⟩ := ih
    rw [fairRun, trace, ← fairRun, h]
    by_cases h2 : n % 2 = 0
    · rw [show fairTurns n = .timebase from (if_neg (by omega)).trans (if_pos ⟨hn, h2⟩)]
      exact ⟨x + 1, rfl⟩
    · rw [show fairTurns n = .engine from (if_neg (by omega)).trans (if_neg (by omega)), rested_polls]
      exact ⟨x, rfl⟩

theorem fairRun_rest_disabled {n : Nat} (h : 7 ≤ n) : isrEnabled (fairRun n) = false := by
  obtain ⟨x, hx⟩ := fairRun_rests h
  rw [hx]
  rfl

theorem fairRun_isRun : isRun fairRun fairTurns := by
  intro n
  refine trace_next ?_
  by_cases hn : n < 7
  · revert n
    decide
  · obtain ⟨x, hx⟩ := fairRun_rests (show 7 ≤ n by omega)
    rw [← fairRun, hx]
    by_cases h2 : n % 2 = 0
    · rw [show fairTurns n = .timebase from (if_neg (by omega)).trans (if_pos ⟨by omega, h2⟩)]
      rfl
    · rw [show fairTurns n = .engine from (if_neg (by omega)).trans (if_neg (by omega)), rested_polls]
      rfl

/-- ENGINE's micro-steps in the resting part. -/
theorem fairRun_engineSteps (n : Nat) : engineSteps fairRun fairTurns (2 * n + 7) :=
  ⟨(if_neg (by omega)).trans (if_neg (by omega)), fairRun_rest_disabled (by omega)⟩

theorem fairRun_fair : FairRun fairRun fairTurns where
  timebase n := ⟨2 * n + 8, by omega, (if_neg (by omega)).trans (if_pos (by omega))⟩
  engine := .inl fun n => ⟨2 * n + 7, by omega, fairRun_engineSteps n⟩
  isr n h := by
    by_cases hn : n < 7
    · have h2 : ∀ k, k < 7 → isrEnabled (fairRun k) = true → k = 2 := by decide
      exact ⟨2, by have := h2 n hn h; omega, rfl, rfl⟩
    · rw [fairRun_rest_disabled (by omega)] at h
      cases h

theorem fairRun_pollsInTime : pollsInTime fairRun fairTurns := by
  intro n
  by_cases hn : n < 7
  · refine ⟨7 - n, ?_, ?_⟩
    · rw [show n + (7 - n) = 2 * 0 + 7 by omega]
      exact fairRun_engineSteps 0
    · revert n
      decide
  · by_cases h2 : n % 2 = 0
    · refine ⟨1, ?_, ?_⟩
      · rw [show n + 1 = 2 * ((n - 6) / 2) + 7 by omega]
        exact fairRun_engineSteps _
      · simp only [ticksFrom, durationBound]
        split <;> omega
    · refine ⟨0, ?_, by simp [ticksFrom]⟩
      rw [show n + 0 = 2 * ((n - 7) / 2) + 7 by omega]
      exact fairRun_engineSteps _

theorem witness_FairRunsEndWaitsAndReturn :
    (isRun fairRun fairTurns ∧ FairRun fairRun fairTurns ∧ pollsInTime fairRun fairTurns ∧
      CalInv (fairRun 0).cfg (fairRun 0).cal ∧ BusInv (fairRun 0)) ∧
    waitBound (fairRun 0) = some 200 ∧ (fairRun 0).start = (fairRun 0).now ∧
    (∀ j, j ≤ 0 + 1 → (fairRun (0 + j)).mpc = (fairRun 0).mpc) ∧ engineSteps fairRun fairTurns (0 + 0) := by
  refine ⟨⟨fairRun_isRun, fairRun_fair, fairRun_pollsInTime, ?_, ?_⟩, by decide, rfl, by decide, rfl, rfl⟩
  · refine ⟨?_, nofun, nofun, by decide, nofun, nofun, by decide, by decide⟩
    constructor <;> decide
  · exact ⟨rfl, rfl, nofun, nofun, rfl, nofun, by decide, by decide⟩

/-- A calibrator of V, locked, or idle for exactly the idle period. -/
def lockedCal : Calibrator :=
  { Calibrator.atReset calParams with
    locked := true, sweepStarted := true, hasSeen := true, bestValid := true, bestSucc := 2, bestAtt := 2,
    bestPulse := 2, bestPost := 0, pulse := 2, post := 0 }

theorem witness_CalobsCountsArrival :
    (busy 7 .c0).mpc = .c0 ∧ (busy 7 .c0).cfg.calEnable = false ∧ calParams.calEnable = true ∧
    Claims.idlePast { busy 7 .c0 with cfg := calParams, cal := lockedCal, now := 500000 } ∧
    (¬Claims.idlePast { busy 7 .c0 with cfg := calParams, cal := lockedCal, now := 499999 } ∧
      lockedCal.locked = true) ∧
    (¬Claims.idlePast { busy 7 .c0 with cfg := calParams } ∧ (busy 7 .c0).cal.locked = false) := by
  unfold Claims.idlePast
  decide

theorem witness_CaltickResetsAfterIdle : (alone 0x0015 .ct0).mpc = .ct0 := by decide

/-- Both cases of `cal_tick()`: an idle period exactly over, and one tick before that. -/
theorem witness_ticked :
    Claims.ticked { alone 0x0015 .ct0 with cfg := calParams, cal := lockedCal, now := 500000 }
      (Claims.calResetTo calParams lockedCal) ∧
    Claims.ticked { alone 0x0015 .ct0 with cfg := calParams, cal := lockedCal, now := 499999 } lockedCal ∧
    Claims.ticked idle idle.cal := by
  refine ⟨.inl ⟨rfl, ?_, rfl⟩, .inr ⟨fun h => absurd h.2 ?_, rfl⟩, .inr ⟨fun h => ?_, rfl⟩⟩
  · unfold Claims.idlePast
    decide
  · unfold Claims.idlePast
    decide
  · cases h.1

theorem witness_CloseWindowMovesCursor :
    calAdvance calParams (Calibrator.atReset calParams) = some { Calibrator.atReset calParams with post := 2 } ∧
    calAdvance calParams { Calibrator.atReset calParams with pulse := 2, post := 4 } = none ∧
    lockedCal.bestValid = true ∧ (Calibrator.atReset calParams).bestValid = false := by decide

/-- V's grid has 3 pulses and 3 post-waits: its first point, an end of a row, and its last point. -/
theorem witness_AdvanceVisitsGridInOrder :
    (calParams.pwMax.toNat - calParams.pwMin.toNat) / calParams.calStep.toNat = 2 ∧
    (calParams.pwaitMax.toNat - calParams.pwaitMin.toNat) / calParams.calStep.toNat = 2 ∧
    (6 = calParams.pwMax.toNat - 0 * calParams.calStep.toNat ∧
      0 = calParams.pwaitMin.toNat + 0 * calParams.calStep.toNat) ∧
    4 = calParams.pwaitMin.toNat + 2 * calParams.calStep.toNat ∧
    2 = calParams.pwMax.toNat - 2 * calParams.calStep.toNat := by decide

theorem witness_CandidateAndPreference :
    lockedCal.bestValid = true ∧ calBetter calParams { lockedCal with bestSucc := 1 } 2 2 6 4 = true := by decide

/-- Reset meets the calibrator invariant; so does a locked calibrator. -/
theorem witness_StepKeepsCalInv :
    CalInv calParams lockedCal ∧
    ∃ t, step { idle with cfg := calParams, cal := lockedCal, agenda := [.engine] } = .next t := by
  refine ⟨⟨?_, fun _ => ?_, fun _ => rfl, by decide, fun _ => ⟨rfl, rfl, rfl⟩, fun _ => rfl, by decide, by decide⟩, _, rfl⟩
  · constructor <;> decide
  · constructor <;> decide

theorem witness_LockedTimingIsConstant :
    lockedCal.locked = true ∧ ¬Claims.idlePast { busy 7 .c0 with cfg := calParams, cal := lockedCal } ∧
    (busy 7 .c0).cfg.calEnable = false ∧
    ∃ t, step { busy 7 .c0 with cfg := calParams, cal := lockedCal, agenda := [.engine] } = .next t := by
  unfold Claims.idlePast
  exact ⟨by decide, by decide, by decide, _, rfl⟩

theorem witness_ChwPublishesSnapshot :
    ((writerAt .w1).ch.byteAt 5 = (0 : Idx).setWidth 8 ∧ (writerAt .w1).ch.byteAt 4 = (0 : Idx).setWidth 8) ∧
    { writerAt .w1 with ch := [(4, 0x01)] }.ch.byteAt 4 = (1 : Idx).setWidth 8 ∧
    ((writerAt .w2).cfg.latch = false ∧ latchParams.latch = true ∧ (writerAt .w2).wr.wcons = false ∧
      { writerAt .w2 with wr := { Writer.atReset with pos := .w2, wcons := true } }.wr.wcons = true) ∧
    ((writerAt .w3).wr.pos = .w3 ∧ (writerAt .w4).wr.pos = .w4 ∧ (writerAt .w5).wr.pos = .w5 ∧
      (writerAt .w6).wr.pos = .w6 ∧ (writerAt .w3).ch.wf = true) := by decide

theorem witness_ChrConsumesSnapshot :
    (busy 10 .r1).mpc = .r1 ∧ (busy 10 .r1).ch.byteAt 4 = (0 : Idx).setWidth 8 ∧
    { busy 10 .r1 with ch := [(4, 0x01)] }.ch.byteAt 4 = (1 : Idx).setWidth 8 ∧
    (busy 10 .r2).mpc = .r2 ∧ (busy 10 .r3).mpc = .r3 ∧ (busy 10 .r4).mpc = .r4 ∧ (busy 10 .r5).mpc = .r5 ∧
    (busy 10 .r5).ch.wf = true := by decide

/-! ### A run of the channel -/

/-- ENGINE in a test program that runs CHR again and again. -/
def readLoop : State := { busy 0 .r1 with store := [{ word := 0x000C, dest := .none, succs := [(.ok, 0)] }] }

/-- One CHW with a tick inside it, then two CHRs; from there on only the time moves. -/
def channelTurns (n : Nat) : Turn :=
  if n = 3 ∨ 17 ≤ n then .timebase else if n ≤ 6 then .writer 0xEF 0x7F else .engine

/-- The run of those turns. -/
def channelRun : Nat → State := trace channelTurns readLoop

theorem channelRun_tail {n : Nat} (h : 17 ≤ n) : ∃ x, channelRun n = { channelRun 17 with now := x } := by
  induction n, h using Nat.le_induction with
  | base => exact ⟨_, rfl⟩
  | succ n hn ih =>
    obtain ⟨x, h⟩ := ih
    refine ⟨x + 1, ?_⟩
    rw [channelRun, trace, ← channelRun, show channelTurns n = .timebase from if_pos (by omega), h]
    rfl

theorem channelRun_isRun : isRun channelRun channelTurns := by
  intro n
  by_cases hn : n < 17
  · refine trace_next ?_
    revert n
    decide
  · refine trace_next ?_
    rw [show channelTurns n = .timebase from if_pos (by omega)]
    rfl

theorem channelRun_q : preconditionQ channelRun := by
  intro n
  by_cases hn : n < 17
  · revert n
    decide
  · obtain ⟨x, h⟩ := channelRun_tail (show 17 ≤ n by omega)
    rw [h]
    rfl

theorem channelRun_chw : WholeChw channelRun channelTurns 0 1 6 0xEF 0x7F where
  first := ⟨rfl, _, _, rfl⟩
  sample := ⟨by decide, fun k h1 h2 => by interval_cases k; rfl, rfl⟩
  stores := ⟨by decide, fun k h1 h2 => by interval_cases k <;> rfl⟩
  last := rfl

theorem channelRun_chr : WholeChr channelRun channelTurns 7 11 where
  first := ⟨rfl, rfl, rfl⟩
  inside := ⟨by decide, fun k h1 h2 => by interval_cases k <;> rfl⟩
  last := ⟨rfl, rfl, rfl⟩

theorem channelRun_chr_again : WholeChr channelRun channelTurns 12 16 where
  first := ⟨rfl, rfl, rfl⟩
  inside := ⟨by decide, fun k h1 h2 => by interval_cases k <;> rfl⟩
  last := ⟨rfl, rfl, rfl⟩

theorem channelRun_quiet : noWriterTurn channelTurns 6 16 := by
  intro k h1 h2 x y h
  rw [channelTurns, if_neg (by omega), if_neg (by omega)] at h
  cases h

/-- The sample, unlike every other value in the run, arrives at both reads. -/
theorem test_channelRun_reads :
    (channelRun 12).b1 = 0xEF ∧ (channelRun 12).b2 = 0x7F ∧ (channelRun 17).b1 = 0xEF ∧ (channelRun 17).b2 = 0x7F := by
  decide

theorem witness_ReadAfterWriteIsCleanedSample :
    isRun channelRun channelTurns ∧ ChannelInv (channelRun 0) ∧ WholeChw channelRun channelTurns 0 1 6 0xEF 0x7F ∧
    WholeChr channelRun channelTurns 7 11 ∧ 6 < 7 ∧ noWriterTurn channelTurns 6 11 ∧
    (channelRun 0).cfg.latch = false ∧
    (latchParams.latch = true ∧ Memory.byteAt [(4, 0x01)] 5 ≠ Memory.byteAt [(4, 0x01)] 4) :=
  ⟨channelRun_isRun, ⟨rfl, .inl rfl, .inl rfl⟩, channelRun_chw, channelRun_chr, by decide,
    fun k h1 h2 => channelRun_quiet k h1 (by omega), rfl, rfl, by decide⟩

theorem witness_RereadReturnsSameSnapshot :
    isRun channelRun channelTurns ∧ ChannelInv (channelRun 0) ∧ WholeChr channelRun channelTurns 7 11 ∧
    WholeChr channelRun channelTurns 12 16 ∧ 11 < 12 ∧ noWriterTurn channelTurns 7 16 :=
  ⟨channelRun_isRun, ⟨rfl, .inl rfl, .inl rfl⟩, channelRun_chr, channelRun_chr_again, by decide,
    fun k h1 h2 => channelRun_quiet k (by omega) h2⟩

theorem witness_StepKeepsChannelInv :
    ChannelInv { writerAt .w6 with agenda := [.writer 0x11 0x22] } ∧
    ∃ t, step { writerAt .w6 with agenda := [.writer 0x11 0x22] } = .next t :=
  ⟨⟨rfl, .inl rfl, .inl rfl⟩, _, rfl⟩

/-- A write that is not accumulating beside a read of the other slot. -/
def beside : State :=
  { busy 10 .r3 with agenda := [.writer 0x11 0x22], wr := { Writer.atReset with pos := .w3, wt := 1, wcons := true } }

theorem witness_StepKeepsNoTearInv :
    NoTearInv beside ∧ channelOverlap beside = false ∧ ∃ t, step beside = .next t := by
  refine ⟨⟨⟨rfl, .inl rfl, .inl rfl⟩, fun _ _ => ?_, fun _ _ => rfl, fun _ _ _ => ?_, fun _ => .inl rfl⟩, rfl, _, rfl⟩
  · decide
  · decide

theorem channelRun_published : PublishedInv (0xFF, 0xFF) (channelRun 0) :=
  ⟨⟨rfl, .inl rfl, .inl rfl⟩, nofun, nofun, nofun, fun _ => by decide, fun _ => by decide⟩

/-- An accumulating CHW that has rewritten the first field of the latest slot. -/
def rewriting : State :=
  { writerAt .w4 with
    agenda := [.writer 0x00 0x00], ch := [(2, 0xF3), (3, 0x22), (4, 0x01)],
    wr := { Writer.atReset with pos := .w4, wt := 1, wv1 := 0xF3, wv2 := 0x44 } }

theorem witness_NoTornReadUnderQ_step :
    PublishedInv (0xF1, 0x22) rewriting ∧ ∃ t, step rewriting = .next t := by
  refine ⟨⟨⟨rfl, .inr rfl, .inl rfl⟩, fun _ => by decide, fun _ => rfl, nofun, nofun, fun _ => by decide⟩, _, rfl⟩

/-- The read at 7 follows a publication; the run from 7 on, in which nothing is published, is the other case. -/
theorem witness_NoTornReadUnderQ :
    isRun channelRun channelTurns ∧ preconditionQ channelRun ∧ NoTearInv (channelRun 0) ∧
    PublishedInv (0xFF, 0xFF) (channelRun 0) ∧ WholeChr channelRun channelTurns 7 11 ∧
    publishes (channelTurns 6) (channelRun 6) = true ∧ publishes (channelTurns 3) (channelRun 3) = false := by
  refine ⟨channelRun_isRun, channelRun_q, ⟨⟨rfl, .inl rfl, .inl rfl⟩, nofun, nofun, fun _ h => ?_, fun _ => .inl rfl⟩,
    channelRun_published, channelRun_chr, rfl, rfl⟩
  cases h

theorem witness_NoTornReadUnderQ_fromR2 :
    8 ≤ 11 ∧ (channelRun 8).mpc = .r2 ∧ (channelRun 11).mpc = .r5 ∧
    ∀ k, k ≤ 11 → 8 ≤ k → reading (channelRun k) = true := by decide

theorem witness_StpollRecordsInterval :
    (busy 9 .sp0).mpc = .sp0 ∧ (busy 9 .sp0).st.pollHasPrev = false ∧
    ({ Stats.atReset with pollHasPrev := true, pollCnt := 0xFFFFFFFF }.pollCnt = 0xFFFFFFFF) ∧
    ({ Stats.atReset with pollHasPrev := true, pollCnt := 0xFFFFFFFE }.pollCnt ≠ 0xFFFFFFFF) ∧
    (500 : U32) = { busy 9 .sp0 with now := 500 }.now - (busy 9 .sp0).st.pollLast := by decide

theorem witness_StepKeepsPollInv :
    PollInv { busy 9 .sp0 with agenda := [.engine] }.st ∧
    ∃ t, step { busy 9 .sp0 with agenda := [.engine] } = .next t :=
  ⟨⟨fun _ => ⟨rfl, rfl, rfl, rfl⟩, nofun, by decide, nofun, by decide⟩, _, rfl⟩

theorem witness_StepKeepsCounterInv :
    BusInv { idle with agenda := [.engine] } ∧ CounterInv { idle with agenda := [.engine] } ∧
    { idle with agenda := [.engine] }.st.total ≠ 0xFFFFFFFF ∧
    ∃ t, step { idle with agenda := [.engine] } = .next t :=
  ⟨idle_bus _, ⟨by decide, by decide⟩, by decide, _, rfl⟩

theorem witness_StatisticsInfluenceNothing :
    sameButStats { busy 9 .sp0 with agenda := [.engine] }
      { busy 9 .sp0 with agenda := [.engine], telPort := some 7, st := { Stats.atReset with total := 9, pollSum := 4 } } ∧
    ∃ t, step { busy 9 .sp0 with agenda := [.engine] } = .next t := ⟨rfl, _, rfl⟩

theorem witness_TreadDeliversRegister : 0x0D < (0x0E : Byte).toNat ∧ 0x0D < (0xFF : Byte).toNat := by decide

theorem witness_OtherAgentsWriteOnlyTheirOwn :
    (writerAt .w3).ch.wf = true ∧ (∃ t, exec .chw (writerAt .w3) = .next t) ∧ (∃ t, exec .isr idle = .next t) ∧
    ∃ t, exec (.tread .pollAvg) idle = .next t := ⟨rfl, ⟨_, rfl⟩, ⟨_, rfl⟩, _, rfl⟩

theorem witness_EngineWritesOnlyItsOwn :
    Instr.chr.agent = .engine ∧ (busy 10 .r5).ch.wf = true ∧ ∃ t, exec .chr (busy 10 .r5) = .next t :=
  ⟨rfl, rfl, _, rfl⟩

theorem witness_FlagsChangeOnlyWhereStated :
    Instr.mcwait.agent = .engine ∧ (∃ t, exec .mcwait (busy 18 .m0) = .next t) ∧ Instr.mcwait ≠ .ack ∧
    Instr.mcwait ≠ .start ∧ Instr.mcwait ≠ .endTxn ∧ Instr.mcwait ≠ .abort ∧ Instr.mcwait ≠ .idlewait :=
  ⟨rfl, ⟨_, rfl⟩, by decide, by decide, by decide, by decide, by decide⟩

theorem witness_StepKeepsConfiguration : ∃ t, step { idle with agenda := [.host quietPins] } = .next t := ⟨_, rfl⟩

theorem witness_BootChecksParameters :
    ¬Claims.parametersAllowed { Params.standIn.toRawParams with pwMin := 7 } ∧
    Claims.parametersAllowed Params.standIn.toRawParams := by
  refine ⟨fun h => absurd h.2.2.2.2.2.2.2.1.1 (by decide), ?_⟩
  refine ⟨?_, ?_, ?_, ?_, ?_, ?_, ?_, ?_, ?_, ?_, ?_, ?_, ?_, ?_, ?_⟩ <;> decide

end Sys2Proof.Tests
end

