-- ==== Sys2Proof/Proofs/Boot.lean ====
section
/-! PROOFS. Power-on: the executable check of 00_scope.md R13 decides the constraints, so power-on
(70_reset_and_hazards.md R323) refuses a parameter set exactly when it breaks one. -/

open Sys2Proof
open Sys2Proof.Machine

namespace Sys2Proof.Proofs.Boot

/-! ## The check decides the constraints -/

/-- P_IGNORE_SET's row of R13, as the check tests it. -/
theorem ignoreSet_check_iff (l : List Byte) :
    (!l.contains 0x01 && !l.contains 0x81 && !l.contains 0xFF) = true ↔
      0x01 ∉ l ∧ 0x81 ∉ l ∧ 0xFF ∉ l := by
  simp [and_assoc]

/-- The directions' row of R13: the check asks for a list without duplicates, the rule for pairwise distinct
positions. -/
theorem nodup_four_iff (u d l r : Fin 8) :
    [u, d, l, r].Nodup ↔ u ≠ d ∧ u ≠ l ∧ u ≠ r ∧ d ≠ l ∧ d ≠ r ∧ l ≠ r := by
  simp [and_assoc]

/-- The check of R13 succeeds exactly where every constraint holds: its rows are compared one by one. -/
theorem ok_iff_parametersAllowed (p : RawParams) : p.ok = true ↔ Claims.parametersAllowed p := by
  unfold RawParams.ok Claims.parametersAllowed
  rw [← ignoreSet_check_iff p.ignoreSet, ← nodup_four_iff p.bitUp p.bitDown p.bitLeft p.bitRight]
  simp only [Bool.and_eq_true, decide_eq_true_eq, and_assoc]

/-! ## What power-on answers -/

theorem check_of_ok {p : RawParams} (h : p.ok = true) : p.check = some ⟨p, h⟩ := by
  unfold RawParams.check
  exact dif_pos h

theorem check_of_not_ok {p : RawParams} (h : ¬p.ok = true) : p.check = none := by
  unfold RawParams.check
  exact dif_neg h

theorem boot_of_ok {p : RawParams} (pins : Pins) (h : p.ok = true) :
    State.boot p pins = .next (State.atReset ⟨p, h⟩ pins) := by
  unfold State.boot
  rw [check_of_ok h]

theorem boot_of_not_ok {p : RawParams} (pins : Pins) (h : ¬p.ok = true) :
    State.boot p pins = .refused .badParameters := by
  unfold State.boot
  rw [check_of_not_ok h]

/-- Settles O59: both halves are `State.boot` on the two answers of the check, which decides R13. -/
theorem bootChecksParameters : Obligations.BootChecksParameters := by
  unfold Obligations.BootChecksParameters
  constructor
  · intro p pins hbroken
    have hcheck : ¬p.ok = true := mt (ok_iff_parametersAllowed p).mp hbroken
    exact boot_of_not_ok pins hcheck
  · intro p pins hallowed
    have hcheck : p.ok = true := (ok_iff_parametersAllowed p).mpr hallowed
    exact ⟨⟨p, hcheck⟩, rfl, boot_of_ok pins hcheck⟩

end Sys2Proof.Proofs.Boot
end

