-- ==== Sys2Proof/Proofs/Ownership.lean ====
section
/-! PROOFS. Who may write what, and which micro-steps go on (10_state.md R34, R41, R53). For each operation one lemma
says both how its micro-steps end and that they write only what ENGINE owns; the statements about every ENGINE
instruction are read off those. -/

open Sys2Proof
open Sys2Proof.Machine

namespace Sys2Proof.Proofs.Ownership

/-! ## The wire levels -/

theorem datWire_iff (s : State) : s.datWire = true ↔ s.datDrv = .rel ∧ s.pins.datExt = true := by
  simp [State.datWire]

theorem ackWire_iff (s : State) : s.ackWire = true ↔ s.ackDrv = .rel ∧ s.pins.ackExt = true := by
  simp [State.ackWire]

/-- Settles O19: the two levels of R34, line by line. -/
theorem wireIsWiredAnd : Obligations.WireIsWiredAnd := by
  unfold Obligations.WireIsWiredAnd
  exact fun s => ⟨datWire_iff s, ackWire_iff s⟩

/-! ## Reads and writes of the channel that go on, and the index read that does not -/

theorem chRead_of_lt {a : Nat} (ha : a < chCells) (s : State) (k : Byte → Host.Outcome State Fault Refusal) :
    chRead a s k = k (s.ch.byteAt a) := if_pos ha

theorem chWrite_of_lt {a : Nat} (ha : a < chCells) (v : Byte) (s : State)
    (k : State → Host.Outcome State Fault Refusal) :
    chWrite a v s k = k { s with ch := s.ch.setByte a v } := if_pos ha

theorem chReadIdx_of_eq {a : Nat} (ha : a < chCells) {s : State} {i : Idx} (hi : s.ch.byteAt a = idxByte i)
    (k : Idx → Host.Outcome State Fault Refusal) : chReadIdx a s k = k i := by
  unfold chReadIdx
  rw [chRead_of_lt ha, hi, idxOf_idxByte]

/-- A cell that holds more than 1 holds no index (20_memory.md R82). -/
theorem chReadIdx_fault {a : Nat} (ha : a < chCells) {s : State} (hbad : 1 < (s.ch.byteAt a).toNat)
    (k : Idx → Host.Outcome State Fault Refusal) : chReadIdx a s k = .fault .channelIndex := by
  unfold chReadIdx
  rw [chRead_of_lt ha]
  have hnone : idxOf (s.ch.byteAt a) = none := by
    unfold idxOf
    rw [if_neg (by bv_omega), if_neg (by bv_omega)]
  rw [hnone]

/-- A byte is the byte of an index, or it is more than 1. -/
theorem eq_idxByte_or_one_lt (b : Byte) : (∃ i, b = idxByte i) ∨ 1 < b.toNat := by
  by_cases h : 1 < b.toNat
  · exact .inr h
  · have hb : b = 0x00 ∨ b = 0x01 := by bv_omega
    rcases hb with rfl | rfl
    · exact .inl ⟨0, rfl⟩
    · exact .inl ⟨1, rfl⟩

/-- CHW's w1 reads `read_idx`, then `write_idx`, and a bad byte in either stops it (entry 7). -/
theorem exec_chw_of_badIndex {s : State} (hpos : s.wr.pos = .w1)
    (hbad : 1 < (s.ch.byteAt readIdxAddr).toNat ∨ 1 < (s.ch.byteAt writeIdxAddr).toNat) :
    exec .chw s = .fault .channelIndex := by
  simp only [exec, execChw, hpos]
  rcases eq_idxByte_or_one_lt (s.ch.byteAt readIdxAddr) with ⟨r, hr⟩ | hread
  · rw [chReadIdx_of_eq (by decide) hr]
    have hwrite : 1 < (s.ch.byteAt writeIdxAddr).toNat := by
      refine hbad.resolve_left ?_
      rcases idxByte_zero_or_one r with h | h <;> simp [hr, h]
    exact chReadIdx_fault (by decide) hwrite _
  · exact chReadIdx_fault (by decide) hread _

/-- CHR's r1 reads `write_idx`, and a bad byte there stops it (entry 7). -/
theorem exec_chr_of_badIndex {s : State} (hmpc : s.mpc = .r1) (hbad : 1 < (s.ch.byteAt writeIdxAddr).toNat) :
    exec .chr s = .fault .channelIndex := by
  simp only [exec, execChr, hmpc]
  exact chReadIdx_fault (by decide) hbad _

/-! ## What ENGINE owns -/

/-- The state with everything that ENGINE owns but `read_idx` put to a fixed value (10_state.md R53): what is left is
the other agents' and the model's own. -/
def eraseEngine (s : State) : State :=
  { s with
    pc := 0, mpc := .i0, addr := 0, cmd := 0, rx := 0, tx := 0, bit := 0, start := 0, b1 := 0, b2 := 0, ridx := 0
    failReason := .none, active := false, irqEnabled := true, irqPending := false, selSeenHigh := false
    datDrv := .rel, ackDrv := .rel, cal := Calibrator.atReset Params.standIn, st := Stats.atReset }

theorem eraseEngine_stepTo (m : Mpc) (s : State) : eraseEngine (stepTo m s) = eraseEngine s := rfl

theorem eraseEngine_copyDest (d : Dest) (s : State) : eraseEngine (copyDest d s) = eraseEngine s := by
  cases d <;> rfl

theorem eraseEngine_done (o : Branch) (s : State) : eraseEngine (done o s) = eraseEngine s :=
  eraseEngine_copyDest (destAt s.entry) s

theorem eraseEngine_ite {c : Prop} [Decidable c] {s t u : State} (ht : eraseEngine t = eraseEngine s)
    (hu : eraseEngine u = eraseEngine s) : eraseEngine (if c then t else u) = eraseEngine s := by
  split
  · exact ht
  · exact hu

/-- An edge wait writes only what ENGINE owns where its two ends do. -/
theorem eraseEngine_waitStep {level : Bool} {bound : U32} {stay : WaitPos → Mpc} {onOk onFail : State → State}
    (hok : ∀ u, eraseEngine (onOk u) = eraseEngine u) (hfail : ∀ u, eraseEngine (onFail u) = eraseEngine u)
    (p : WaitPos) (s : State) : eraseEngine (waitStep level bound stay onOk onFail p s) = eraseEngine s := by
  rcases waitStep_cases level bound stay onOk onFail p s with ⟨-, h⟩ | ⟨-, h⟩ | ⟨-, r, h⟩ | ⟨-, h⟩ <;> rw [h]
  · rfl
  · exact hok s
  · exact hfail (raise r s)

/-- A wait inside an operation: both its ends are micro-steps of that operation. -/
theorem eraseEngine_waitStep_stepTo {level : Bool} {bound : U32} {stay : WaitPos → Mpc} {okMpc failMpc : Mpc}
    (p : WaitPos) (s : State) :
    eraseEngine (waitStep level bound stay (stepTo okMpc) (stepTo failMpc) p s) = eraseEngine s :=
  eraseEngine_waitStep (eraseEngine_stepTo okMpc) (eraseEngine_stepTo failMpc) p s

/-! ## The micro-steps of ENGINE's operations -/

/-- How a micro-step from s with outcome o ends, for every operation of ENGINE but CHR: at a micro-step of its own
(`own`) it goes on and writes no channel cell and nothing that another agent owns; at any other it faults
(10_state.md R41, R53; entry 5). -/
inductive EngineStep (own : Bool) (s : State) : Host.Outcome State Fault Refusal → Prop
  | next {t : State} (howns : own = true) (hframe : eraseEngine t = eraseEngine s) : EngineStep own s (.next t)
  | fault (hforeign : own = false) : EngineStep own s (.fault .foreignMicroStep)

theorem EngineStep.goes_on {s : State} {o : Host.Outcome State Fault Refusal} (h : EngineStep true s o) :
    ∃ t, o = .next t := by
  cases h with
  | next _ _ => exact ⟨_, rfl⟩
  | fault hforeign => cases hforeign

theorem EngineStep.faults {s : State} {o : Host.Outcome State Fault Refusal} (h : EngineStep false s o) :
    o = .fault .foreignMicroStep := by
  cases h with
  | next howns _ => cases howns
  | fault _ => rfl

theorem EngineStep.frame {own : Bool} {s t : State} (h : EngineStep own s (.next t)) :
    eraseEngine t = eraseEngine s := by
  cases h with
  | next _ hframe => exact hframe

section Operations
variable (s : State)

theorem execIdlewait_engineStep : EngineStep (ownsMpc .idlewait s.mpc) s (execIdlewait s) := by
  unfold execIdlewait
  generalize s.mpc = m
  split
  · exact .next rfl (eraseEngine_ite rfl (eraseEngine_ite rfl rfl))
  · exact .next rfl (eraseEngine_ite rfl rfl)
  · exact .next rfl (eraseEngine_ite rfl (eraseEngine_done .ok s))
  · exact .fault (by simp [ownsMpc, *])

theorem execStart_engineStep : EngineStep (ownsMpc .start s.mpc) s (execStart s) := by
  unfold execStart
  generalize s.mpc = m
  split
  · exact .next rfl (eraseEngine_done _ _)
  · exact .fault (by simp [ownsMpc, *])

theorem rxSample_eraseEngine : eraseEngine (rxSample s) = eraseEngine s :=
  eraseEngine_ite rfl (eraseEngine_ite (eraseEngine_done _ _) (eraseEngine_done _ _))

theorem execRx_engineStep : EngineStep (ownsMpc .rx s.mpc) s (execRx s) := by
  unfold execRx
  generalize s.mpc = m
  split
  · exact .next rfl rfl
  · exact .next rfl (eraseEngine_waitStep_stepTo _ s)
  · exact .next rfl (eraseEngine_waitStep_stepTo _ s)
  · exact .next rfl (rxSample_eraseEngine s)
  · exact .next rfl (eraseEngine_done _ _)
  · exact .fault (by simp [ownsMpc, *])

theorem dispatchOn_eraseEngine (a : Byte) : eraseEngine (dispatchOn a s) = eraseEngine s :=
  eraseEngine_ite (eraseEngine_done _ _) <| eraseEngine_ite (eraseEngine_done _ _) <|
    eraseEngine_ite (eraseEngine_done _ _) (eraseEngine_done _ _)

theorem atDispatch_engineStep {f : State → State} (hf : eraseEngine (f s) = eraseEngine s) :
    EngineStep (ownsMpc .dispatch s.mpc) s (atDispatch f s) := by
  unfold atDispatch
  generalize s.mpc = m
  split
  · exact .next rfl hf
  · exact .fault (by simp [ownsMpc, *])

theorem execAck_engineStep : EngineStep (ownsMpc .ack s.mpc) s (execAck s) := by
  unfold execAck
  generalize s.mpc = m
  split
  · exact .next rfl rfl
  · exact .next rfl (eraseEngine_ite rfl rfl)
  · exact .next rfl (eraseEngine_ite (eraseEngine_done _ _) rfl)
  · exact .next rfl rfl
  · exact .next rfl rfl
  · exact .next rfl (eraseEngine_ite rfl rfl)
  · exact .next rfl (eraseEngine_done _ _)
  · exact .fault (by simp [ownsMpc, *])

theorem execDelay_engineStep (d : DelaySel) : EngineStep (ownsMpc (.delay d) s.mpc) s (execDelay d s) := by
  unfold execDelay
  generalize s.mpc = m
  split
  · exact .next rfl rfl
  · exact .next rfl (eraseEngine_ite (eraseEngine_done _ _) rfl)
  · exact .fault (by simp [ownsMpc, *])

/-- XFERI, XFERR and the identification bytes: the micro-steps are the transfer's, whatever byte it sends. -/
theorem xferStep_engineStep (v w : Byte) : EngineStep (ownsMpc (.xferi w) s.mpc) s (xferStep v s) := by
  unfold xferStep
  generalize s.mpc = m
  split
  · exact .next rfl rfl
  · exact .next rfl (eraseEngine_waitStep_stepTo _ s)
  · exact .next rfl rfl
  · exact .next rfl rfl
  · exact .next rfl (eraseEngine_waitStep_stepTo _ s)
  · exact .next rfl rfl
  · exact .next rfl (eraseEngine_done _ _)
  · exact .next rfl (eraseEngine_done _ _)
  · exact .fault (by simp [ownsMpc, *])

theorem execCalobs_engineStep (o : ObsSel) : EngineStep (ownsMpc (.calobs o) s.mpc) s (execCalobs o s) := by
  unfold execCalobs
  generalize s.mpc = m
  split
  · exact .next rfl (eraseEngine_done _ _)
  · exact .fault (by simp [ownsMpc, *])

theorem commandOn_eraseEngine (c : Byte) : eraseEngine (commandOn c s) = eraseEngine s :=
  eraseEngine_ite (eraseEngine_done _ _) (eraseEngine_ite (eraseEngine_done _ _) (eraseEngine_done _ _))

theorem atCmdchk_engineStep {f : State → State} (hf : eraseEngine (f s) = eraseEngine s) :
    EngineStep (ownsMpc .cmdchk s.mpc) s (atCmdchk f s) := by
  unfold atCmdchk
  generalize s.mpc = m
  split
  · exact .next rfl hf
  · exact .fault (by simp [ownsMpc, *])

theorem execStpoll_engineStep : EngineStep (ownsMpc .stpoll s.mpc) s (execStpoll s) := by
  unfold execStpoll
  generalize s.mpc = m
  split
  · exact .next rfl (eraseEngine_done _ _)
  · exact .fault (by simp [ownsMpc, *])

theorem execEnd_engineStep : EngineStep (ownsMpc .endTxn s.mpc) s (execEnd s) := by
  unfold execEnd
  generalize s.mpc = m
  split
  · exact .next rfl (eraseEngine_done _ _)
  · exact .fault (by simp [ownsMpc, *])

theorem execMcwait_engineStep : EngineStep (ownsMpc .mcwait s.mpc) s (execMcwait s) := by
  unfold execMcwait
  generalize s.mpc = m
  split
  · exact .next rfl rfl
  · exact .next rfl (eraseEngine_ite (eraseEngine_done _ _) rfl)
  · exact .fault (by simp [ownsMpc, *])

theorem execAbort_engineStep : EngineStep (ownsMpc .abort s.mpc) s (execAbort s) := by
  unfold execAbort
  generalize s.mpc = m
  split
  · exact .next rfl (eraseEngine_done _ _)
  · exact .fault (by simp [ownsMpc, *])

/-- TXI and TXR: the micro-steps are the transmission's, whatever byte it sends. -/
theorem txStep_engineStep (v w : Byte) : EngineStep (ownsMpc (.txi w) s.mpc) s (txStep v s) := by
  unfold txStep
  generalize s.mpc = m
  split
  · exact .next rfl rfl
  · exact .next rfl (eraseEngine_waitStep_stepTo _ s)
  · exact .next rfl rfl
  · exact .next rfl (eraseEngine_waitStep_stepTo _ s)
  · exact .next rfl rfl
  · exact .next rfl (eraseEngine_done _ _)
  · exact .next rfl (eraseEngine_done _ _)
  · exact .fault (by simp [ownsMpc, *])

/-- WAITF and WAITR: the wait is the whole operation, whatever its level and bound. -/
theorem waitOp_engineStep (level : Bool) (t u : TimeoutSel) :
    EngineStep (ownsMpc (.waitf u) s.mpc) s (waitOp level t s) := by
  unfold waitOp
  generalize s.mpc = m
  split
  · exact .next rfl (eraseEngine_waitStep (eraseEngine_done .ok) (eraseEngine_done .fail) _ s)
  · exact .fault (by simp [ownsMpc, *])

theorem execRelbus_engineStep : EngineStep (ownsMpc .relbus s.mpc) s (execRelbus s) := by
  unfold execRelbus
  generalize s.mpc = m
  split
  · exact .next rfl (eraseEngine_done _ _)
  · exact .fault (by simp [ownsMpc, *])

theorem execCaltick_engineStep : EngineStep (ownsMpc .caltick s.mpc) s (execCaltick s) := by
  unfold execCaltick
  generalize s.mpc = m
  split
  · exact .next rfl (eraseEngine_done _ _)
  · exact .fault (by simp [ownsMpc, *])

theorem execAddrSentinel_engineStep : EngineStep (ownsMpc .addrSentinel s.mpc) s (execAddrSentinel s) := by
  unfold execAddrSentinel
  generalize s.mpc = m
  split
  · exact .next rfl (eraseEngine_done _ _)
  · exact .fault (by simp [ownsMpc, *])

/-- Every ENGINE instruction but CHR, which alone reads and writes the channel. -/
theorem exec_engineStep {i : Instr} (hi : i.agent = .engine) (hchr : i ≠ .chr) :
    EngineStep (ownsMpc i s.mpc) s (exec i s) := by
  cases i with
  | idlewait => exact execIdlewait_engineStep s
  | start => exact execStart_engineStep s
  | rx => exact execRx_engineStep s
  | dispatch => exact atDispatch_engineStep s (dispatchOn_eraseEngine s s.addr)
  | ack => exact execAck_engineStep s
  | delay d => exact execDelay_engineStep s d
  | xferi v => exact xferStep_engineStep s v v
  | xferr r => exact xferStep_engineStep s (readReg r s) 0
  | calobs o => exact execCalobs_engineStep s o
  | cmdchk => exact atCmdchk_engineStep s (commandOn_eraseEngine s s.cmd)
  | stpoll => exact execStpoll_engineStep s
  | chr => exact absurd rfl hchr
  | endTxn => exact execEnd_engineStep s
  | mcwait => exact execMcwait_engineStep s
  | abort => exact execAbort_engineStep s
  | txi v => exact txStep_engineStep s v v
  | txr r => exact txStep_engineStep s (readReg r s) 0
  | waitf t => exact waitOp_engineStep s false t t
  | waitr t => exact waitOp_engineStep s true t t
  | relbus => exact execRelbus_engineStep s
  | caltick => exact execCaltick_engineStep s
  | chw => cases hi
  | isr => cases hi
  | tread x => cases hi
  | addrController => exact atDispatch_engineStep s (eraseEngine_done _ _)
  | addrMemcard => exact atDispatch_engineStep s (eraseEngine_done _ _)
  | addrSentinel => exact execAddrSentinel_engineStep s
  | addrIgnored b => exact atDispatch_engineStep s (eraseEngine_done _ _)
  | addrInvalid b => exact atDispatch_engineStep s (eraseEngine_done _ _)
  | cmdPoll => exact atCmdchk_engineStep s (eraseEngine_done _ _)
  | cmdSentinel => exact atCmdchk_engineStep s (eraseEngine_done _ _)
  | cmdOther b => exact atCmdchk_engineStep s (eraseEngine_done _ _)
  | idLow => exact xferStep_engineStep s 0x41 0
  | idHigh => exact xferStep_engineStep s 0x5A 0

end Operations

/-! ## CHR -/

/-- CHR goes on at its own micro-steps where `write_idx` holds an index, which its r1 reads (43_channel.md R245). -/
theorem exec_chr_goes_on {s : State} (hidx : ∃ i, s.ch.byteAt writeIdxAddr = idxByte i)
    (hown : ownsMpc .chr s.mpc = true) : ∃ t, exec .chr s = .next t := by
  simp only [exec, execChr]
  generalize s.mpc = m at hown ⊢
  split
  · obtain ⟨i, hi⟩ := hidx
    exact ⟨_, chReadIdx_of_eq (by decide) hi _⟩
  · exact ⟨_, rfl⟩
  · exact ⟨_, chRead_of_lt (slotAddr_lt s.ridx (by decide)) s _⟩
  · exact ⟨_, chRead_of_lt (slotAddr_lt s.ridx (by decide)) s _⟩
  · exact ⟨_, chWrite_of_lt (by decide) _ s _⟩
  · simp [ownsMpc, *] at hown

theorem exec_chr_foreign {s : State} (hown : ownsMpc .chr s.mpc = false) :
    exec .chr s = .fault .foreignMicroStep := by
  simp only [exec, execChr]
  generalize s.mpc = m at hown ⊢
  split
  case h_6 => rfl
  all_goals cases hown

/-- CHR writes only what ENGINE owns, and of the channel only `read_idx`, in its r5. -/
theorem exec_chr_eraseEngine {s t : State} (h : exec .chr s = .next t) :
    eraseEngine t = eraseEngine s ∨
      eraseEngine t = eraseEngine { s with ch := s.ch.setByte readIdxAddr (idxByte s.ridx) } := by
  rcases execChr_cases h with ⟨-, i, -, rfl⟩ | ⟨-, rfl⟩ | ⟨-, rfl⟩ | ⟨-, rfl⟩ | ⟨-, rfl⟩
  · exact .inl rfl
  · exact .inl rfl
  · exact .inl rfl
  · exact .inl rfl
  · exact .inr (eraseEngine_done _ _)

/-! ## Every ENGINE instruction -/

/-- 10_state.md R53: what an ENGINE instruction leaves to the others. The channel may change at `read_idx` alone. -/
theorem exec_eraseEngine {i : Instr} {s t : State} (hi : i.agent = .engine) (hwf : s.ch.wf = true)
    (h : exec i s = .next t) :
    ∃ m : Memory, eraseEngine t = eraseEngine { s with ch := m } ∧
      ∀ a, a ≠ readIdxAddr → m.byteAt a = s.ch.byteAt a := by
  by_cases hchr : i = .chr
  · subst hchr
    rcases exec_chr_eraseEngine h with hframe | hframe
    · exact ⟨s.ch, hframe, fun _ _ => rfl⟩
    · refine ⟨_, hframe, fun a ha => ?_⟩
      rw [Memory.byteAt_put hwf, if_neg ha]
  · have hstep := exec_engineStep s hi hchr
    rw [h] at hstep
    exact ⟨s.ch, hstep.frame, fun _ _ => rfl⟩

theorem exec_goes_on {i : Instr} {s : State} (hi : i.agent = .engine) (hch : ChannelInv s)
    (hown : ownsMpc i s.mpc = true) : ∃ t, exec i s = .next t := by
  by_cases hchr : i = .chr
  · subst hchr
    exact exec_chr_goes_on (hch.writeIdx.elim (⟨0, ·⟩) (⟨1, ·⟩)) hown
  · exact (hown ▸ exec_engineStep s hi hchr).goes_on

theorem exec_foreign {i : Instr} {s : State} (hi : i.agent = .engine) (hown : ownsMpc i s.mpc = false) :
    exec i s = .fault .foreignMicroStep := by
  by_cases hchr : i = .chr
  · subst hchr
    exact exec_chr_foreign hown
  · exact (hown ▸ exec_engineStep s hi hchr).faults

/-- Settles O7: ENGINE's instructions by their micro-steps, and the two index reads that stop. -/
theorem ownMicroStepsComplete : Obligations.OwnMicroStepsComplete := by
  unfold Obligations.OwnMicroStepsComplete
  refine ⟨fun i s hi hch => ⟨exec_goes_on hi hch, exec_foreign hi⟩, ?_, ?_⟩
  · exact fun s hpos hbad => exec_chw_of_badIndex hpos hbad
  · exact fun s hmpc hbad => exec_chr_of_badIndex hmpc hbad

/-- Settles O55: what is not ENGINE's is read off the erased state. -/
theorem engineWritesOnlyItsOwn : Obligations.EngineWritesOnlyItsOwn := by
  unfold Obligations.EngineWritesOnlyItsOwn
  intro i s t hi hwf h
  obtain ⟨m, hframe, hcells⟩ := exec_eraseEngine hi hwf h
  simp only [eraseEngine, State.mk.injEq, true_and] at hframe
  obtain ⟨hcfg, hpins, hsnap1, hsnap2, htelPort, hnow, hstore, hch, hwr, hwriterOp, hisrOp, hagenda, hturns⟩ := hframe
  exact ⟨hcfg, hpins, hsnap1, hsnap2, htelPort, hnow, hstore, hwr, hwriterOp, hisrOp, hagenda, hturns,
    fun a ha => hch ▸ hcells a ha⟩

/-! ## The other agents -/

/-- A store to any other cell leaves `read_idx`. -/
theorem byteAt_readIdx_setByte {m : Memory} (hwf : m.wf = true) {a : Nat} (ha : a ≠ readIdxAddr) (v : Byte) :
    (m.setByte a v).byteAt readIdxAddr = m.byteAt readIdxAddr := by
  rw [Memory.byteAt_put hwf, if_neg ha.symm]

theorem exec_chw_frame {s t : State} (h : exec .chw s = .next t) : t = { s with ch := t.ch, wr := t.wr } := by
  rcases execChw_cases h with ⟨-, r, w, -, -, rfl⟩ | ⟨-, rfl⟩ | ⟨-, rfl⟩ | ⟨-, rfl⟩ | ⟨-, rfl⟩ | ⟨-, rfl⟩ <;> rfl

/-- CHW stores only to its target slot and to `write_idx` (43_channel.md R244). -/
theorem exec_chw_readIdx {s t : State} (hwf : s.ch.wf = true) (h : exec .chw s = .next t) :
    t.ch.byteAt readIdxAddr = s.ch.byteAt readIdxAddr := by
  rcases execChw_cases h with ⟨-, r, w, -, -, rfl⟩ | ⟨-, rfl⟩ | ⟨-, rfl⟩ | ⟨-, rfl⟩ | ⟨-, rfl⟩ | ⟨-, rfl⟩
  · rfl
  · rfl
  · exact byteAt_readIdx_setByte hwf (slotAddr_ne_index s.wr.wt (by decide)).2 _
  · exact byteAt_readIdx_setByte hwf (slotAddr_ne_index s.wr.wt (by decide)).2 _
  · rfl
  · exact byteAt_readIdx_setByte hwf (by decide) _

theorem exec_isr (s : State) : exec .isr s = .next (takeInterrupt s) := rfl

theorem exec_tread (x : TelReg) (s : State) : exec (.tread x) s = .next { s with telPort := some (telValue x s) } :=
  rfl

/-- Settles O54: CHW by its micro-steps; ISR and TREAD have one each. -/
theorem otherAgentsWriteOnlyTheirOwn : Obligations.OtherAgentsWriteOnlyTheirOwn := by
  unfold Obligations.OtherAgentsWriteOnlyTheirOwn
  refine ⟨fun s t hwf h => ⟨exec_chw_frame h, exec_chw_readIdx hwf h⟩, fun s t h => ?_, fun x s t h => ?_⟩
  · rw [exec_isr] at h
    cases h
    rfl
  · rw [exec_tread] at h
    cases h
    rfl

end Sys2Proof.Proofs.Ownership
end

