-- ==== Sys2Proof/Proofs/Memory.lean ====
section
/-! PROOFS. The channel memory and what stays fixed (20_memory.md R82, R87, R93): the effect of one turn, agent by agent;
what every turn keeps (the configuration, the canonical memory and its index cells); and what a whole CHR returns in a
run where WRITER rests. -/

open Sys2Proof
open Sys2Proof.Machine

namespace Sys2Proof.Proofs.Memory

open Sys2Proof.Proofs.Ownership

/-! ## One turn, agent by agent -/

/-- What a turn taken in s leads to (60_exceptions.md R286, R290): an agent other than ENGINE that
goes on has run its one operation, whatever its operation word (30_encoding.md R118). -/
inductive TurnEffect (s : State) : Turn → State → Prop
  | isr (hisr : isrEnabled s = true) : TurnEffect s .engine (takeInterrupt s)
  | engine {i : Instr} {t : State} (hisr : isrEnabled s = false) (hi : i.agent = .engine)
      (hexec : exec i s = .next t) : TurnEffect s .engine t
  | writer {s1 s2 : Byte} {t : State} (hexec : exec .chw { s with snap1 := s1, snap2 := s2 } = .next t) :
      TurnEffect s (.writer s1 s2) t
  | telemetry (w : OpWord) (x : TelReg) : TurnEffect s (.telemetry w) { s with telPort := some (telValue x s) }
  | host (p : Pins) : TurnEffect s (.host p) (hostStep p s)
  | timebase : TurnEffect s .timebase (timebaseStep s)

theorem takeTurn_effect {τ : Turn} {s t : State} (h : takeTurn τ s = .next t) : TurnEffect s τ t := by
  rcases takeTurn_cases h with ⟨rfl, hisr, h⟩ | ⟨rfl, hisr, e, i, -, -, hi, hexec⟩ | ⟨s1, s2, rfl, h⟩ | ⟨w, rfl, h⟩ |
    ⟨p, rfl, rfl⟩ | ⟨rfl, rfl⟩
  · obtain ⟨i, -, hi, hexec⟩ := issue_next.mp h
    rw [agent_isr.mp hi, exec_isr] at hexec
    cases hexec
    exact .isr hisr
  · exact .engine hisr hi hexec
  · obtain ⟨i, -, hi, hexec⟩ := issue_next.mp h
    rw [agent_writer.mp hi] at hexec
    exact .writer hexec
  · obtain ⟨i, -, hi, hexec⟩ := issue_next.mp h
    obtain ⟨x, rfl⟩ := agent_telemetry.mp hi
    rw [exec_tread] at hexec
    cases hexec
    exact .telemetry w x
  · exact .host p
  · exact .timebase

/-- What an ENGINE instruction leaves to the others, in any memory: the channel is as it was, or it is after the store
of `R.ridx` to `read_idx`. -/
theorem exec_engine_frame {i : Instr} {s t : State} (hi : i.agent = .engine) (h : exec i s = .next t) :
    ∃ m : Memory, eraseEngine t = eraseEngine { s with ch := m } ∧
      (m = s.ch ∨ m = s.ch.setByte readIdxAddr (idxByte s.ridx)) := by
  by_cases hchr : i = .chr
  · subst hchr
    rcases exec_chr_eraseEngine h with hframe | hframe
    · exact ⟨s.ch, hframe, .inl rfl⟩
    · exact ⟨_, hframe, .inr rfl⟩
  · have hstep := exec_engineStep s hi hchr
    rw [h] at hstep
    exact ⟨s.ch, hstep.frame, .inl rfl⟩

theorem exec_engine_ch {i : Instr} {s t : State} (hi : i.agent = .engine) (h : exec i s = .next t) :
    t.ch = s.ch ∨ t.ch = s.ch.setByte readIdxAddr (idxByte s.ridx) := by
  obtain ⟨m, hframe, hm⟩ := exec_engine_frame hi h
  have hch : t.ch = m := congrArg State.ch hframe
  rw [hch]
  exact hm

/-! ## The configuration -/

/-- What no agent writes: the parameters (10_state.md R37), the control store (20_memory.md R93) and the operation
words of WRITER and ISR (entry 12). -/
def configuration (s : State) : Params × List Entry × OpWord × OpWord := (s.cfg, s.store, s.writerOp, s.isrOp)

theorem configuration_eq_iff {s t : State} : configuration t = configuration s ↔
    t.cfg = s.cfg ∧ t.store = s.store ∧ t.writerOp = s.writerOp ∧ t.isrOp = s.isrOp := by
  simp [configuration]

/-- ENGINE's part of the state holds none of the configuration. -/
theorem configuration_eraseEngine (s : State) : configuration (eraseEngine s) = configuration s := rfl

theorem exec_engine_configuration {i : Instr} {s t : State} (hi : i.agent = .engine) (h : exec i s = .next t) :
    configuration t = configuration s := by
  obtain ⟨m, hframe, -⟩ := exec_engine_frame hi h
  rw [← configuration_eraseEngine t, hframe]
  rfl

theorem exec_chw_configuration {s t : State} (h : exec .chw s = .next t) : configuration t = configuration s :=
  (congrArg configuration (exec_chw_frame h)).trans rfl

theorem takeTurn_configuration {τ : Turn} {s t : State} (h : takeTurn τ s = .next t) :
    configuration t = configuration s := by
  cases takeTurn_effect h with
  | isr _ => rfl
  | engine _ hi hexec => exact exec_engine_configuration hi hexec
  | writer hexec => exact (exec_chw_configuration hexec).trans rfl
  | telemetry w x => rfl
  | host p => rfl
  | timebase => rfl

theorem popTurn_configuration (s : State) : configuration (popTurn s) = configuration s := by
  simp [configuration]

/-- Settles O57: a step is a turn taken in a state with the same configuration. -/
theorem stepKeepsConfiguration : Obligations.StepKeepsConfiguration := by
  unfold Obligations.StepKeepsConfiguration
  intro s t h
  have hturn : configuration t = configuration (popTurn s) := takeTurn_configuration h
  exact configuration_eq_iff.mp (hturn.trans (popTurn_configuration s))

/-! ## The channel invariant -/

/-- The invariant is about the channel memory alone. -/
theorem channelInv_of_ch_eq {s t : State} (hs : ChannelInv s) (hch : t.ch = s.ch) : ChannelInv t where
  canonical := hch ▸ hs.canonical
  writeIdx := hch ▸ hs.writeIdx
  readIdx := hch ▸ hs.readIdx

/-- A store keeps the invariant where it puts nothing but an index into an index cell (20_memory.md R82). -/
theorem channelInv_of_store {s t : State} {a : Nat} {v : Byte} (hs : ChannelInv s) (ha : a < chCells)
    (hv : a = writeIdxAddr ∨ a = readIdxAddr → v = 0x00 ∨ v = 0x01) (hch : t.ch = s.ch.setByte a v) :
    ChannelInv t where
  canonical := hch ▸ Memory.setByte_wf hs.canonical ha v
  writeIdx := by
    rw [hch, Memory.byteAt_put hs.canonical]
    split
    · rename_i heq
      exact hv (.inl heq.symm)
    · exact hs.writeIdx
  readIdx := by
    rw [hch, Memory.byteAt_put hs.canonical]
    split
    · rename_i heq
      exact hv (.inr heq.symm)
    · exact hs.readIdx

/-- A store to a slot's field. -/
theorem channelInv_of_slot_store {s t : State} {i : Idx} {f : Nat} {v : Byte} (hs : ChannelInv s) (hf : f < 2)
    (hch : t.ch = s.ch.setByte (slotAddr i f) v) : ChannelInv t :=
  have hne := slotAddr_ne_index i hf
  channelInv_of_store hs (slotAddr_lt i hf) (fun h => absurd h (not_or.mpr hne)) hch

/-- A store of an index. -/
theorem channelInv_of_index_store {s t : State} {a : Nat} {i : Idx} (hs : ChannelInv s) (ha : a < chCells)
    (hch : t.ch = s.ch.setByte a (idxByte i)) : ChannelInv t :=
  channelInv_of_store hs ha (fun _ => idxByte_zero_or_one i) hch

/-- CHW stores to its target slot and puts the slot's index into `write_idx` (43_channel.md R244). -/
theorem exec_chw_channelInv {s t : State} (hs : ChannelInv s) (h : exec .chw s = .next t) : ChannelInv t := by
  rcases execChw_cases h with ⟨-, r, w, -, -, rfl⟩ | ⟨-, rfl⟩ | ⟨-, rfl⟩ | ⟨-, rfl⟩ | ⟨-, rfl⟩ | ⟨-, rfl⟩
  · exact channelInv_of_ch_eq hs rfl
  · exact channelInv_of_ch_eq hs rfl
  · exact channelInv_of_slot_store hs (by decide) rfl
  · exact channelInv_of_slot_store hs (by decide) rfl
  · exact channelInv_of_ch_eq hs rfl
  · exact channelInv_of_index_store hs (by decide) rfl

theorem exec_engine_channelInv {i : Instr} {s t : State} (hs : ChannelInv s) (hi : i.agent = .engine)
    (h : exec i s = .next t) : ChannelInv t := by
  rcases exec_engine_ch hi h with hch | hch
  · exact channelInv_of_ch_eq hs hch
  · exact channelInv_of_index_store hs (by decide) hch

theorem takeTurn_channelInv {τ : Turn} {s t : State} (hs : ChannelInv s) (h : takeTurn τ s = .next t) :
    ChannelInv t := by
  cases takeTurn_effect h with
  | isr _ => exact channelInv_of_ch_eq hs rfl
  | engine _ hi hexec => exact exec_engine_channelInv hs hi hexec
  | writer hexec =>
    refine exec_chw_channelInv ?_ hexec
    exact channelInv_of_ch_eq hs rfl
  | telemetry w x => exact channelInv_of_ch_eq hs rfl
  | host p => exact channelInv_of_ch_eq hs rfl
  | timebase => exact channelInv_of_ch_eq hs rfl

/-- Settles O45: only CHW and CHR store, and each puts into an index cell an index. -/
theorem stepKeepsChannelInv : Obligations.StepKeepsChannelInv := by
  unfold Obligations.StepKeepsChannelInv
  intro s t hs h
  have hpop : ChannelInv (popTurn s) := channelInv_of_ch_eq hs (popTurn_ch s)
  exact takeTurn_channelInv hpop h

/-! ## Runs -/

theorem run_channelInv {σ : Nat → State} {τ : Nat → Turn} (hrun : isRun σ τ) (h0 : ChannelInv (σ 0)) (n : Nat) :
    ChannelInv (σ n) := by
  induction n with
  | zero => exact h0
  | succ n ih => exact takeTurn_channelInv ih (hrun n)

theorem run_configuration {σ : Nat → State} {τ : Nat → Turn} (hrun : isRun σ τ) {n m : Nat} (hnm : n ≤ m) :
    configuration (σ m) = configuration (σ n) := by
  induction m, hnm using Nat.le_induction with
  | base => rfl
  | succ m _ ih => exact (takeTurn_configuration (hrun m)).trans ih

/-- A turn that is not WRITER's stores to no cell but `read_idx` (20_memory.md R87). -/
theorem takeTurn_cells {τ : Turn} {s t : State} (hwf : s.ch.wf = true) (hquiet : ∀ x y, τ ≠ .writer x y)
    (h : takeTurn τ s = .next t) {a : Nat} (ha : a ≠ readIdxAddr) : t.ch.byteAt a = s.ch.byteAt a := by
  cases takeTurn_effect h with
  | isr _ => rfl
  | engine _ hi hexec =>
    rcases exec_engine_ch hi hexec with hch | hch
    · rw [hch]
    · rw [hch, Memory.byteAt_put hwf, if_neg ha]
  | writer _ => exact absurd rfl (hquiet _ _)
  | telemetry w x => rfl
  | host p => rfl
  | timebase => rfl

theorem run_cells {σ : Nat → State} {τ : Nat → Turn} (hrun : isRun σ τ) (h0 : ChannelInv (σ 0)) {n m : Nat}
    (hnm : n ≤ m) (hquiet : ∀ k, n ≤ k → k < m → ∀ x y, τ k ≠ .writer x y) {a : Nat} (ha : a ≠ readIdxAddr) :
    (σ m).ch.byteAt a = (σ n).ch.byteAt a := by
  induction m, hnm using Nat.le_induction with
  | base => rfl
  | succ m hm ih =>
    have hturn : (σ (m + 1)).ch.byteAt a = (σ m).ch.byteAt a :=
      takeTurn_cells (run_channelInv hrun h0 m).canonical (hquiet m hm m.lt_succ_self) (hrun m) ha
    exact hturn.trans (ih fun k hk hkm => hquiet k hk (by omega))

/-! ## The pair in the latest slot -/

/-- The slot that `write_idx` names, where it holds an index. -/
def latestSlot (s : State) : Idx := (s.ch.byteAt writeIdxAddr).setWidth 1

/-- The two bytes of the latest slot (43_channel.md R248). -/
def latestPair (s : State) : Byte × Byte :=
  (s.ch.byteAt (slotAddr (latestSlot s) 0), s.ch.byteAt (slotAddr (latestSlot s) 1))

theorem setWidth_idxByte (i : Idx) : (idxByte i).setWidth 1 = i := by
  revert i
  decide

theorem latestSlot_of_idxByte {s : State} {i : Idx} (h : s.ch.byteAt writeIdxAddr = idxByte i) :
    latestSlot s = i := by
  unfold latestSlot
  rw [h, setWidth_idxByte]

theorem latestPair_congr {s t : State} (h : ∀ a, a ≠ readIdxAddr → t.ch.byteAt a = s.ch.byteAt a) :
    latestPair t = latestPair s := by
  have hslot : latestSlot t = latestSlot s := congrArg (BitVec.setWidth 1) (h writeIdxAddr (by decide))
  unfold latestPair
  rw [hslot, h _ (slotAddr_ne_index _ (by decide)).2, h _ (slotAddr_ne_index _ (by decide)).2]

/-- While WRITER rests, the latest pair stays. -/
theorem run_latestPair {σ : Nat → State} {τ : Nat → Turn} (hrun : isRun σ τ) (h0 : ChannelInv (σ 0)) {n m : Nat}
    (hnm : n ≤ m) (hquiet : ∀ k, n ≤ k → k < m → ∀ x y, τ k ≠ .writer x y) :
    latestPair (σ m) = latestPair (σ n) :=
  latestPair_congr fun _ ha => run_cells hrun h0 hnm hquiet ha

/-! ## A whole CHR -/

theorem ownsMpc_chr_iff (m : Mpc) :
    ownsMpc .chr m = true ↔ m = .r1 ∨ m = .r2 ∨ m = .r3 ∨ m = .r4 ∨ m = .r5 := by
  cases m <;> simp [ownsMpc]

/-- No other operation shares a label with CHR. -/
theorem eq_chr_of_ownsMpc {i : Instr} {m : Mpc} (hchr : ownsMpc .chr m = true) (hi : ownsMpc i m = true) :
    i = .chr := by
  rcases (ownsMpc_chr_iff m).mp hchr with rfl | rfl | rfl | rfl | rfl
  all_goals
    cases i with
    | chr => rfl
    | _ => cases hi

/-- An ENGINE micro-step at a label of CHR is CHR's: any other operation faults there (entry 5). -/
theorem takeTurn_chr {s t : State} (hchr : ownsMpc .chr s.mpc = true) (hisr : isrEnabled s = false)
    (h : takeTurn .engine s = .next t) : exec .chr s = .next t := by
  cases takeTurn_effect h with
  | isr hen => simp [hisr] at hen
  | @engine i _ _ hi hexec =>
    have hown : ownsMpc i s.mpc = true := by
      by_contra hforeign
      rw [exec_foreign hi (Bool.eq_false_iff.mpr hforeign)] at hexec
      cases hexec
    rwa [eq_chr_of_ownsMpc hchr hown] at hexec

theorem ownsMpc_chr_of_reading {s : State} (h : reading s = true) : ownsMpc .chr s.mpc = true := by
  unfold reading at h
  rw [ownsMpc_chr_iff]
  split at h <;> simp_all

theorem entryMpc_eq_firstMpc (store : List Entry) (pc : Pc) : ∃ i, entryMpc store pc = firstMpc i := by
  unfold entryMpc
  split
  · exact ⟨.idlewait, rfl⟩
  · split
    · exact ⟨_, rfl⟩
    · exact ⟨.idlewait, rfl⟩

theorem reading_of_firstMpc {s : State} {i : Instr} (h : s.mpc = firstMpc i) : reading s = false := by
  unfold reading
  rw [h]
  cases i <;> rfl

/-- An operation begins at its first micro-step (10_state.md R41), so none begins inside a read. -/
theorem reading_done (o : Branch) (s : State) : reading (done o s) = false := by
  obtain ⟨i, hi⟩ := entryMpc_eq_firstMpc s.store (nextPc s.entry s.pc o)
  exact reading_of_firstMpc ((done_mpc o s).trans hi)

/-- What a CHR in progress has loaded so far is from the latest slot. -/
structure ReadsLatest (s : State) : Prop where
  index : s.ch.byteAt writeIdxAddr = idxByte s.ridx
  first : s.mpc = .r4 ∨ s.mpc = .r5 → s.b1 = s.ch.byteAt (slotAddr s.ridx 0)
  second : s.mpc = .r5 → s.b2 = s.ch.byteAt (slotAddr s.ridx 1)

theorem readsLatest_of_r1 {s t : State} (hmpc : s.mpc = .r1) (hisr : isrEnabled s = false)
    (h : takeTurn .engine s = .next t) : ReadsLatest t := by
  have hexec : exec .chr s = .next t := takeTurn_chr (by rw [hmpc]; rfl) hisr h
  rcases execChr_cases hexec with ⟨-, i, hi, rfl⟩ | ⟨hm, -⟩ | ⟨hm, -⟩ | ⟨hm, -⟩ | ⟨hm, -⟩
  · exact ⟨hi, nofun, nofun⟩
  all_goals
    rw [hmpc] at hm
    cases hm

/-- A turn inside a CHR, not WRITER's, keeps what has been loaded and loads from the latest slot (43_channel.md
R245). -/
theorem takeTurn_readsLatest {τ : Turn} {s t : State} (hs : ReadsLatest s) (hread : reading s = true)
    (hread' : reading t = true) (hquiet : ∀ x y, τ ≠ .writer x y) (h : takeTurn τ s = .next t) : ReadsLatest t := by
  cases takeTurn_effect h with
  | engine hisr hi _ =>
    rcases execChr_cases (takeTurn_chr (ownsMpc_chr_of_reading hread) hisr h) with
      ⟨hm, -⟩ | ⟨-, rfl⟩ | ⟨-, rfl⟩ | ⟨hm, rfl⟩ | ⟨-, rfl⟩
    · simp [reading, hm] at hread
    · exact ⟨hs.index, nofun, nofun⟩
    · exact ⟨hs.index, fun _ => rfl, nofun⟩
    · exact ⟨hs.index, fun _ => hs.first (.inl hm), fun _ => rfl⟩
    · simp [reading_done] at hread'
  | writer _ => exact absurd rfl (hquiet _ _)
  | isr _ => exact ⟨hs.index, hs.first, hs.second⟩
  | telemetry w x => exact ⟨hs.index, hs.first, hs.second⟩
  | host p => exact ⟨hs.index, hs.first, hs.second⟩
  | timebase => exact ⟨hs.index, hs.first, hs.second⟩

/-- At every position inside a whole CHR that WRITER leaves alone, what is loaded is from the latest slot. -/
theorem wholeChr_readsLatest {σ : Nat → State} {τ : Nat → Turn} {n m : Nat} (hrun : isRun σ τ)
    (hchr : WholeChr σ τ n m) (hquiet : noWriterTurn τ n m) {k : Nat} (hnk : n + 1 ≤ k) (hkm : k ≤ m) :
    ReadsLatest (σ k) := by
  induction k, hnk using Nat.le_induction with
  | base =>
    obtain ⟨hmpc, hengine, hisr⟩ := hchr.first
    exact readsLatest_of_r1 hmpc hisr (hengine ▸ hrun n)
  | succ k hk ih =>
    obtain ⟨-, hinside⟩ := hchr.inside
    exact takeTurn_readsLatest (ih (by omega)) (hinside k hk (by omega)) (hinside (k + 1) (by omega) hkm)
      (hquiet k hk (by omega)) (hrun k)

/-- CHR's r5 cleans what is loaded. -/
theorem takeTurn_r5 {s t : State} (hmpc : s.mpc = .r5) (hisr : isrEnabled s = false)
    (h : takeTurn .engine s = .next t) : (t.b1, t.b2) = socd s.cfg s.b1 s.b2 := by
  have hexec : exec .chr s = .next t := takeTurn_chr (by rw [hmpc]; rfl) hisr h
  rcases execChr_cases hexec with ⟨hm, -⟩ | ⟨hm, -⟩ | ⟨hm, -⟩ | ⟨hm, -⟩ | ⟨-, rfl⟩
  case inr.inr.inr.inr => simp [cleanSnapshot]
  all_goals
    rw [hmpc] at hm
    cases hm

/-- A whole CHR with no WRITER step returns the latest pair, cleaned (43_channel.md R245). -/
theorem wholeChr_returns {σ : Nat → State} {τ : Nat → Turn} {n m : Nat} (hrun : isRun σ τ)
    (hchr : WholeChr σ τ n m) (hquiet : noWriterTurn τ n m) :
    ((σ (m + 1)).b1, (σ (m + 1)).b2) = socd (σ m).cfg (latestPair (σ m)).1 (latestPair (σ m)).2 := by
  obtain ⟨hnm, -⟩ := hchr.inside
  obtain ⟨hmpc, hengine, hisr⟩ := hchr.last
  have hread : ReadsLatest (σ m) := wholeChr_readsLatest hrun hchr hquiet hnm le_rfl
  rw [takeTurn_r5 hmpc hisr (hengine ▸ hrun m), hread.first (.inr hmpc), hread.second hmpc]
  simp only [latestPair, latestSlot_of_idxByte hread.index]

/-- Settles O44: both reads return the latest pair of their end, and it stays from the one end to the other. -/
theorem rereadReturnsSameSnapshot : Obligations.RereadReturnsSameSnapshot := by
  unfold Obligations.RereadReturnsSameSnapshot
  intro σ τ n m n' m' hrun h0 hchr hchr' hmn' hquiet
  obtain ⟨hnm, -⟩ := hchr.inside
  obtain ⟨hnm', -⟩ := hchr'.inside
  have hfirst := wholeChr_returns hrun hchr fun k hk hkm => hquiet k hk (by omega)
  have hsecond := wholeChr_returns hrun hchr' fun k hk hkm => hquiet k (by omega) hkm
  have hpair : latestPair (σ m') = latestPair (σ m) :=
    run_latestPair hrun h0 (by omega) fun k hk hkm => hquiet k (by omega) (by omega)
  have hcfg : (σ m').cfg = (σ m).cfg :=
    (configuration_eq_iff.mp (run_configuration hrun (by omega))).1
  rw [hpair, hcfg, ← hfirst] at hsecond
  exact Prod.mk.inj hsecond

end Sys2Proof.Proofs.Memory
end

