-- ==== Sys2Proof/Proofs/Encoding.lean ====
section
/-! PROOFS. The encodings (30_encoding.md R113, R115, R117, R118): an operation word is its two fields; each operand
kind decodes exactly its own codes; so the decoder and the encoder are inverse, and the words that decode are the ones in the
table's ranges. -/

open Sys2Proof
open Sys2Proof.Machine

namespace Sys2Proof.Proofs.Encoding

/-! ## The two fields of a word -/

@[simp] theorem opcOf_mkWord (opc opnd : Byte) : opcOf (mkWord opc opnd) = opc :=
  BitVec.extractLsb'_append_eq_right

@[simp] theorem opndOf_mkWord (opc opnd : Byte) : opndOf (mkWord opc opnd) = opnd :=
  BitVec.extractLsb'_append_eq_left

theorem opcOf_toNat (w : OpWord) : (opcOf w).toNat = w.toNat % 256 := by
  simp [opcOf]

theorem opndOf_toNat (w : OpWord) : (opndOf w).toNat = w.toNat / 256 := by
  have hw : w.toNat < 65536 := w.isLt
  simp only [opndOf, BitVec.extractLsb'_toNat, Nat.shiftRight_eq_div_pow]
  omega

/-- A word is known from its two fields. -/
theorem eq_mkWord {w : OpWord} {opc opnd : Byte} (hopc : (opcOf w).toNat = opc.toNat)
    (hopnd : (opndOf w).toNat = opnd.toNat) : w = mkWord opc opnd := by
  have hlow := opcOf_toNat (mkWord opc opnd)
  have hhigh := opndOf_toNat (mkWord opc opnd)
  rw [opcOf_mkWord] at hlow
  rw [opndOf_mkWord] at hhigh
  rw [opcOf_toNat] at hopc
  rw [opndOf_toNat] at hopnd
  exact BitVec.eq_of_toNat_eq (by omega)

/-! ## The operand kinds -/

section Operands
variable {opc opnd : Byte} {i j : Instr}

theorem decodeNone_eq_ok : decodeNone opc opnd i = .ok j ↔ opnd = 0x00 ∧ i = j := by
  unfold decodeNone
  split <;> simp_all

/-- An operand kind with the two codes 0 and 1. -/
theorem twoCodes_eq_ok {k : Instr} {why : Reserved} :
    (if opnd = 0x00 then .ok i else if opnd = 0x01 then .ok j else .error why : Except Reserved Instr) = .ok k ↔
      (opnd = 0x00 ∧ i = k) ∨ (opnd = 0x01 ∧ j = k) := by
  split
  · simp_all
  · split <;> simp_all

theorem decodeReg_eq_ok {f : ButtonReg → Instr} : decodeReg opc opnd f = .ok j ↔ ∃ r, opnd = r.code ∧ f r = j := by
  refine twoCodes_eq_ok.trans ⟨?_, ?_⟩
  · rintro (h | h)
    exacts [⟨.b1, h⟩, ⟨.b2, h⟩]
  · rintro ⟨_ | _, h⟩
    exacts [.inl h, .inr h]

theorem decodeTsel_eq_ok {f : TimeoutSel → Instr} :
    decodeTsel opc opnd f = .ok j ↔ ∃ t, opnd = t.code ∧ f t = j := by
  refine twoCodes_eq_ok.trans ⟨?_, ?_⟩
  · rintro (h | h)
    exacts [⟨.edge, h⟩, ⟨.byte, h⟩]
  · rintro ⟨_ | _, h⟩
    exacts [.inl h, .inr h]

theorem decodeOsel_eq_ok {f : ObsSel → Instr} : decodeOsel opc opnd f = .ok j ↔ ∃ o, opnd = o.code ∧ f o = j := by
  refine twoCodes_eq_ok.trans ⟨?_, ?_⟩
  · rintro (h | h)
    exacts [⟨.fail, h⟩, ⟨.cmd, h⟩]
  · rintro ⟨_ | _, h⟩
    exacts [.inl h, .inr h]

theorem decodeDsel_eq_ok {f : DelaySel → Instr} : decodeDsel opc opnd f = .ok j ↔ ∃ d, opnd = d.code ∧ f d = j := by
  constructor
  · unfold decodeDsel
    split
    · rintro ⟨⟩
      exact ⟨.post, ‹_›, rfl⟩
    · split
      · rintro ⟨⟩
        exact ⟨.ackdly, ‹_›, rfl⟩
      · split
        · rintro ⟨⟩
          exact ⟨.debounce, ‹_›, rfl⟩
        · rintro ⟨⟩
  · rintro ⟨_ | _ | _, rfl, rfl⟩ <;> rfl

theorem telRegOf_code (x : TelReg) : telRegOf x.code = some x := by
  cases x <;> rfl

theorem code_of_telRegOf : ∀ (b : Byte) (x : TelReg), telRegOf b = some x → b = x.code := by
  decide

theorem decodeTidx_eq_ok {f : TelReg → Instr} : decodeTidx opc opnd f = .ok j ↔ ∃ x, opnd = x.code ∧ f x = j := by
  constructor
  · unfold decodeTidx
    split
    · rintro ⟨⟩
      exact ⟨_, code_of_telRegOf _ _ ‹_›, rfl⟩
    · rintro ⟨⟩
  · rintro ⟨x, rfl, rfl⟩
    rw [decodeTidx, telRegOf_code]

end Operands

/-! ## Words -/

theorem decodeWord_xferi (v : Byte) : decodeWord (mkWord 0x07 v) = .ok (.xferi v) := by
  simp [decodeWord]

theorem decodeWord_txi (v : Byte) : decodeWord (mkWord 0x10 v) = .ok (.txi v) := by
  simp [decodeWord]

/-- The decoder inverts the encoder on the operations that have a word. -/
theorem decodeWord_of_encode {i : Instr} {w : OpWord} (h : encode i = .word w) : decodeWord w = .ok i := by
  cases i <;> cases h
  case delay d => cases d <;> rfl
  case xferi v => exact decodeWord_xferi v
  case xferr r => cases r <;> rfl
  case calobs o => cases o <;> rfl
  case txi v => exact decodeWord_txi v
  case txr r => cases r <;> rfl
  case waitf t => cases t <;> rfl
  case waitr t => cases t <;> rfl
  case tread x => cases x <;> rfl
  all_goals rfl

/-- The word of an operation is the one with its two fields. -/
theorem encode_of_fields {w : OpWord} {opc opnd : Byte} {i : Instr} (henc : encode i = .word (mkWord opc opnd))
    (hopc : (opcOf w).toNat = opc.toNat) (hopnd : opndOf w = opnd) : encode i = .word w := by
  rw [henc, eq_mkWord hopc (congrArg BitVec.toNat hopnd)]

/-- The encoder inverts the decoder: row by row, a decoded operand is the code of the operand it decodes to. -/
theorem encode_of_decodeWord {w : OpWord} {i : Instr} (h : decodeWord w = .ok i) : encode i = .word w := by
  dsimp only [decodeWord] at h
  split at h
  case h_6 hopc =>
    obtain ⟨d, hopnd, rfl⟩ := decodeDsel_eq_ok.mp h
    exact encode_of_fields rfl hopc hopnd
  case h_7 hopc =>
    cases h
    exact encode_of_fields rfl hopc rfl
  case h_9 hopc =>
    obtain ⟨o, hopnd, rfl⟩ := decodeOsel_eq_ok.mp h
    exact encode_of_fields rfl hopc hopnd
  case h_16 hopc =>
    cases h
    exact encode_of_fields rfl hopc rfl
  case h_8 hopc | h_17 hopc =>
    obtain ⟨r, hopnd, rfl⟩ := decodeReg_eq_ok.mp h
    exact encode_of_fields rfl hopc hopnd
  case h_18 hopc | h_19 hopc =>
    obtain ⟨t, hopnd, rfl⟩ := decodeTsel_eq_ok.mp h
    exact encode_of_fields rfl hopc hopnd
  case h_24 hopc =>
    obtain ⟨x, hopnd, rfl⟩ := decodeTidx_eq_ok.mp h
    exact encode_of_fields rfl hopc hopnd
  case h_25 => cases h
  all_goals
    obtain ⟨hopnd, rfl⟩ := decodeNone_eq_ok.mp h
    exact encode_of_fields rfl ‹_› hopnd

theorem decodeWord_eq_ok_iff {w : OpWord} {i : Instr} : decodeWord w = .ok i ↔ encode i = .word w :=
  ⟨encode_of_decodeWord, decodeWord_of_encode⟩

/-- Settles O4: each word is a row of the decoder. -/
theorem sampleWordsDecode : Obligations.SampleWordsDecode := by
  unfold Obligations.SampleWordsDecode
  exact ⟨rfl, rfl, decodeWord_xferi 0x41, rfl, rfl, rfl, rfl, rfl⟩

/-- Settles O2. -/
theorem encodeDecodedWord : Obligations.EncodeDecodedWord := by
  unfold Obligations.EncodeDecodedWord
  exact fun _ _ => encode_of_decodeWord

/-! ## Wire bytes -/

/-- An address byte without a row of its own is told by the ignore list (30_encoding.md R113). -/
theorem decodeAddr_unnamed {ignore : List Byte} {b : Byte} (hb : namedAddress b = false) :
    decodeAddr ignore b = if ignore.contains b then .addrIgnored b else .addrInvalid b := by
  simp only [namedAddress, Bool.or_eq_false_iff, beq_eq_false_iff_ne] at hb
  obtain ⟨⟨hcontroller, hmemcard⟩, hsentinel⟩ := hb
  rw [decodeAddr, if_neg hsentinel, if_neg hcontroller, if_neg hmemcard]

theorem decodeCmd_unnamed {b : Byte} (hb : namedCommand b = false) : decodeCmd b = .cmdOther b := by
  simp only [namedCommand, Bool.or_eq_false_iff, beq_eq_false_iff_ne] at hb
  obtain ⟨hpoll, hsentinel⟩ := hb
  rw [decodeCmd, if_neg hsentinel, if_neg hpoll]

theorem decode_encode {ignore : List Byte} {i : Instr} (hwf : i.wf ignore = true) :
    decode ignore (encode i) = .ok i := by
  cases hcode : encode i with
  | word w => exact decodeWord_of_encode hcode
  | wire p b =>
    cases i <;> cases hcode
    case wire.addrIgnored =>
      simp only [Instr.wf, Bool.and_eq_true, Bool.not_eq_true'] at hwf
      obtain ⟨hmem, hunnamed⟩ := hwf
      rw [decode, decodeAddr_unnamed hunnamed, if_pos hmem]
    case wire.addrInvalid =>
      simp only [Instr.wf, Bool.and_eq_true, Bool.not_eq_true'] at hwf
      obtain ⟨hmem, hunnamed⟩ := hwf
      rw [decode, decodeAddr_unnamed hunnamed, if_neg (Bool.eq_false_iff.mp hmem)]
    case wire.cmdOther =>
      simp only [Instr.wf, Bool.not_eq_true'] at hwf
      rw [decode, decodeCmd_unnamed hwf]
    all_goals rfl

/-- Settles O1. -/
theorem decodeEncodeRoundTrip : Obligations.DecodeEncodeRoundTrip := by
  unfold Obligations.DecodeEncodeRoundTrip
  exact fun _ _ => decode_encode

/-! ## Reserved words -/

/-- The ranges of R117 and R118, over the two fields. -/
theorem operationWord_iff_fields (w : OpWord) : Claims.operationWord w ↔
    ((opcOf w).toNat ∈ [0x01, 0x02, 0x03, 0x04, 0x05, 0x0A, 0x0B, 0x0C, 0x0D, 0x0E, 0x0F, 0x14, 0x15, 0x20, 0x30] ∧
      (opndOf w).toNat = 0) ∨
    (opcOf w).toNat ∈ [0x07, 0x10] ∨
    ((opcOf w).toNat ∈ [0x08, 0x09, 0x11, 0x12, 0x13] ∧ (opndOf w).toNat ≤ 1) ∨
    ((opcOf w).toNat = 0x06 ∧ (opndOf w).toNat ≤ 2) ∨
    ((opcOf w).toNat = 0x31 ∧ (opndOf w).toNat ≤ 0x0D) := by
  rw [opcOf_toNat, opndOf_toNat]
  rfl

/-- Every operation's word is in the ranges. -/
theorem operationWord_of_encode {i : Instr} {w : OpWord} (h : encode i = .word w) : Claims.operationWord w := by
  rw [operationWord_iff_fields]
  cases i <;> cases h <;> rw [opcOf_mkWord, opndOf_mkWord]
  case xferi v => exact .inr (.inl (by decide))
  case txi v => exact .inr (.inl (by decide))
  case delay d => cases d <;> decide
  case xferr r => cases r <;> decide
  case calobs o => cases o <;> decide
  case txr r => cases r <;> decide
  case waitf t => cases t <;> decide
  case waitr t => cases t <;> decide
  case tread x => cases x <;> decide
  all_goals decide

/-- An operand in the range of an enumerated kind is a code of that kind. -/
theorem exists_code_of_le_one {b : Byte} (hb : b.toNat ≤ 1) :
    (∃ r : ButtonReg, b = r.code) ∧ (∃ t : TimeoutSel, b = t.code) ∧ (∃ o : ObsSel, b = o.code) := by
  have hb : b = 0x00 ∨ b = 0x01 := by bv_omega
  rcases hb with rfl | rfl
  · exact ⟨⟨.b1, rfl⟩, ⟨.edge, rfl⟩, ⟨.fail, rfl⟩⟩
  · exact ⟨⟨.b2, rfl⟩, ⟨.byte, rfl⟩, ⟨.cmd, rfl⟩⟩

theorem exists_delaySel_code {b : Byte} (hb : b.toNat ≤ 2) : ∃ d : DelaySel, b = d.code := by
  have hb : b = 0x00 ∨ b = 0x01 ∨ b = 0x02 := by bv_omega
  rcases hb with rfl | rfl | rfl
  exacts [⟨.post, rfl⟩, ⟨.ackdly, rfl⟩, ⟨.debounce, rfl⟩]

theorem telRegOf_isSome : ∀ b : Byte, b.toNat ≤ 0x0D → (telRegOf b).isSome = true := by
  decide

theorem exists_telReg_code {b : Byte} (hb : b.toNat ≤ 0x0D) : ∃ x : TelReg, b = x.code := by
  obtain ⟨x, hx⟩ := Option.isSome_iff_exists.mp (telRegOf_isSome b hb)
  exact ⟨x, code_of_telRegOf b x hx⟩

/-- Every word in the ranges is the word of an operation, opcode by opcode. -/
theorem exists_encode_of_operationWord {w : OpWord} (h : Claims.operationWord w) : ∃ i, encode i = .word w := by
  rw [operationWord_iff_fields] at h
  simp only [List.mem_cons, List.not_mem_nil, or_false] at h
  rcases h with ⟨hopc, hzero⟩ | hopc | ⟨hopc, hle⟩ | ⟨hopc, hle⟩ | ⟨hopc, hle⟩
  · have hopnd : opndOf w = 0x00 := BitVec.eq_of_toNat_eq hzero
    rcases hopc with hopc | hopc | hopc | hopc | hopc | hopc | hopc | hopc | hopc | hopc | hopc | hopc | hopc | hopc |
      hopc
    · exact ⟨.idlewait, encode_of_fields rfl hopc hopnd⟩
    · exact ⟨.start, encode_of_fields rfl hopc hopnd⟩
    · exact ⟨.rx, encode_of_fields rfl hopc hopnd⟩
    · exact ⟨.dispatch, encode_of_fields rfl hopc hopnd⟩
    · exact ⟨.ack, encode_of_fields rfl hopc hopnd⟩
    · exact ⟨.cmdchk, encode_of_fields rfl hopc hopnd⟩
    · exact ⟨.stpoll, encode_of_fields rfl hopc hopnd⟩
    · exact ⟨.chr, encode_of_fields rfl hopc hopnd⟩
    · exact ⟨.endTxn, encode_of_fields rfl hopc hopnd⟩
    · exact ⟨.mcwait, encode_of_fields rfl hopc hopnd⟩
    · exact ⟨.abort, encode_of_fields rfl hopc hopnd⟩
    · exact ⟨.relbus, encode_of_fields rfl hopc hopnd⟩
    · exact ⟨.caltick, encode_of_fields rfl hopc hopnd⟩
    · exact ⟨.chw, encode_of_fields rfl hopc hopnd⟩
    · exact ⟨.isr, encode_of_fields rfl hopc hopnd⟩
  · rcases hopc with hopc | hopc
    · exact ⟨.xferi (opndOf w), encode_of_fields rfl hopc rfl⟩
    · exact ⟨.txi (opndOf w), encode_of_fields rfl hopc rfl⟩
  · obtain ⟨⟨r, hr⟩, ⟨t, ht⟩, ⟨o, ho⟩⟩ := exists_code_of_le_one hle
    rcases hopc with hopc | hopc | hopc | hopc | hopc
    · exact ⟨.xferr r, encode_of_fields rfl hopc hr⟩
    · exact ⟨.calobs o, encode_of_fields rfl hopc ho⟩
    · exact ⟨.txr r, encode_of_fields rfl hopc hr⟩
    · exact ⟨.waitf t, encode_of_fields rfl hopc ht⟩
    · exact ⟨.waitr t, encode_of_fields rfl hopc ht⟩
  · obtain ⟨d, hd⟩ := exists_delaySel_code hle
    exact ⟨.delay d, encode_of_fields rfl hopc hd⟩
  · obtain ⟨x, hx⟩ := exists_telReg_code hle
    exact ⟨.tread x, encode_of_fields rfl hopc hx⟩

/-- The words that decode are those in the ranges (30_encoding.md R118). -/
theorem exists_decodeWord_iff (w : OpWord) : (∃ i, decodeWord w = .ok i) ↔ Claims.operationWord w := by
  simp only [decodeWord_eq_ok_iff]
  exact ⟨fun ⟨_, hi⟩ => operationWord_of_encode hi, exists_encode_of_operationWord⟩

theorem issue_reserved {a : Agent} {w : OpWord} {s : State} (h : ¬∃ i, decodeWord w = .ok i) :
    ∃ why, issue a w s = .refused (.reservedWord why) := by
  cases hdec : decodeWord w with
  | error why => exact ⟨why, by rw [issue, hdec]⟩
  | ok i => exact absurd ⟨i, hdec⟩ h

theorem issue_wrongAgent {a : Agent} {w : OpWord} {i : Instr} {s : State} (hdec : decodeWord w = .ok i)
    (hagent : i.agent ≠ a) : issue a w s = .refused (.wrongAgent i.agent a) := by
  simp [issue, hdec, hagent]

/-- Settles O3: the words that decode are exactly those in the ranges. -/
theorem reservedWordsRefused : Obligations.ReservedWordsRefused := by
  unfold Obligations.ReservedWordsRefused
  refine ⟨fun w a s hreserved => ?_, fun w => (exists_decodeWord_iff w).mpr, fun w a i s => issue_wrongAgent⟩
  exact issue_reserved (mt (exists_decodeWord_iff w).mp hreserved)

end Sys2Proof.Proofs.Encoding
end

