-- ==== Sys2Proof/Proofs/Wire.lean ====
section
/-! PROOFS. The wire bytes (30_encoding.md R113; entry 9). An edge wait, the sample at the end of RX's bit and a
full-duplex transfer are said once, in the words of the statements; then each wire row is the branch, the failing end
or the transfer that its byte selects. -/

open Sys2Proof
open Sys2Proof.Machine

namespace Sys2Proof.Proofs.Wire

/-! ## Bits -/

theorem bitWritten_setBit (v : Byte) {i : Nat} (hi : i < 8) (b : Bool) : Claims.bitWritten v (setBit v i b) i b :=
  fun _ hj => getLsbD_setBit v b hi hj

/-- A bit write has one result. -/
theorem setBit_eq_of_bitWritten {v r : Byte} {i : Nat} {b : Bool} (hi : i < 8) (h : Claims.bitWritten v r i b) :
    setBit v i b = r := by
  refine BitVec.eq_of_getLsbD_eq fun j hj => ?_
  rw [getLsbD_setBit v b hi hj, h j hj]

theorem bitSucc_eq {i b : Fin 9} (h : b.val = i.val + 1) : bitSucc i = b := by
  have hb := b.isLt
  exact Fin.ext ((bitSucc_val (by omega)).trans h.symm)

/-! ## Edge waits -/

/-- `T(R.bit)` (40_bus_primitives.md R142). -/
theorem byteBound_eq_bitBound (s : State) : byteBound s.bit s.cfg = Claims.bitBound s := by
  unfold byteBound Claims.bitBound
  simp only [Fin.ext_iff, Fin.val_zero]
  split <;> rfl

/-- An operation whose micro-steps at a label are `waitStep`'s waits as R143 and R144 say: one poll finds the abort
first, then the level, then the timeout. -/
theorem edgeWait_of_waitStep {i : Instr} {label : WaitPos → Mpc} {level : Bool} {bound : State → U32}
    {onOk onFail : State → State}
    (h : ∀ (s : State) (p : WaitPos), s.mpc = label p →
      exec i s = .next (waitStep level (bound s) label onOk onFail p s)) :
    Claims.edgeWait i label level bound onOk onFail := by
  intro s
  refine ⟨fun hm => h s .w0 hm, fun hm habort => ?_, fun hm habort hlevel => ?_,
    fun hm habort hlevel hwaited => ?_, fun hm habort hlevel hwaited => ?_⟩
  all_goals
    rw [h s .w1 hm]
    rw [Claims.abortSeen, ← aborted_iff] at habort
  · simp [waitStep, pollEdge, habort, raise]
  · simp [waitStep, pollEdge, habort, hlevel]
  · rw [Claims.waited, ← startElapsed_iff] at hwaited
    simp [waitStep, pollEdge, habort, hlevel, hwaited, raise]
  · rw [Claims.waited, ← startElapsed_iff] at hwaited
    simp [waitStep, pollEdge, habort, hlevel, hwaited]

/-! ## The full-duplex transfer -/

/-- An operation that runs `xferStep` is a transfer (40_bus_primitives.md R147). -/
theorem transfer_of_xferStep {i : Instr} {v : State → Byte} (h : ∀ s, exec i s = xferStep (v s) s) :
    Claims.transfer i v := by
  refine ⟨fun s hm => ?y0, edgeWait_of_waitStep fun s p hm => ?y1, fun s r hm hbit hr => ?y2, fun s hm => ?y3,
    edgeWait_of_waitStep fun s p hm => ?y4, fun s b hm hb => ?y5, fun s hm => ?y6, fun s hm => ?yf⟩
  all_goals
    rw [h]
    simp only [xferStep, hm]
  case y1 => rw [byteBound_eq_bitBound]; rfl
  case y2 => rw [setBit_eq_of_bitWritten hbit hr]; rfl
  case y5 => rw [bitSucc_eq hb]; rfl
  all_goals rfl

theorem transfer_xferi (v : Byte) : Claims.transfer (.xferi v) (fun _ => v) := transfer_of_xferStep fun _ => rfl

theorem transfer_xferr (r : ButtonReg) : Claims.transfer (.xferr r) (readReg r) := transfer_of_xferStep fun _ => rfl

/-! ## The last micro-step of a received bit -/

/-- RX's x3 before the last bit (40_bus_primitives.md R145). -/
theorem rxSample_inner {s : State} {r : Byte} {b : Fin 9} (hbit : s.bit.val < 7) (hb : b.val = s.bit.val + 1)
    (hr : Claims.bitWritten s.rx r s.bit.val s.pins.cmd) :
    rxSample s = { s with rx := r, bit := b, mpc := .x1 .w0 } := by
  unfold rxSample
  rw [setBit_eq_of_bitWritten (by omega) hr, bitSucc_eq hb]
  exact if_pos (by dsimp only; omega)

theorem isSentinel_iff (b : Byte) : isSentinel b = true ↔ b = 0xFF := beq_iff_eq

/-- RX's x3 at the last bit: a complete 0xFF fails. -/
theorem rxSample_last {s : State} {r : Byte} (hbit : s.bit.val = 7)
    (hr : Claims.bitWritten s.rx r 7 s.pins.cmd) :
    rxSample s = done (if r = 0xFF then .fail else .ok) { s with rx := r, bit := 8 } := by
  have hb : bitSucc s.bit = 8 := bitSucc_eq (by rw [hbit]; rfl)
  unfold rxSample
  rw [hbit, setBit_eq_of_bitWritten (by decide) hr, hb]
  refine (if_neg (Nat.lt_irrefl 8)).trans ?_
  by_cases hff : r = 0xFF
  · rw [if_pos hff]
    exact if_pos ((isSentinel_iff r).mpr hff)
  · rw [if_neg hff]
    exact if_neg (mt (isSentinel_iff r).mp hff)

theorem exec_rx_x3 {s : State} (hm : s.mpc = .x3) : exec .rx s = .next (rxSample s) := by
  simp only [exec, execRx, hm]

/-! ## The wire rows -/

theorem exec_dispatch (s : State) : exec .dispatch s = atDispatch (dispatchOn s.addr) s := rfl

theorem exec_cmdchk (s : State) : exec .cmdchk s = atCmdchk (commandOn s.cmd) s := rfl

theorem atDispatch_p0 (f : State → State) {s : State} (hm : s.mpc = .p0) : atDispatch f s = .next (f s) := by
  rw [atDispatch, hm]

theorem atCmdchk_k0 (f : State → State) {s : State} (hm : s.mpc = .k0) : atCmdchk f s = .next (f s) := by
  rw [atCmdchk, hm]

theorem exec_addrSentinel {s : State} (hm : s.mpc = .x3) :
    exec .addrSentinel s = .next (done .fail { s with rx := 0xFF, bit := 8 }) := by
  simp only [exec, execAddrSentinel, hm]

/-- Settles O27: address rows at p0, command rows at k0, the sentinel at x3, the identification bytes as transfers. -/
theorem wireBytesAct : Obligations.WireBytesAct := by
  unfold Obligations.WireBytesAct
  exact ⟨fun _ => atDispatch_p0 dispatchController, fun _ => atDispatch_p0 dispatchMemcard,
    fun _ => exec_addrSentinel, fun _ _ => atDispatch_p0 dispatchIgnored,
    fun _ b => atDispatch_p0 (dispatchInvalid b), fun _ => atCmdchk_k0 commandPoll,
    fun _ => atCmdchk_k0 commandSentinel, fun _ b => atCmdchk_k0 (commandOther b),
    transfer_of_xferStep fun _ => rfl, transfer_of_xferStep fun _ => rfl⟩

theorem atDispatch_congr {f g : State → State} {s : State} (h : f s = g s) : atDispatch f s = atDispatch g s := by
  unfold atDispatch
  rw [h]

theorem atCmdchk_congr {f g : State → State} {s : State} (h : f s = g s) : atCmdchk f s = atCmdchk g s := by
  unfold atCmdchk
  rw [h]

/-- DISPATCH is the row of its address: both test the addresses in the order of R174. -/
theorem exec_dispatch_eq_row {s : State} (hff : s.addr ≠ 0xFF) :
    exec .dispatch s = exec (decodeAddr s.cfg.ignoreSet s.addr) s := by
  rw [exec_dispatch, decodeAddr, if_neg hff]
  by_cases hcontroller : s.addr = 0x01
  · rw [if_pos hcontroller]
    exact atDispatch_congr (if_pos hcontroller)
  rw [if_neg hcontroller]
  by_cases hmemcard : s.addr = 0x81
  · rw [if_pos hmemcard]
    exact atDispatch_congr ((if_neg hcontroller).trans (if_pos hmemcard))
  rw [if_neg hmemcard]
  by_cases hignored : s.cfg.ignoreSet.contains s.addr = true
  · rw [if_pos hignored]
    exact atDispatch_congr ((if_neg hcontroller).trans ((if_neg hmemcard).trans (if_pos hignored)))
  · rw [if_neg hignored]
    exact atDispatch_congr ((if_neg hcontroller).trans ((if_neg hmemcard).trans (if_neg hignored)))

/-- CMDCHK is the row of its command: both test the commands in the order of R182. -/
theorem exec_cmdchk_eq_row (s : State) : exec .cmdchk s = exec (decodeCmd s.cmd) s := by
  rw [exec_cmdchk, decodeCmd]
  by_cases hsentinel : s.cmd = 0xFF
  · rw [if_pos hsentinel]
    exact atCmdchk_congr (if_pos hsentinel)
  rw [if_neg hsentinel]
  by_cases hpoll : s.cmd = 0x42
  · rw [if_pos hpoll]
    exact atCmdchk_congr ((if_neg hsentinel).trans (if_pos hpoll))
  · rw [if_neg hpoll]
    exact atCmdchk_congr ((if_neg hsentinel).trans (if_neg hpoll))

/-- A reception that completes 0xFF ends as the row ADDR_SENTINEL (41_transaction_fsm.md R173). -/
theorem exec_rx_eq_sentinel {s : State} (hm : s.mpc = .x3) (hbit : s.bit.val = 7)
    (hr : Claims.bitWritten s.rx 0xFF 7 s.pins.cmd) : exec .rx s = exec .addrSentinel s := by
  rw [exec_rx_x3 hm, rxSample_last hbit hr, exec_addrSentinel hm]
  rfl

/-- A byte that decodes as an identification byte is sent by the transfer of that byte. -/
theorem exec_xferi_eq_row {b : Byte} {i : Instr} (h : decodeTx b = .ok i) (s : State) :
    exec (.xferi b) s = exec i s := by
  unfold decodeTx at h
  split at h
  · cases h
    subst b
    rfl
  · split at h
    · cases h
      subst b
      rfl
    · cases h

/-- Settles O28: each operation is the row of its byte, and the identification bytes stand in the store. -/
theorem operationsActOnDecodedBytes : Obligations.OperationsActOnDecodedBytes := by
  unfold Obligations.OperationsActOnDecodedBytes
  exact ⟨fun _ => exec_dispatch_eq_row, exec_cmdchk_eq_row, fun _ => exec_rx_eq_sentinel,
    fun _ _ => exec_xferi_eq_row, rfl, rfl⟩

end Sys2Proof.Proofs.Wire
end

