-- ==== Sys2Proof/Proofs/Frames.lean ====
section
/-! PROOFS. Whole frames (30_encoding.md R111; 40_bus_primitives.md R145, R147): a list of turns in which HOST and
ENGINE alternate. One edge of CLK is three turns, a cycle is two edges, and a frame is an induction over its cycles in which
the bits received so far are the host's. -/

open Sys2Proof
open Sys2Proof.Machine

namespace Sys2Proof.Proofs.Frames

open Sys2Proof.Proofs.Wire

/-! ## Lists of turns -/

theorem runTurns_cons {τ : Turn} {ts : List Turn} {s t : State} (h : takeTurn τ s = .next t) :
    runTurns (τ :: ts) s = runTurns ts t := by
  rw [runTurns, h]

theorem runTurns_append {ts us : List Turn} {s t : State} (h : runTurns ts s = .next t) :
    runTurns (ts ++ us) s = runTurns us t := by
  induction ts generalizing s with
  | nil =>
    cases h
    rfl
  | cons τ rest ih =>
    rw [runTurns] at h
    split at h
    next hturn =>
      rw [List.cons_append, runTurns_cons hturn]
      exact ih h
    all_goals cases h

/-- A frame of n + 1 cycles ends with the cycle of its last bit. -/
theorem frameCycles_succ (cycle : Bool → List Turn) (v : Byte) (i n : Nat) :
    frameCycles cycle v i (n + 1) = frameCycles cycle v i n ++ cycle (v.getLsbD (i + n)) := by
  induction n generalizing i with
  | zero => simp [frameCycles]
  | succ n ih =>
    rw [frameCycles, ih (i + 1), frameCycles, List.append_assoc, Nat.add_right_comm i 1 n]
    rfl

/-- The induction over a frame's cycles: what each cycle carries from one bit to the next holds at its end. -/
theorem runTurns_frameCycles {cycle : Bool → List Turn} {v : Byte} {P : Nat → State → Prop} {last : Nat}
    (hcycle : ∀ k s, k < last → P k s → ∃ t, runTurns (cycle (v.getLsbD k)) s = .next t ∧ P (k + 1) t)
    {s : State} (hs : P 0 s) {n : Nat} (hn : n ≤ last) :
    ∃ t, runTurns (frameCycles cycle v 0 n) s = .next t ∧ P n t := by
  induction n with
  | zero => exact ⟨s, rfl, hs⟩
  | succ n ih =>
    obtain ⟨t, hrun, ht⟩ := ih (by omega)
    obtain ⟨u, hlast, hu⟩ := hcycle n t (by omega) ht
    refine ⟨u, ?_, hu⟩
    rw [frameCycles_succ, runTurns_append hrun, Nat.zero_add]
    exact hlast

/-! ## Turns of HOST and of ENGINE in a frame -/

/-- HOST shows a level of CLK and a bit on CMD. -/
def shown (p : Pins) (level cmd : Bool) (s : State) : State := { s with pins := { p with clk := level, cmd := cmd } }

/-- While select stays low, a HOST turn sets the pins and latches no interrupt (60_exceptions.md R285, R296). -/
theorem takeTurn_hostClock {p : Pins} (hsel : p.selN = false) (level cmd : Bool) (s : State) :
    takeTurn (hostClock p level cmd) s = .next (shown p level cmd s) := by
  simp [takeTurn, hostClock, hostStep, shown, hsel]

/-- ENGINE is about to run i, for an active transaction and with no interrupt pending. -/
structure Engaged (i : Instr) (s : State) : Prop where
  fetched : ∃ e, s.entry = some e ∧ decodeWord e.word = .ok i
  agent : i.agent = .engine
  active : s.active = true
  calm : s.irqPending = false

theorem Engaged.takeTurn {i : Instr} {s : State} (h : Engaged i s) : takeTurn .engine s = exec i s := by
  obtain ⟨e, hentry, hword⟩ := h.fetched
  have hisr : isrEnabled s = false := by simp [isrEnabled, h.calm]
  simp [Machine.takeTurn, contextStep, hisr, engineStep, hentry, issue, hword, h.agent]

/-- Where an edge of CLK leaves the machine: HOST shows the level and a bit, and ENGINE's wait has taken the time and
seen the level. -/
def afterEdge (p : Pins) (level cmd : Bool) (m : Mpc) (s : State) : State :=
  { shown p level cmd s with start := s.now, mpc := m }

theorem engaged_shown {i : Instr} {s : State} (h : Engaged i s) (p : Pins) (level cmd : Bool) :
    Engaged i (shown p level cmd s) :=
  ⟨h.fetched, h.agent, h.active, h.calm⟩

theorem engaged_afterEdge {i : Instr} {s : State} (h : Engaged i s) (p : Pins) (level cmd : Bool) (m : Mpc) :
    Engaged i (afterEdge p level cmd m s) :=
  ⟨h.fetched, h.agent, h.active, h.calm⟩

/-- One edge of CLK takes three turns: HOST's, and the two micro-steps of ENGINE's wait. -/
theorem Engaged.runTurns_edge {i : Instr} {s : State} {p : Pins} {label : WaitPos → Mpc} {level : Bool}
    {bound : State → U32} {okMpc : Mpc} {onFail : State → State} (h : Engaged i s)
    (hwait : Claims.edgeWait i label level bound (fun u => { u with mpc := okMpc }) onFail) (hmpc : s.mpc = label .w0)
    (hsel : p.selN = false) (cmd : Bool) :
    runTurns [hostClock p level cmd, .engine, .engine] s = .next (afterEdge p level cmd okMpc s) := by
  have htimed : Engaged i (afterEdge p level cmd (label .w1) s) := engaged_afterEdge h p level cmd _
  have hgoes : ¬Claims.abortSeen (afterEdge p level cmd (label .w1) s) := by
    simp [Claims.abortSeen, afterEdge, shown, hsel, h.active]
  obtain ⟨hstart, -⟩ := hwait (shown p level cmd s)
  obtain ⟨-, -, hreached, -⟩ := hwait (afterEdge p level cmd (label .w1) s)
  calc runTurns [hostClock p level cmd, .engine, .engine] s
      = runTurns [.engine, .engine] (shown p level cmd s) := runTurns_cons (takeTurn_hostClock hsel level cmd s)
    _ = runTurns [.engine] (afterEdge p level cmd (label .w1) s) :=
        runTurns_cons ((engaged_shown h p level cmd).takeTurn.trans (hstart hmpc))
    _ = .next (afterEdge p level cmd okMpc s) := runTurns_cons (htimed.takeTurn.trans (hreached rfl hgoes rfl))

/-! ## The bits received so far -/

/-- Inside a frame that began in base: k bits have arrived, they are v's, and nothing else has changed but the pins
and the wait's time. -/
structure AtBit (base : State) (m : Mpc) (v : Byte) (k : Nat) (s : State) : Prop where
  frame : s = { base with pins := s.pins, rx := s.rx, bit := s.bit, start := s.start, mpc := m }
  bit : s.bit.val = k
  received : ∀ j, j < k → s.rx.getLsbD j = v.getLsbD j

theorem AtBit.engaged {base s : State} {m : Mpc} {v : Byte} {k : Nat} {i : Instr} (h : AtBit base m v k s)
    (hbase : Engaged i base) : Engaged i s := by
  rw [h.frame]
  exact ⟨hbase.fetched, hbase.agent, hbase.active, hbase.calm⟩

theorem AtBit.mpc_eq {base s : State} {m : Mpc} {v : Byte} {k : Nat} (h : AtBit base m v k s) : s.mpc = m :=
  congrArg State.mpc h.frame

/-- A byte operation before its first bit. -/
def firstBit (m : Mpc) (base : State) : State := { base with rx := 0x00, bit := 0, mpc := m }

theorem atBit_firstBit (base : State) (m : Mpc) (v : Byte) : AtBit base m v 0 (firstBit m base) :=
  ⟨rfl, rfl, nofun⟩

/-- Sampling the host's next bit. -/
theorem received_setBit {v r : Byte} {k : Nat} (hk : k < 8) (h : ∀ j, j < k → r.getLsbD j = v.getLsbD j) :
    ∀ j, j < k + 1 → (setBit r k (v.getLsbD k)).getLsbD j = v.getLsbD j := by
  intro j hj
  rw [getLsbD_setBit r _ hk (by omega)]
  split
  next heq => rw [heq]
  next hne => exact h j (by omega)

/-- The last bit completes the host's byte. -/
theorem setBit_last {v r : Byte} (h : ∀ j, j < 7 → r.getLsbD j = v.getLsbD j) : setBit r 7 (v.getLsbD 7) = v :=
  BitVec.eq_of_getLsbD_eq fun j hj => received_setBit (by decide) h j hj

/-- The end of an operation does not depend on the micro-step it ends in. -/
theorem done_eq_of_stepTo (o : Branch) (m : Mpc) {s t : State} (h : s = stepTo m t) : done o s = done o t := by
  have hcopy : ∀ d, copyDest d (stepTo m t) = stepTo m (copyDest d t) := fun d => by cases d <;> rfl
  subst h
  change goto (nextPc t.entry t.pc o) (copyDest (destAt t.entry) (stepTo m t)) = _
  rw [hcopy]
  rfl

/-! ## A receive-only frame -/

theorem exec_rx_x0 {s : State} (hm : s.mpc = .x0) :
    exec .rx s = .next (firstBit (.x1 .w0) { s with failReason := .none }) := by
  simp only [exec, execRx, hm]
  rfl

theorem edgeWait_rx_x1 : Claims.edgeWait .rx .x1 false Claims.bitBound (fun s => { s with mpc := .x2 .w0 })
    (fun s => { s with mpc := .xf }) :=
  edgeWait_of_waitStep fun s p hm => by
    simp only [exec, execRx, hm, byteBound_eq_bitBound]
    rfl

theorem edgeWait_rx_x2 : Claims.edgeWait .rx .x2 true (fun s => s.cfg.edgeTimeout) (fun s => { s with mpc := .x3 })
    (fun s => { s with mpc := .xf }) :=
  edgeWait_of_waitStep fun s p hm => by
    simp only [exec, execRx, hm]
    rfl

/-- One cycle of a receive-only frame: both edges, then the sample. -/
theorem runTurns_rxCycle {s : State} {p : Pins} (h : Engaged .rx s) (hmpc : s.mpc = .x1 .w0) (hsel : p.selN = false)
    (b : Bool) : runTurns (rxCycle p b) s = .next (rxSample (afterEdge p true b .x3 s)) := by
  have hlow : Engaged .rx (afterEdge p false b (.x2 .w0) s) := engaged_afterEdge h p false b _
  have hhigh : Engaged .rx (afterEdge p true b .x3 s) := engaged_afterEdge h p true b _
  calc runTurns (rxCycle p b) s
      = runTurns [hostClock p true b, .engine, .engine, .engine] (afterEdge p false b (.x2 .w0) s) :=
        runTurns_append (h.runTurns_edge edgeWait_rx_x1 hmpc hsel b)
    _ = runTurns [.engine] (afterEdge p true b .x3 s) :=
        runTurns_append (hlow.runTurns_edge edgeWait_rx_x2 rfl hsel b)
    _ = .next (rxSample (afterEdge p true b .x3 s)) := runTurns_cons (hhigh.takeTurn.trans (exec_rx_x3 rfl))

/-- A cycle before the last brings RX to its next bit. -/
theorem runTurns_rxCycle_inner {base s : State} {p : Pins} {v : Byte} {k : Nat} (hbase : Engaged .rx base)
    (hsel : p.selN = false) (hk : k < 7) (h : AtBit base (.x1 .w0) v k s) :
    ∃ t, runTurns (rxCycle p (v.getLsbD k)) s = .next t ∧ AtBit base (.x1 .w0) v (k + 1) t := by
  obtain rfl : s.bit.val = k := h.bit
  have hnext : (bitSucc s.bit).val = s.bit.val + 1 := bitSucc_val (by omega)
  have hbits : Claims.bitWritten s.rx (setBit s.rx s.bit.val (v.getLsbD s.bit.val)) s.bit.val (v.getLsbD s.bit.val) :=
    bitWritten_setBit _ (by omega) _
  rw [runTurns_rxCycle (h.engaged hbase) h.mpc_eq hsel,
    rxSample_inner (s := afterEdge p true (v.getLsbD s.bit.val) .x3 s) hk hnext hbits]
  refine ⟨_, rfl, ?_, hnext, received_setBit (by omega) h.received⟩
  rw [h.frame]
  rfl

/-- The last cycle ends RX. -/
theorem runTurns_rxCycle_last {base s : State} {p : Pins} {v : Byte} (hbase : Engaged .rx base)
    (hsel : p.selN = false) (h : AtBit base (.x1 .w0) v 7 s) :
    runTurns (rxCycle p (v.getLsbD 7)) s =
      .next (done (if v = 0xFF then .fail else .ok) { base with
        pins := { p with clk := true, cmd := v.getLsbD 7 }, rx := v, bit := 8, start := base.now }) := by
  have hbits : Claims.bitWritten s.rx v 7 (v.getLsbD 7) := by
    have hwritten := bitWritten_setBit s.rx (by decide : 7 < 8) (v.getLsbD 7)
    rwa [setBit_last h.received] at hwritten
  rw [runTurns_rxCycle (h.engaged hbase) h.mpc_eq hsel,
    rxSample_last (s := afterEdge p true (v.getLsbD 7) .x3 s) h.bit hbits, h.frame]
  exact congrArg _ (done_eq_of_stepTo _ .x3 rfl)

/-- Settles O17: seven cycles by induction, then the one that ends RX. -/
theorem rxReceivesWholeFrame : Obligations.RxReceivesWholeFrame := by
  unfold Obligations.RxReceivesWholeFrame
  intro s e p v hentry hword hmpc hactive hcalm hsel
  have hs : Engaged .rx s := ⟨⟨e, hentry, hword⟩, rfl, hactive, hcalm⟩
  have hbase : Engaged .rx { s with failReason := .none } := ⟨hs.fetched, hs.agent, hs.active, hs.calm⟩
  obtain ⟨t, hrun, ht⟩ := runTurns_frameCycles (fun _ _ hk hu => runTurns_rxCycle_inner (p := p) hbase hsel hk hu)
    (atBit_firstBit { s with failReason := .none } (.x1 .w0) v) le_rfl
  rw [runTurns_cons (hs.takeTurn.trans (exec_rx_x0 hmpc)), frameCycles_succ, runTurns_append hrun]
  exact runTurns_rxCycle_last hbase hsel ht

/-! ## A full-duplex frame -/

/-- XFER before its first bit: it has latched the byte it sends (40_bus_primitives.md R147). -/
def sending (v : Byte) (s : State) : State := { s with tx := v, failReason := .none }

/-- XFER in the low half of a cycle, when it has sampled the host's bit. -/
def sampled (p : Pins) (b : Bool) (s : State) : State :=
  { afterEdge p false b .y3 s with rx := setBit s.rx s.bit.val b }

/-- XFER in the middle of a cycle, when it drives its own bit. -/
def driving (p : Pins) (b : Bool) (s : State) : State :=
  { sampled p b s with datDrv := driveBit (s.tx.getLsbD s.bit.val), mpc := .y4 .w0 }

/-- XFER at the end of a cycle, with the next micro-step m. -/
def transferred (p : Pins) (b : Bool) (m : Mpc) (s : State) : State :=
  { afterEdge p true b m (driving p b s) with bit := bitSucc s.bit }

section Transfer
variable {i : Instr} {f : State → Byte} {p : Pins} {base s : State} {v : Byte} {k : Nat}

/-- The first half of a cycle: the falling edge, the sample, the drive. -/
theorem runTurns_xferLow (hi : Claims.transfer i f) (h : Engaged i s) (hmpc : s.mpc = .y1 .w0)
    (hbit : s.bit.val < 8) (hsel : p.selN = false) (b : Bool) :
    runTurns [hostClock p false b, .engine, .engine, .engine, .engine] s = .next (driving p b s) := by
  have hlow : Engaged i (afterEdge p false b .y2 s) := engaged_afterEdge h p false b _
  have hsampled : Engaged i (sampled p b s) := ⟨h.fetched, h.agent, h.active, h.calm⟩
  obtain ⟨-, hfall, hsample, hdrive, -⟩ := hi
  calc runTurns [hostClock p false b, .engine, .engine, .engine, .engine] s
      = runTurns [.engine, .engine] (afterEdge p false b .y2 s) :=
        runTurns_append (h.runTurns_edge hfall hmpc hsel b)
    _ = runTurns [.engine] (sampled p b s) :=
        runTurns_cons (hlow.takeTurn.trans (hsample _ _ rfl hbit (bitWritten_setBit s.rx hbit b)))
    _ = .next (driving p b s) := runTurns_cons (hsampled.takeTurn.trans (hdrive _ rfl))

/-- A whole cycle: the first half, the rising edge, the next bit. -/
theorem runTurns_xferCycle (hi : Claims.transfer i f) (h : Engaged i s) (hmpc : s.mpc = .y1 .w0)
    (hbit : s.bit.val < 8) (hsel : p.selN = false) (b : Bool) :
    runTurns (xferCycle p b) s =
      .next (transferred p b (if s.bit.val + 1 < 8 then .y1 .w0 else .y6) s) := by
  have hdriving : Engaged i (driving p b s) := ⟨h.fetched, h.agent, h.active, h.calm⟩
  have hhigh : Engaged i (afterEdge p true b .y5 (driving p b s)) := engaged_afterEdge hdriving p true b _
  have hnext : (bitSucc s.bit).val = s.bit.val + 1 := bitSucc_val hbit
  have hlowHalf := runTurns_xferLow hi h hmpc hbit hsel b
  obtain ⟨-, -, -, -, hrise, hbump, -⟩ := hi
  calc runTurns (xferCycle p b) s
      = runTurns [hostClock p true b, .engine, .engine, .engine] (driving p b s) := runTurns_append hlowHalf
    _ = runTurns [.engine] (afterEdge p true b .y5 (driving p b s)) :=
        runTurns_append (hdriving.runTurns_edge hrise rfl hsel b)
    _ = .next (transferred p b (if s.bit.val + 1 < 8 then .y1 .w0 else .y6) s) := by
        rw [runTurns_cons (hhigh.takeTurn.trans (hbump _ (bitSucc s.bit) rfl hnext)), hnext]
        rfl

/-- Where a transfer stands between two cycles: as in `AtBit`, and DAT shows some bit. -/
def AtTransfer (base : State) (v : Byte) (k : Nat) (s : State) : Prop :=
  AtBit { base with datDrv := s.datDrv } (.y1 .w0) v k s

theorem AtTransfer.engaged (h : AtTransfer base v k s) (hbase : Engaged i base) : Engaged i s :=
  AtBit.engaged h ⟨hbase.fetched, hbase.agent, hbase.active, hbase.calm⟩

theorem atTransfer_firstBit (base : State) (v : Byte) : AtTransfer base v 0 (firstBit (.y1 .w0) base) :=
  ⟨rfl, rfl, nofun⟩

/-- The sent byte stays in `R.tx` for the whole frame. -/
theorem AtTransfer.tx_eq (h : AtTransfer base v k s) : s.tx = base.tx := by
  rw [h.frame]

/-- A cycle before the last brings a transfer to its next bit. -/
theorem runTurns_xferCycle_inner (hi : Claims.transfer i f) (hbase : Engaged i base) (hsel : p.selN = false)
    (hk : k < 7) (h : AtTransfer base v k s) :
    ∃ t, runTurns (xferCycle p (v.getLsbD k)) s = .next t ∧ AtTransfer base v (k + 1) t := by
  obtain rfl : s.bit.val = k := h.bit
  rw [runTurns_xferCycle hi (h.engaged hbase) h.mpc_eq (by omega) hsel, if_pos (by omega)]
  refine ⟨_, rfl, ?_, bitSucc_val (by omega), received_setBit (by omega) h.received⟩
  rw [h.frame]
  rfl

/-- A transfer reaches each of its bits. -/
theorem runTurns_xferCycles (hi : Claims.transfer i f) (hbase : Engaged i base) (hsel : p.selN = false) (v : Byte)
    {n : Nat} (hn : n ≤ 7) :
    ∃ t, runTurns (frameCycles (xferCycle p) v 0 n) (firstBit (.y1 .w0) base) = .next t ∧ AtTransfer base v n t :=
  runTurns_frameCycles (fun _ _ hk hs => runTurns_xferCycle_inner hi hbase hsel hk hs) (atTransfer_firstBit base v) hn

/-- At the k-th rise of CLK the driver shows bit k of the sent byte. -/
theorem runTurns_xferRise (hi : Claims.transfer i f) (hbase : Engaged i base) (hsel : p.selN = false)
    (hk : k < 8) (h : AtTransfer base v k s) (b : Bool) :
    ∃ u, runTurns ((xferCycle p b).take 6) s = .next u ∧
      u.pins.clk = true ∧ u.datDrv = driveBit (base.tx.getLsbD k) := by
  have hlowHalf := runTurns_xferLow hi (h.engaged hbase) h.mpc_eq (by rw [h.bit]; exact hk) hsel b
  refine ⟨shown p true b (driving p b s), ?_, rfl, ?_⟩
  · exact (runTurns_append (us := [hostClock p true b]) hlowHalf).trans (runTurns_cons (takeTurn_hostClock hsel ..))
  · rw [← h.tx_eq, ← h.bit]
    rfl

/-- The last cycle and y6 end a transfer. -/
theorem runTurns_xferCycle_last (hi : Claims.transfer i f) (hbase : Engaged i base) (hsel : p.selN = false)
    (h : AtTransfer base v 7 s) :
    runTurns (xferCycle p (v.getLsbD 7) ++ [.engine]) s =
      .next (done .ok { base with
        pins := { p with clk := true, cmd := v.getLsbD 7 }
        rx := v, bit := 8, start := base.now, datDrv := .rel }) := by
  have hs : Engaged i s := h.engaged hbase
  have hend : Engaged i (transferred p (v.getLsbD 7) .y6 s) := ⟨hs.fetched, hs.agent, hs.active, hs.calm⟩
  have hrx : setBit s.rx s.bit.val (v.getLsbD 7) = v := by
    rw [h.bit]
    exact setBit_last h.received
  have hnext : bitSucc s.bit = 8 := bitSucc_eq (by rw [h.bit]; rfl)
  have hcycle := runTurns_xferCycle hi hs h.mpc_eq (by rw [h.bit]; decide) hsel (v.getLsbD 7)
  rw [if_neg (by rw [h.bit]; decide)] at hcycle
  obtain ⟨-, -, -, -, -, -, hrelease, -⟩ := hi
  rw [runTurns_append hcycle, runTurns_cons (hend.takeTurn.trans (hrelease _ rfl))]
  refine congrArg _ (done_eq_of_stepTo .ok .y6 ?_)
  simp only [transferred, driving, sampled, afterEdge, shown, hrx, hnext]
  rw [h.frame]
  rfl

/-- A whole frame of an operation that is a transfer of f, from a state in which f gives the sent byte. -/
theorem transfer_wholeFrame (hi : Claims.transfer i f) (h : Engaged i s) (hmpc : s.mpc = .y0) (hsel : p.selN = false)
    (v : Byte) :
    (∀ k, k < 8 → ∃ u,
      runTurns (.engine :: (frameCycles (xferCycle p) v 0 k ++ (xferCycle p (v.getLsbD k)).take 6)) s = .next u ∧
      u.pins.clk = true ∧ u.datDrv = driveBit ((f s).getLsbD k)) ∧
    runTurns (.engine :: (frameCycles (xferCycle p) v 0 8 ++ [.engine])) s =
      .next (done .ok { s with
        pins := { p with clk := true, cmd := v.getLsbD 7 }
        tx := f s, rx := v, failReason := .none, bit := 8, start := s.now, datDrv := .rel }) := by
  have hbase : Engaged i (sending (f s) s) := ⟨h.fetched, h.agent, h.active, h.calm⟩
  have hy0 : takeTurn .engine s = .next (firstBit (.y1 .w0) (sending (f s) s)) := h.takeTurn.trans (hi.1 s hmpc)
  constructor
  · intro k hk
    obtain ⟨t, hrun, ht⟩ := runTurns_xferCycles hi hbase hsel v (by omega : k ≤ 7)
    rw [runTurns_cons hy0, runTurns_append hrun]
    exact runTurns_xferRise hi hbase hsel hk ht _
  · obtain ⟨t, hrun, ht⟩ := runTurns_xferCycles hi hbase hsel v le_rfl
    rw [runTurns_cons hy0, frameCycles_succ, List.append_assoc, runTurns_append hrun]
    exact runTurns_xferCycle_last hi hbase hsel ht

end Transfer

/-- Settles O18: the immediate and the two registers are transfers, which read the sent byte at y0. -/
theorem xferTransfersWholeFrame : Obligations.XferTransfersWholeFrame := by
  unfold Obligations.XferTransfersWholeFrame
  intro s e i p v h hoperand hentry hword hmpc hactive hcalm hsel
  rcases hoperand with rfl | ⟨rfl, rfl⟩ | ⟨rfl, rfl⟩
  · exact transfer_wholeFrame (transfer_xferi v) ⟨⟨e, hentry, hword⟩, rfl, hactive, hcalm⟩ hmpc hsel h
  · exact transfer_wholeFrame (transfer_xferr .b1) ⟨⟨e, hentry, hword⟩, rfl, hactive, hcalm⟩ hmpc hsel h
  · exact transfer_wholeFrame (transfer_xferr .b2) ⟨⟨e, hentry, hword⟩, rfl, hactive, hcalm⟩ hmpc hsel h

end Sys2Proof.Proofs.Frames
end

