-- ==== Sys2Proof/Proofs/Primitives.lean ====
section
/-! PROOFS. The bus primitives (40_bus_primitives.md R143 to R150), micro-step by micro-step: an edge wait that is the
whole operation, the byte operations over their two edge waits per bit, and the two operations that wait for a time. -/

open Sys2Proof
open Sys2Proof.Machine

namespace Sys2Proof.Proofs.Primitives

open Sys2Proof.Proofs.Encoding
open Sys2Proof.Proofs.Wire
open Sys2Proof.Proofs.Frames

/-! ## Edge waits (R143, R144) -/

/-- An operation that is nothing but an edge wait polls abort, level, timeout, and its wait's end is its own end. -/
theorem edgeWait_of_waitOp {i : Instr} {level : Bool} {t : TimeoutSel} (h : ∀ s, exec i s = waitOp level t s) :
    Claims.edgeWait i .w level (fun s => boundOf t s.cfg) (done .ok) (done .fail) :=
  edgeWait_of_waitStep fun s p hm => by
    rw [h]
    simp only [waitOp, hm]

/-- Settles O10: both operations are one edge wait, for either bound. -/
theorem edgeWaitsPollAbortLevelTimeout : Obligations.EdgeWaitsPollAbortLevelTimeout := by
  unfold Obligations.EdgeWaitsPollAbortLevelTimeout
  refine ⟨⟨rfl, rfl, rfl, rfl⟩, fun t bound hbound => ?_⟩
  have htsel : bound = fun s => boundOf t s.cfg := by
    rw [hbound]
    cases t <;> rfl
  rw [htsel]
  exact ⟨edgeWait_of_waitOp fun _ => rfl, edgeWait_of_waitOp fun _ => rfl⟩

/-! ## Receiving a byte (R145) -/

theorem exec_rx_xf {s : State} (hm : s.mpc = .xf) : exec .rx s = .next (done .fail { s with rx := 0xFF }) := by
  simp only [exec, execRx, hm]

/-- The sample of the last bit ends RX, with failure exactly on a complete 0xFF. -/
theorem exec_rx_x3_last {s : State} {r : Byte} (hm : s.mpc = .x3) (hbit : s.bit.val = 7)
    (hr : Claims.bitWritten s.rx r 7 s.pins.cmd) :
    exec .rx s = .next (done (if r = 0xFF then .fail else .ok) { s with rx := r, bit := 8 }) := by
  rw [exec_rx_x3 hm, rxSample_last hbit hr]

/-- Settles O11: the clear, the two edge waits, the sample before and at the last bit, and the failed wait's end. -/
theorem rxReceivesByte : Obligations.RxReceivesByte := by
  unfold Obligations.RxReceivesByte
  refine ⟨rfl, fun s hm => exec_rx_x0 hm, edgeWait_rx_x1, edgeWait_rx_x2, fun s r b hm hbit hb hr => ?inner,
    fun s r hm hbit hr hff => ?ok, fun s hm hbit hr => ?sentinel, fun s hm => exec_rx_xf hm⟩
  case inner => rw [exec_rx_x3 hm, rxSample_inner hbit hb hr]
  case ok => rw [exec_rx_x3_last hm hbit hr, if_neg hff]
  case sentinel => rw [exec_rx_x3_last hm hbit hr, if_pos rfl]

/-! ## Sending a byte (R146) -/

/-- An operation that runs `txStep` sends its byte as R146 says. -/
theorem transmission_of_txStep {i : Instr} {v : State → Byte} (h : ∀ s, exec i s = txStep (v s) s) :
    Claims.transmission i v := by
  refine ⟨fun s hm => ?t0, edgeWait_of_waitStep fun s p hm => ?t1, fun s hm => ?t2,
    edgeWait_of_waitStep fun s p hm => ?t3, fun s b hm hb => ?t4, fun s hm => ?t5, fun s hm => ?tf⟩
  all_goals
    rw [h]
    simp only [txStep, hm]
  case t1 => rw [byteBound_eq_bitBound]; rfl
  case t4 => rw [bitSucc_eq hb]; rfl
  all_goals rfl

/-- Settles O12: TXI and TXR run one step function, on an immediate or on a register. -/
theorem txSendsByte : Obligations.TxSendsByte := by
  unfold Obligations.TxSendsByte
  exact ⟨decodeWord_txi, rfl, rfl, fun _ => transmission_of_txStep fun _ => rfl,
    transmission_of_txStep fun _ => rfl, transmission_of_txStep fun _ => rfl⟩

/-! ## The full-duplex transfer (R147) -/

/-- Settles O13: XFERI and XFERR are one transfer, of an immediate or of a register. -/
theorem xferTransfersByte : Obligations.XferTransfersByte := by
  unfold Obligations.XferTransfersByte
  exact ⟨decodeWord_xferi, rfl, rfl, transfer_xferi, transfer_xferr .b1, transfer_xferr .b2⟩

/-! ## Waiting for a time (R148, R150) -/

theorem if_startElapsed_pos {d : U32} {s : State} (h : Claims.waited d s) (t u : State) :
    (if startElapsed d s then t else u) = t :=
  if_pos ((startElapsed_iff d s).mpr h)

theorem if_startElapsed_neg {d : U32} {s : State} (h : ¬Claims.waited d s) (t u : State) :
    (if startElapsed d s then t else u) = u :=
  if_neg (mt (startElapsed_iff d s).mp h)

theorem exec_ack_a1 {s : State} (hm : s.mpc = .a1) :
    exec .ack s = .next (if startElapsed s.cfg.ackDelay s then stepTo .a2 s else s) := by
  simp only [exec, execAck, hm]

theorem exec_ack_a2 {s : State} (hm : s.mpc = .a2) :
    exec .ack s = .next (if aborted s then done .fail (raise .abort s) else stepTo .a3 s) := by
  simp only [exec, execAck, hm]

theorem exec_ack_a5 {s : State} (hm : s.mpc = .a5) :
    exec .ack s = .next (if startElapsed (effPulse s) s then stepTo .a6 s else s) := by
  simp only [exec, execAck, hm]

theorem exec_ack_a6 {s : State} (hm : s.mpc = .a6) :
    exec .ack s = .next (done .ok { s with ackDrv := .rel, irqPending := false, irqEnabled := true }) := by
  simp only [exec, execAck, hm]

/-- At a5 ACK stays where it is or moves to a6; the state differs in nothing else. -/
theorem exec_ack_a5_mpc {s : State} (hm : s.mpc = .a5) :
    exec .ack s =
      .next { s with mpc := if (effPulse s).toNat ≤ (s.now - s.start).toNat then .a6 else .a5 } := by
  rw [exec_ack_a5 hm]
  by_cases hpulse : (effPulse s).toNat ≤ (s.now - s.start).toNat
  · rw [if_startElapsed_pos hpulse, if_pos hpulse]
    rfl
  · rw [if_startElapsed_neg hpulse, if_neg hpulse, ← hm]

/-- Settles O14: the two timed micro-steps are `startElapsed`, and a2 alone tests abort, before the mask. -/
theorem ackPulsesMasked : Obligations.AckPulsesMasked := by
  unfold Obligations.AckPulsesMasked
  refine ⟨rfl, fun s hm => ?a0, fun s hm hdelay => ?a1_elapsed, fun s hm hdelay => ?a1_waits,
    fun s hm habort => ?a2_aborts, fun s hm habort => ?a2_goes, fun s hm => ?a3, fun s hm => ?a4,
    fun s d hm hd => ?a5, fun s hm => exec_ack_a6 hm⟩
  case a0 | a3 | a4 =>
    simp only [exec, execAck, hm]
    rfl
  case a1_elapsed =>
    rw [exec_ack_a1 hm, if_startElapsed_pos hdelay]
    rfl
  case a1_waits => rw [exec_ack_a1 hm, if_startElapsed_neg hdelay]
  case a2_aborts =>
    rw [exec_ack_a2 hm, if_pos ((aborted_iff s).mpr habort)]
    rfl
  case a2_goes =>
    rw [exec_ack_a2 hm, if_neg (mt (aborted_iff s).mp habort)]
    rfl
  case a5 =>
    subst hd
    exact exec_ack_a5_mpc hm

theorem exec_delay_d0 (d : DelaySel) {s : State} (hm : s.mpc = .d0) :
    exec (.delay d) s = .next { s with start := s.now, mpc := .d1 } := by
  simp only [exec, execDelay, hm]
  rfl

theorem exec_delay_d1 (d : DelaySel) {s : State} (hm : s.mpc = .d1) :
    exec (.delay d) s = .next (if startElapsed (durationOf d s) s then done .ok s else s) := by
  simp only [exec, execDelay, hm]

/-- Settles O15: at d1 only the elapsed time decides. -/
theorem delayWaitsItsDuration : Obligations.DelayWaitsItsDuration := by
  unfold Obligations.DelayWaitsItsDuration
  refine ⟨⟨rfl, rfl, rfl⟩, fun d dur hdur s => ?_⟩
  have hdsel : dur s = durationOf d s := by
    rw [hdur]
    cases d <;> rfl
  rw [hdsel]
  refine ⟨exec_delay_d0 d, fun hm hwaited => ?_, fun hm hwaited => ?_⟩
  · rw [exec_delay_d1 d hm, if_startElapsed_pos hwaited]
  · rw [exec_delay_d1 d hm, if_startElapsed_neg hwaited]

/-! ## Releasing the lines (R149) -/

theorem exec_relbus_rb0 {s : State} (hm : s.mpc = .rb0) : exec .relbus s = .next (done .ok (releaseBus s)) := by
  simp only [exec, execRelbus, hm]

/-- Settles O16: `releaseBus` writes the two drivers. -/
theorem relbusReleasesBothLines : Obligations.RelbusReleasesBothLines := by
  unfold Obligations.RelbusReleasesBothLines
  exact ⟨rfl, fun s hm => exec_relbus_rb0 hm⟩

end Sys2Proof.Proofs.Primitives
end

