-- ==== Sys2Proof/Proofs/Turns.lean ====
section
/-! PROOFS. Turns (41_transaction_fsm.md R170, R191; 60_exceptions.md R286, R290): which operation word a turn runs, the
turn that finds no entry, that a turn taken under the invariants leads on, and where an operation that ends leads. -/

open Sys2Proof
open Sys2Proof.Machine

namespace Sys2Proof.Proofs.Turns

open Sys2Proof.Proofs.Ownership
open Sys2Proof.Proofs.Memory

/-! ## The word that an agent runs -/

theorem issue_of_decode {a : Agent} {w : OpWord} {i : Instr} (hword : decodeWord w = .ok i) (hagent : i.agent = a)
    (s : State) : issue a w s = exec i s := by
  simp [issue, hword, hagent]

theorem isrEnabled_of_pending {s : State} (hpending : s.irqPending = true) (henabled : s.irqEnabled = true) :
    isrEnabled s = true :=
  (isrEnabled_iff s).mpr ⟨hpending, henabled⟩

/-- An interrupt that is not pending or is masked is not taken (60_exceptions.md R286). -/
theorem isrEnabled_eq_false {s : State} (h : s.irqPending = false ∨ s.irqEnabled = false) : isrEnabled s = false := by
  rcases h with h | h <;> simp [isrEnabled, h]

theorem takeTurn_engine_of_calm {s : State} (h : isrEnabled s = false) : takeTurn .engine s = engineStep s := by
  simp [takeTurn, contextStep, h]

theorem takeTurn_engine_of_interrupt {s : State} (h : isrEnabled s = true) :
    takeTurn .engine s = issue .isr s.isrOp s := by
  simp [takeTurn, contextStep, h]

theorem engineStep_of_entry {s : State} {e : Entry} {i : Instr} (hentry : s.entry = some e)
    (hword : decodeWord e.word = .ok i) (hagent : i.agent = .engine) : engineStep s = exec i s := by
  rw [engineStep, hentry]
  exact issue_of_decode hword hagent s

theorem engineStep_of_no_entry {s : State} (hentry : s.entry = none) :
    engineStep s = .refused (.pcOutsideStore s.pc) := by
  rw [engineStep, hentry]

theorem takeTurn_writer {s : State} (hword : decodeWord s.writerOp = .ok .chw) (s1 s2 : Byte) :
    takeTurn (.writer s1 s2) s = exec .chw { s with snap1 := s1, snap2 := s2 } :=
  issue_of_decode hword rfl _

theorem takeTurn_telemetry {w : OpWord} {x : TelReg} (hword : decodeWord w = .ok (.tread x)) (s : State) :
    takeTurn (.telemetry w) s = exec (.tread x) s :=
  issue_of_decode hword rfl s

theorem step_of_agenda {s : State} {τ : Turn} {rest : List Turn} (h : s.agenda = τ :: rest) :
    step s = takeTurn τ { s with agenda := rest } := by
  simp only [step, nextTurn, popTurn, h]

theorem step_of_no_agenda {s : State} (h : s.agenda = []) :
    step s = takeTurn (Config.schedule s.turns) { s with turns := s.turns + 1 } := by
  simp only [step, nextTurn, popTurn, h]

/-- Settles O5: a step is the next turn, and each agent's turn issues the word that the agent fetches. -/
theorem stepRunsDecodedWord : Obligations.StepRunsDecodedWord := by
  unfold Obligations.StepRunsDecodedWord
  refine ⟨fun s τ rest => step_of_agenda, fun s => step_of_no_agenda, fun s e i hcalm hentry hword hagent => ?engine,
    fun s hpending henabled hword => ?isr, fun s s1 s2 hword => takeTurn_writer hword s1 s2,
    fun s w x hword => takeTurn_telemetry hword s⟩
  case engine =>
    rw [takeTurn_engine_of_calm (isrEnabled_eq_false hcalm)]
    exact engineStep_of_entry hentry hword hagent
  case isr =>
    rw [takeTurn_engine_of_interrupt (isrEnabled_of_pending hpending henabled)]
    exact issue_of_decode hword rfl s

/-- The fixed control store has 21 entries (41_transaction_fsm.md R170). -/
theorem entry_eq_none_of_pc_gt {s : State} (hstore : s.store = controlStore) (hpc : 20 < s.pc.toNat) :
    s.entry = none := by
  rw [State.entry, hstore]
  exact List.getElem?_eq_none hpc

/-- Settles O8: past the last entry ENGINE finds no word. -/
theorem pcOutsideStoreRefused : Obligations.PcOutsideStoreRefused := by
  unfold Obligations.PcOutsideStoreRefused
  intro s hstore hpc hcalm
  rw [takeTurn_engine_of_calm (isrEnabled_eq_false hcalm)]
  exact engineStep_of_no_entry (entry_eq_none_of_pc_gt hstore hpc)

/-! ## Every turn leads on -/

/-- CHW goes on from each of its positions: the index cells hold indices, and its stores are inside the memory. -/
theorem exec_chw_goes_on {s : State} (hch : ChannelInv s) : ∃ t, exec .chw s = .next t := by
  have hread : ∃ r, s.ch.byteAt readIdxAddr = idxByte r := hch.readIdx.elim (⟨0, ·⟩) (⟨1, ·⟩)
  have hwrite : ∃ w, s.ch.byteAt writeIdxAddr = idxByte w := hch.writeIdx.elim (⟨0, ·⟩) (⟨1, ·⟩)
  cases hpos : s.wr.pos with
  | w1 =>
    obtain ⟨r, hr⟩ := hread
    obtain ⟨w, hw⟩ := hwrite
    simp only [exec, execChw, hpos]
    rw [chReadIdx_of_eq (by decide) hr, chReadIdx_of_eq (by decide) hw]
    exact ⟨_, rfl⟩
  | w2 | w5 =>
    simp only [exec, execChw, hpos]
    exact ⟨_, rfl⟩
  | w3 | w4 =>
    simp only [exec, execChw, hpos]
    rw [chWrite_of_lt (slotAddr_lt _ (by decide))]
    exact ⟨_, rfl⟩
  | w6 =>
    simp only [exec, execChw, hpos]
    rw [chWrite_of_lt (by decide)]
    exact ⟨_, rfl⟩

/-- What `engineFits` finds: the entry at `R.pc`, its operation, and `R.mpc` among that operation's micro-steps. -/
theorem engineFits_iff (s : State) : engineFits s = true ↔
    ∃ e i, s.entry = some e ∧ decodeWord e.word = .ok i ∧ i.agent = .engine ∧ ownsMpc i s.mpc = true := by
  unfold engineFits currentOp
  cases hentry : s.entry with
  | none => simp
  | some e => cases hword : decodeWord e.word <;> simp [hword]

theorem engineStep_goes_on {s : State} (hfits : engineFits s = true) (hch : ChannelInv s) :
    ∃ t, engineStep s = .next t := by
  obtain ⟨e, i, hentry, hword, hagent, hown⟩ := (engineFits_iff s).mp hfits
  rw [engineStep_of_entry hentry hword hagent]
  exact exec_goes_on hagent hch hown

/-- Under the invariants no agent's turn faults or is refused. -/
theorem takeTurn_goes_on {τ : Turn} {s : State} (hfits : engineFits s = true) (hrole : RoleInv s) (hch : ChannelInv s)
    (hlegal : legalTurn τ) : ∃ t, takeTurn τ s = .next t := by
  cases τ with
  | engine =>
    cases hisr : isrEnabled s with
    | true =>
      have hword : decodeWord s.isrOp = .ok .isr := by rw [hrole.isr]; rfl
      rw [takeTurn_engine_of_interrupt hisr]
      exact ⟨_, issue_of_decode hword rfl s⟩
    | false =>
      rw [takeTurn_engine_of_calm hisr]
      exact engineStep_goes_on hfits hch
  | writer s1 s2 =>
    have hword : decodeWord s.writerOp = .ok .chw := by rw [hrole.writer]; rfl
    rw [takeTurn_writer hword]
    exact exec_chw_goes_on (channelInv_of_ch_eq hch rfl)
  | telemetry w =>
    obtain ⟨x, hword⟩ := hlegal w rfl
    rw [takeTurn_telemetry hword]
    exact ⟨_, exec_tread x s⟩
  | host p => exact ⟨_, rfl⟩
  | timebase => exact ⟨_, rfl⟩

theorem engineFits_popTurn (s : State) : engineFits (popTurn s) = engineFits s := by
  simp [engineFits, currentOp, State.entry]

theorem roleInv_popTurn {s : State} (h : RoleInv s) : RoleInv (popTurn s) where
  writer := (popTurn_writerOp s).trans h.writer
  isr := (popTurn_isrOp s).trans h.isr

/-- Settles O31: taking the turn off the agenda keeps what `takeTurn_goes_on` needs. -/
theorem neverHalts : Obligations.NeverHalts := by
  unfold Obligations.NeverHalts
  intro s hbus hrole hch hlegal
  have hfits : engineFits (popTurn s) = true := (engineFits_popTurn s).trans hbus.fits
  exact takeTurn_goes_on hfits (roleInv_popTurn hrole) (channelInv_of_ch_eq hch (popTurn_ch s)) hlegal

/-! ## The end of an operation -/

/-- All that `done` writes (41_transaction_fsm.md R170; 10_state.md R41). -/
theorem done_eq (o : Branch) (s : State) : done o s = { s with
    pc := nextPc s.entry s.pc o
    mpc := entryMpc s.store (nextPc s.entry s.pc o)
    addr := if destAt s.entry = .addr then s.rx else s.addr
    cmd := if destAt s.entry = .cmd then s.rx else s.cmd } := by
  unfold done
  cases destAt s.entry <;> rfl

theorem entryMpc_of_decode {store : List Entry} {pc : Pc} {f : Entry} {i : Instr} (hentry : store[pc.toNat]? = some f)
    (hword : decodeWord f.word = .ok i) : entryMpc store pc = firstMpc i := by
  simp [entryMpc, hentry, hword]

theorem mem_of_succOf {l : List (Branch × Pc)} {o : Branch} {p : Pc} (h : succOf l o = some p) : (o, p) ∈ l := by
  induction l with
  | nil => cases h
  | cons row rest ih =>
    obtain ⟨b, q⟩ := row
    unfold succOf at h
    split at h
    · next heq =>
      subst heq
      cases h
      exact List.mem_cons_self
    · exact List.mem_cons_of_mem _ (ih h)

theorem not_mem_of_succOf_none {l : List (Branch × Pc)} {o : Branch} (h : succOf l o = none) (p : Pc) :
    (o, p) ∉ l := by
  induction l with
  | nil => exact List.not_mem_nil
  | cons row rest ih =>
    obtain ⟨b, q⟩ := row
    unfold succOf at h
    split at h
    · cases h
    · next hne =>
      refine List.not_mem_cons_of_ne_of_not_mem (fun heq => hne ?_) (ih h)
      exact (congrArg Prod.fst heq).symm

theorem nextPc_some (e : Entry) (pc : Pc) (o : Branch) : nextPc (some e) pc o = (succOf e.succs o).getD (pc + 1) := rfl

/-- The successor is the one that the entry's row for the outcome names, and without a row it is the next line. -/
theorem nextPc_of_successorIs {e : Entry} {pc : Pc} {o : Branch} {target : Pc}
    (h : Claims.successorIs e pc o target) : nextPc (some e) pc o = target := by
  rw [nextPc_some]
  rcases h with hnamed | ⟨hunnamed, rfl⟩
  · cases hsucc : succOf e.succs o with
    | none => exact absurd ((hnamed target).mpr rfl) (not_mem_of_succOf_none hsucc target)
    | some p => exact (hnamed p).mp (mem_of_succOf hsucc)
  · cases hsucc : succOf e.succs o with
    | none => rfl
    | some p => exact absurd (mem_of_succOf hsucc) (hunnamed p)

/-- The successor columns of R170 are those of the fixed control store, and their micro-steps the first ones there. -/
theorem controlStore_successors : ∀ row ∈ Claims.successors,
    nextPc controlStore[row.1.toNat]? row.1 row.2.1 = row.2.2.1 ∧ entryMpc controlStore row.2.2.1 = row.2.2.2 := by
  decide

/-- The dest column of R170: `R.addr` at address 2, `R.cmd` at address 6, nothing elsewhere. -/
theorem controlStore_dest : ∀ pc : Pc,
    (destAt controlStore[pc.toNat]? = .addr ↔ pc = 2) ∧ (destAt controlStore[pc.toNat]? = .cmd ↔ pc = 6) := by
  decide

theorem done_controlStore {s : State} {o : Branch} {target : Pc} {m : Mpc} (hstore : s.store = controlStore)
    (hrow : (s.pc, o, target, m) ∈ Claims.successors) : done o s = { s with
      pc := target
      mpc := m
      addr := if s.pc = 2 then s.rx else s.addr
      cmd := if s.pc = 6 then s.rx else s.cmd } := by
  obtain ⟨hpc, hmpc⟩ := controlStore_successors _ hrow
  obtain ⟨haddr, hcmd⟩ := controlStore_dest s.pc
  rw [done_eq, State.entry, hstore, hpc, hmpc]
  simp only [haddr, hcmd]

theorem done_of_entry {s : State} {o : Branch} {e : Entry} {target : Pc} (hentry : s.entry = some e)
    (hsucc : Claims.successorIs e s.pc o target) : done o s = { s with
      pc := target
      mpc := entryMpc s.store target
      addr := if e.dest = .addr then s.rx else s.addr
      cmd := if e.dest = .cmd then s.rx else s.cmd } := by
  rw [done_eq, hentry, nextPc_of_successorIs hsucc]
  rfl

/-- Settles O9: the fixed store row by row, any other store by the entry's rows. -/
theorem outcomeTakesSuccessor : Obligations.OutcomeTakesSuccessor := by
  unfold Obligations.OutcomeTakesSuccessor
  refine ⟨fun s o target m => done_controlStore, fun s o e target hentry hsucc => ?anyStore,
    fun _ => rfl, fun _ => rfl, fun _ => ⟨rfl, rfl⟩, rfl, rfl⟩
  case anyStore =>
    exact ⟨entryMpc s.store target, done_of_entry hentry hsucc, fun f i hf hword => entryMpc_of_decode hf hword⟩

end Sys2Proof.Proofs.Turns
end

