-- ==== Sys2Proof/Proofs/Transaction.lean ====
section
/-! PROOFS. The operations of the transaction state machine (41_transaction_fsm.md R171 to R188), micro-step by
micro-step: what each does in its own words, and then the statement's clauses by the branch that each selects. -/

open Sys2Proof
open Sys2Proof.Machine

namespace Sys2Proof.Proofs.Transaction

open Sys2Proof.Proofs.Wire
open Sys2Proof.Proofs.Primitives

/-- A 32-bit counter grows by one modulo 2^32 (00_scope.md R15). -/
theorem counter_succ (x : U32) : x + 1 = BitVec.ofNat 32 (x.toNat + 1) := by
  rw [BitVec.ofNat_add, BitVec.ofNat_toNat, BitVec.setWidth_eq]
  rfl

/-! ## IDLEWAIT (R171) -/

theorem calIdle_iff (s : State) : calIdle s.cfg s.now s.cal = true ↔ Claims.idlePast s := by
  rw [calIdle, Bool.and_eq_true, decide_eq_true_eq]
  rfl

theorem calTick_resets_iff (s : State) : (s.cfg.calEnable && calIdle s.cfg s.now s.cal) = true ↔
    s.cfg.calEnable = true ∧ Claims.idlePast s := by
  rw [Bool.and_eq_true, calIdle_iff]

/-- The idle check leaves what `cal_tick()` leaves (42_calibrator.md R220). -/
theorem calTick_of_ticked {s : State} {c : Calibrator} (h : Claims.ticked s c) : calTick s.cfg s.now s.cal = c := by
  rcases h with ⟨hcal, hidle, rfl⟩ | ⟨hkept, rfl⟩
  · exact if_pos ((calTick_resets_iff s).mpr ⟨hcal, hidle⟩)
  · exact if_neg (mt (calTick_resets_iff s).mp hkept)

theorem exec_idlewait_i0 {s : State} {c : Calibrator} (hm : s.mpc = .i0) (hc : Claims.ticked s c) :
    exec .idlewait s = .next (idlePoll { s with cal := c }) := by
  simp only [exec, execIdlewait, hm, calTick_of_ticked hc]

theorem exec_idlewait_i1 {s : State} (hm : s.mpc = .i1) :
    exec .idlewait s = .next (if startElapsed s.cfg.debounce s then stepTo .i2 s else s) := by
  simp only [exec, execIdlewait, hm]

theorem exec_idlewait_i2 {s : State} (hm : s.mpc = .i2) :
    exec .idlewait s =
      .next (if s.pins.selN then stepTo .i0 { s with selSeenHigh := true } else done .ok s) := by
  simp only [exec, execIdlewait, hm]

theorem idlePoll_of_high {s : State} (hsel : s.pins.selN = true) : idlePoll s = { s with selSeenHigh := true } :=
  if_pos hsel

theorem idlePoll_of_fall {s : State} (hsel : s.pins.selN = false) (hseen : s.selSeenHigh = true) :
    idlePoll s = { s with start := s.now, mpc := .i1 } := by
  simp [idlePoll, hsel, hseen, stepTo]

/-- A low select that was never seen high starts nothing. -/
theorem idlePoll_of_low {s : State} (hsel : s.pins.selN = false) (hseen : s.selSeenHigh = false) : idlePoll s = s := by
  simp [idlePoll, hsel, hseen]

/-- At i1 IDLEWAIT stays where it is or moves to i2; the state differs in nothing else. -/
theorem exec_idlewait_i1_mpc {s : State} (hm : s.mpc = .i1) :
    exec .idlewait s =
      .next { s with mpc := if s.cfg.debounce.toNat ≤ (s.now - s.start).toNat then .i2 else .i1 } := by
  rw [exec_idlewait_i1 hm]
  by_cases hstable : s.cfg.debounce.toNat ≤ (s.now - s.start).toNat
  · rw [if_startElapsed_pos hstable, if_pos hstable]
    rfl
  · rw [if_startElapsed_neg hstable, if_neg hstable, ← hm]

/-- Settles O20: the three branches of a poll at i0 after its idle check, the debounce, and the re-check at i2. -/
theorem idlewaitStartsAfterSelectHigh : Obligations.IdlewaitStartsAfterSelectHigh := by
  unfold Obligations.IdlewaitStartsAfterSelectHigh
  refine ⟨rfl, fun s c hm hc hsel => ?high, fun s c hm hc hsel hseen => ?fall, fun s c hm hc hsel hseen => ?low,
    fun s hm => exec_idlewait_i1_mpc hm, fun s hm hsel => ?starts, fun s hm hsel => ?bounces⟩
  case high => rw [exec_idlewait_i0 hm hc, idlePoll_of_high (s := { s with cal := c }) hsel]
  case fall => rw [exec_idlewait_i0 hm hc, idlePoll_of_fall (s := { s with cal := c }) hsel hseen]
  case low => rw [exec_idlewait_i0 hm hc, idlePoll_of_low (s := { s with cal := c }) hsel hseen]
  case starts => rw [exec_idlewait_i2 hm, if_neg (Bool.eq_false_iff.mp hsel)]
  case bounces =>
    rw [exec_idlewait_i2 hm, if_pos hsel]
    rfl

/-! ## START (R172) -/

theorem exec_start_s0 {s : State} (hm : s.mpc = .s0) :
    exec .start s = .next (done .ok { s with
      active := true, selSeenHigh := false, failReason := .none, st := { s.st with total := s.st.total + 1 } }) := by
  simp only [exec, execStart, hm]

/-- Settles O21: START's one micro-step, with the counter's growth as a number. -/
theorem startCreatesTransaction : Obligations.StartCreatesTransaction := by
  unfold Obligations.StartCreatesTransaction
  refine ⟨rfl, fun s hm => ?_⟩
  rw [exec_start_s0 hm, counter_succ]

/-! ## DISPATCH (R174) -/

theorem exec_dispatch_p0 {s : State} (hm : s.mpc = .p0) : exec .dispatch s = .next (dispatchOn s.addr s) :=
  (exec_dispatch s).trans (atDispatch_p0 _ hm)

theorem dispatchOn_controller {a : Byte} (h : a = 0x01) (s : State) : dispatchOn a s = dispatchController s := if_pos h

theorem dispatchOn_memcard {a : Byte} (h : a = 0x81) (s : State) : dispatchOn a s = dispatchMemcard s := by
  subst h
  rfl

theorem dispatchOn_ignored {a : Byte} {s : State} (hctl : a ≠ 0x01) (hmc : a ≠ 0x81) (hign : a ∈ s.cfg.ignoreSet) :
    dispatchOn a s = dispatchIgnored s :=
  (if_neg hctl).trans ((if_neg hmc).trans (if_pos (List.contains_iff_mem.mpr hign)))

theorem dispatchOn_invalid {a : Byte} {s : State} (hctl : a ≠ 0x01) (hmc : a ≠ 0x81) (hign : a ∉ s.cfg.ignoreSet) :
    dispatchOn a s = dispatchInvalid a s :=
  (if_neg hctl).trans ((if_neg hmc).trans (if_neg (mt List.contains_iff_mem.mp hign)))

/-- Settles O22: the four branches of R174, each counter's growth as a number. -/
theorem dispatchDecodesAddress : Obligations.DispatchDecodesAddress := by
  unfold Obligations.DispatchDecodesAddress
  refine ⟨rfl, fun s hm => ?_⟩
  rw [exec_dispatch_p0 hm]
  refine ⟨fun hctl => ?ctl, fun hmc => ?mc, fun hctl hmc hign => ?ign, fun hctl hmc hign => ?inv⟩
  case ctl => rw [dispatchOn_controller hctl, dispatchController, counter_succ]
  case mc => rw [dispatchOn_memcard hmc, dispatchMemcard, counter_succ]
  case ign => rw [dispatchOn_ignored hctl hmc hign, dispatchIgnored]
  case inv => rw [dispatchOn_invalid hctl hmc hign, dispatchInvalid, counter_succ]

/-! ## MCWAIT (R175) -/

theorem exec_mcwait_m0 {s : State} (hm : s.mpc = .m0) : exec .mcwait s = .next (stepTo .m1 (releaseBus s)) := by
  simp only [exec, execMcwait, hm]

theorem exec_mcwait_m1 {s : State} (hm : s.mpc = .m1) :
    exec .mcwait s = .next (if aborted s then done .ok s else s) := by
  simp only [exec, execMcwait, hm]

/-- Settles O23: the release, and at m1 the abort condition alone decides. -/
theorem mcwaitPassesThrough : Obligations.McwaitPassesThrough := by
  unfold Obligations.McwaitPassesThrough
  refine ⟨rfl, fun s hm => exec_mcwait_m0 hm, fun s hm habort => ?ends, fun s hm habort => ?waits⟩
  case ends => rw [exec_mcwait_m1 hm, if_pos ((aborted_iff s).mpr habort)]
  case waits => rw [exec_mcwait_m1 hm, if_neg (mt (aborted_iff s).mp habort)]

/-! ## CMDCHK (R182) -/

theorem exec_cmdchk_k0 {s : State} (hm : s.mpc = .k0) : exec .cmdchk s = .next (commandOn s.cmd s) :=
  (exec_cmdchk s).trans (atCmdchk_k0 _ hm)

theorem commandOn_sentinel {c : Byte} (h : c = 0xFF) (s : State) : commandOn c s = commandSentinel s := if_pos h

theorem commandOn_poll {c : Byte} (h : c = 0x42) (s : State) : commandOn c s = commandPoll s := by
  subst h
  rfl

theorem commandOn_other {c : Byte} (hsentinel : c ≠ 0xFF) (hpoll : c ≠ 0x42) (s : State) :
    commandOn c s = commandOther c s :=
  (if_neg hsentinel).trans (if_neg hpoll)

/-- Settles O24: the three branches of R182, the counter's growth as a number. -/
theorem cmdchkDecodesCommand : Obligations.CmdchkDecodesCommand := by
  unfold Obligations.CmdchkDecodesCommand
  refine ⟨rfl, fun s hm => ?_⟩
  rw [exec_cmdchk_k0 hm]
  refine ⟨fun hsentinel => ?sentinel, fun hpoll => ?poll, fun hsentinel hpoll => ?other⟩
  case sentinel => rw [commandOn_sentinel hsentinel, commandSentinel]
  case poll => rw [commandOn_poll hpoll, commandPoll]
  case other => rw [commandOn_other hsentinel hpoll, commandOther, counter_succ]

/-! ## END and ABORT (R187, R188) -/

theorem exec_endTxn_e0 {s : State} (hm : s.mpc = .e0) :
    exec .endTxn s = .next (done .ok { releaseBus s with active := false }) := by
  simp only [exec, execEnd, hm]

/-- Settles O25: END's one micro-step releases by `releaseBus`. -/
theorem endReleasesAndCloses : Obligations.EndReleasesAndCloses := by
  unfold Obligations.EndReleasesAndCloses
  exact ⟨rfl, fun s hm => exec_endTxn_e0 hm⟩

theorem abortStats_of_timeout {s : State} (h : s.failReason = .timeout) :
    abortStats s = { s.st with timeout := s.st.timeout + 1 } := if_pos h

theorem abortStats_of_not_timeout {s : State} (h : s.failReason ≠ .timeout) : abortStats s = s.st := if_neg h

theorem exec_abort_b0 {s : State} (hm : s.mpc = .b0) :
    exec .abort s = .next (done .ok { releaseBus s with st := abortStats s, active := false }) := by
  simp only [exec, execAbort, hm]

/-- Settles O26: ABORT's one micro-step, with the reason deciding the counter alone. -/
theorem abortCountsOnlyTimeouts : Obligations.AbortCountsOnlyTimeouts := by
  unfold Obligations.AbortCountsOnlyTimeouts
  refine ⟨rfl, fun s hm => ?_⟩
  rw [exec_abort_b0 hm]
  refine ⟨fun htimeout => ?_, fun hother => ?_⟩
  · rw [abortStats_of_timeout htimeout, counter_succ]
    rfl
  · rw [abortStats_of_not_timeout hother]
    rfl

end Sys2Proof.Proofs.Transaction
end

