-- ==== Sys2Proof/Proofs/Calibrator.lean ====
section
/-! PROOFS. The calibrator's functions (42_calibrator.md R212 to R221): the candidate test and the preference as
inequalities, the order in which `advance()` visits the grid, what closing a window leaves, and CALOBS and CALTICK over
them. -/

open Sys2Proof
open Sys2Proof.Machine

namespace Sys2Proof.Proofs.Calibration

open Sys2Proof.Proofs.Boot
open Sys2Proof.Proofs.Wire
open Sys2Proof.Proofs.Transaction

/-! ## The candidate test and the preference (R216, R217) -/

theorem calCandidate_iff (p : Params) (succ att : U32) : calCandidate p succ att = true ↔
    0 < att.toNat ∧ p.minRateNum.toNat * att.toNat ≤ succ.toNat * p.minRateDen.toNat := by
  rw [calCandidate, Bool.and_eq_true, decide_eq_true_eq, decide_eq_true_eq]

/-- The distances from the middle compare as the absolute values of R217 do. -/
theorem midDistance_lt_iff (p : Params) (x y : U32) : midDistance p x < midDistance p y ↔
    |2 * (x.toNat : Int) - (p.pwMin.toNat + p.pwMax.toNat)| <
      |2 * (y.toNat : Int) - (p.pwMin.toNat + p.pwMax.toNat)| := by
  rw [← Int.ofNat_lt]
  simp only [midDistance, Int.natCast_natAbs]

/-- The order of preference: the rate, then the shorter post-wait, then the pulse width nearer the middle. -/
theorem calBetter_iff (p : Params) (c : Calibrator) (succ att pulse post : U32) :
    calBetter p c succ att pulse post = true ↔
      c.bestValid = false ∨
      c.bestSucc.toNat * att.toNat < succ.toNat * c.bestAtt.toNat ∨
      (succ.toNat * c.bestAtt.toNat = c.bestSucc.toNat * att.toNat ∧ post.toNat < c.bestPost.toNat) ∨
      (succ.toNat * c.bestAtt.toNat = c.bestSucc.toNat * att.toNat ∧ post.toNat = c.bestPost.toNat ∧
        midDistance p pulse < midDistance p c.bestPulse) := by
  unfold calBetter
  by_cases hvalid : c.bestValid = false
  · simp [hvalid]
  rw [if_neg hvalid]
  split_ifs with hmore hless hshorter hlonger
  all_goals
    simp only [hvalid, decide_eq_true_eq, false_or, true_iff, reduceCtorEq, false_iff]
    omega

/-- A candidate that replaced the best is not replaced by it in turn: a tie keeps the incumbent. -/
theorem calBetter_asymm {p : Params} {c : Calibrator} {succ att pulse post : U32} (hvalid : c.bestValid = true)
    (h : calBetter p c succ att pulse post = true) :
    calBetter p { c with bestSucc := succ, bestAtt := att, bestPulse := pulse, bestPost := post }
      c.bestSucc c.bestAtt c.bestPulse c.bestPost = false := by
  rw [Bool.eq_false_iff, Ne, calBetter_iff]
  rw [calBetter_iff] at h
  simp only [hvalid, reduceCtorEq, false_or] at h ⊢
  omega

/-- Settles O36: the two tests are their inequalities, and the preference is asymmetric. -/
theorem candidateAndPreference : Obligations.CandidateAndPreference := by
  unfold Obligations.CandidateAndPreference
  refine ⟨calCandidate_iff, fun p c s a pw po => ?_, fun p c s a pw po => calBetter_asymm⟩
  rw [calBetter_iff, midDistance_lt_iff]

/-! ## The grid (R212) -/

/-- What R13 says of the parameters that span the grid and of the window's size. -/
theorem grid_parameters (p : Params) :
    (p.pwMin.toNat ≤ p.pwMax.toNat ∧ p.pwMax.toNat < 2 ^ 31) ∧
    (p.pwaitMin.toNat ≤ p.pwaitMax.toNat ∧ p.pwaitMax.toNat < 2 ^ 31) ∧
    (0 < p.calStep.toNat ∧ p.calStep.toNat < 2 ^ 31) ∧ 1 ≤ p.trialN.toNat := by
  obtain ⟨-, -, -, -, -, -, -, hpulse, hpost, hstep, htrial, -⟩ := (ok_iff_parametersAllowed p.toRawParams).mp p.ok
  exact ⟨hpulse, hpost, hstep, htrial⟩

/-- The n-th point of a range has a next one exactly where one more step stays in the range. -/
theorem lt_div_iff_step_le {lo hi step n : Nat} (hstep : 0 < step) (hle : lo ≤ hi) :
    n < (hi - lo) / step ↔ lo + n * step + step ≤ hi := by
  rw [← Nat.succ_le_iff, Nat.le_div_iff_mul_le hstep, Nat.succ_mul]
  omega

/-! ## `advance()` (R213) -/

theorem calAdvance_nextPost {p : Params} {c : Calibrator} (h : c.post.toNat + p.calStep.toNat ≤ p.pwaitMax.toNat) :
    calAdvance p c = some { c with post := c.post + p.calStep } := if_pos h

theorem calAdvance_nextPulse {p : Params} {c : Calibrator} (hpost : ¬c.post.toNat + p.calStep.toNat ≤ p.pwaitMax.toNat)
    (hpulse : p.pwMin.toNat + p.calStep.toNat ≤ c.pulse.toNat) :
    calAdvance p c = some { c with pulse := c.pulse - p.calStep, post := p.pwaitMin } :=
  (if_neg hpost).trans (if_pos hpulse)

theorem calAdvance_exhausted {p : Params} {c : Calibrator}
    (hpost : ¬c.post.toNat + p.calStep.toNat ≤ p.pwaitMax.toNat)
    (hpulse : ¬p.pwMin.toNat + p.calStep.toNat ≤ c.pulse.toNat) : calAdvance p c = none :=
  (if_neg hpost).trans (if_neg hpulse)

/-- All that `advance()` can do. -/
theorem calAdvance_cases (p : Params) (c : Calibrator) :
    (c.post.toNat + p.calStep.toNat ≤ p.pwaitMax.toNat ∧
      calAdvance p c = some { c with post := c.post + p.calStep }) ∨
    (p.pwMin.toNat + p.calStep.toNat ≤ c.pulse.toNat ∧
      calAdvance p c = some { c with pulse := c.pulse - p.calStep, post := p.pwaitMin }) ∨
    calAdvance p c = none := by
  by_cases hpost : c.post.toNat + p.calStep.toNat ≤ p.pwaitMax.toNat
  · exact .inl ⟨hpost, calAdvance_nextPost hpost⟩
  · by_cases hpulse : p.pwMin.toNat + p.calStep.toNat ≤ c.pulse.toNat
    · exact .inr (.inl ⟨hpulse, calAdvance_nextPulse hpost hpulse⟩)
    · exact .inr (.inr (calAdvance_exhausted hpost hpulse))

/-- `advance()` reads and writes nothing but the timing in force. -/
theorem calAdvance_congr {p : Params} {c d : Calibrator} (hpulse : d.pulse = c.pulse) (hpost : d.post = c.post) :
    calAdvance p d = (calAdvance p c).map fun n => { d with pulse := n.pulse, post := n.post } := by
  unfold calAdvance
  rw [hpulse, hpost]
  split_ifs
  · simp [← hpulse]
  · rfl
  · rfl

theorem u32_add_eq_ofNat (x y : U32) : x + y = BitVec.ofNat 32 (x.toNat + y.toNat) := by
  rw [BitVec.ofNat_add, BitVec.ofNat_toNat, BitVec.ofNat_toNat, BitVec.setWidth_eq, BitVec.setWidth_eq]

theorem u32_sub_eq_ofNat {x y : U32} (h : y.toNat ≤ x.toNat) : x - y = BitVec.ofNat 32 (x.toNat - y.toNat) := by
  bv_omega

/-- Settles O35: at point (k, j) the two tests of `advance()` are j < J and k < K. -/
theorem advanceVisitsGridInOrder : Obligations.AdvanceVisitsGridInOrder := by
  unfold Obligations.AdvanceVisitsGridInOrder
  intro p c k j hk hj hpulse hpost
  obtain ⟨⟨hpw, -⟩, ⟨hpwait, -⟩, ⟨hstep, -⟩, -⟩ := grid_parameters p
  have hnextPost := lt_div_iff_step_le (n := j) hstep hpwait
  have hnextPulse := lt_div_iff_step_le (n := k) hstep hpw
  have hkStep : k * p.calStep.toNat ≤ p.pwMax.toNat - p.pwMin.toNat := (Nat.le_div_iff_mul_le hstep).mp hk
  refine ⟨fun hlt => ?post, fun heq hlt => ?pulse, fun heq hlast => ?last⟩
  case post =>
    rw [calAdvance_nextPost (by omega), u32_add_eq_ofNat, hpost, Nat.succ_mul, Nat.add_assoc]
  case pulse =>
    rw [calAdvance_nextPulse (by omega) (by omega), u32_sub_eq_ofNat (by omega), hpulse, Nat.succ_mul, Nat.sub_sub]
  case last => exact calAdvance_exhausted (by omega) (by omega)

/-! ## Closing a window (R215) -/

theorem calRecord_eq (p : Params) (c : Calibrator) : calRecord p c =
    if calCandidate p c.winSucc c.winAtt = true ∧ calBetter p c c.winSucc c.winAtt c.pulse c.post = true
    then { c with bestValid := true, bestSucc := c.winSucc, bestAtt := c.winAtt,
                  bestPulse := c.pulse, bestPost := c.post }
    else c := by
  simp only [calRecord, Bool.and_eq_true]

@[simp] theorem calRecord_pulse (p : Params) (c : Calibrator) : (calRecord p c).pulse = c.pulse := by
  unfold calRecord
  split <;> rfl

@[simp] theorem calRecord_post (p : Params) (c : Calibrator) : (calRecord p c).post = c.post := by
  unfold calRecord
  split <;> rfl

theorem calMove_of_next {p : Params} {c n : Calibrator} (h : calAdvance p c = some n) : calMove p c = n := by
  rw [calMove, h]

theorem calMove_of_best {p : Params} {c : Calibrator} (h : calAdvance p c = none) (hbest : c.bestValid = true) :
    calMove p c = { c with pulse := c.bestPulse, post := c.bestPost, locked := true } := by
  rw [calMove, h]
  exact if_pos hbest

theorem calMove_of_no_best {p : Params} {c : Calibrator} (h : calAdvance p c = none) (hbest : c.bestValid = false) :
    calMove p c = { c with pulse := p.pwMax, post := p.pwaitMin } := by
  rw [calMove, h]
  exact if_neg (Bool.eq_false_iff.mp hbest)

/-- Recording does not move the cursor, so the grid goes on from where it was. -/
theorem calAdvance_calRecord (p : Params) (c : Calibrator) : calAdvance p (calRecord p c) =
    (calAdvance p c).map fun n => { calRecord p c with pulse := n.pulse, post := n.post } :=
  calAdvance_congr (calRecord_pulse p c) (calRecord_post p c)

/-- Settles O34: the record, then the three cases of the cursor's move from it. -/
theorem closeWindowMovesCursor : Obligations.CloseWindowMovesCursor := by
  unfold Obligations.CloseWindowMovesCursor
  intro p now c d hd
  rw [← calRecord_eq] at hd
  subst hd
  have hadv := calAdvance_calRecord p c
  refine ⟨fun n hn => ?next, fun hnone hbest => ?lock, fun hnone hbest => ?restart⟩
  case next =>
    rw [hn] at hadv
    rw [calClose, calMove_of_next hadv]
  case lock =>
    rw [hnone] at hadv
    rw [calClose, calMove_of_best hadv hbest]
  case restart =>
    rw [hnone] at hadv
    rw [calClose, calMove_of_no_best hadv hbest]

/-! ## One arrival (R214) -/

theorem calIdle_eq_false {s : State} (h : ¬Claims.idlePast s) : calIdle s.cfg s.now s.cal = false :=
  Bool.eq_false_iff.mpr (mt (calIdle_iff s).mp h)

theorem calIdle_calReset (p : Params) (now : U32) (c : Calibrator) : calIdle p now (calReset p c) = false := rfl

theorem calArrive_of_idle {p : Params} {now : U32} {c : Calibrator} (h : calIdle p now c = true) :
    calArrive p now c = { calReset p c with lastSeen := now, hasSeen := true } := by
  rw [calArrive, if_pos h]

theorem calArrive_of_not_idle {p : Params} {now : U32} {c : Calibrator} (h : calIdle p now c = false) :
    calArrive p now c = { c with lastSeen := now, hasSeen := true } := by
  simp [calArrive, h]

/-- After an idle period an arrival finds the calibrator as `cal_reset()` leaves it. -/
theorem calArrive_calReset {p : Params} {now : U32} {c : Calibrator} (h : calIdle p now c = true) :
    calArrive p now (calReset p c) = calArrive p now c := by
  rw [calArrive_of_idle h, calArrive_of_not_idle (calIdle_calReset p now c)]

/-- The window with one more arrival: the first arrival of a sweep opens it. -/
theorem calCount_calBegin (now : U32) (succ : Bool) (c : Calibrator) : calCount succ (calBegin now c) = { c with
    sweepStarted := true
    winStart := if c.sweepStarted then c.winStart else now
    winAtt := (if c.sweepStarted then c.winAtt else 0) + 1
    winSucc := (if c.sweepStarted then c.winSucc else 0) + (if succ = true then 1 else 0) } := by
  cases hstarted : c.sweepStarted <;> cases succ <;> simp [calCount, calBegin, hstarted]

theorem calWindowOver_iff (p : Params) (now : U32) (c : Calibrator) : calWindowOver p now c = true ↔
    p.trialN.toNat ≤ c.winAtt.toNat ∨ p.trialTimeout.toNat ≤ (now - c.winStart).toNat := by
  rw [calWindowOver, Bool.or_eq_true, decide_eq_true_eq, decide_eq_true_eq]
  rfl

theorem calObserve_of_disabled {p : Params} (h : p.calEnable = false) (now : U32) (succ : Bool) (c : Calibrator) :
    calObserve p now succ c = c := if_pos h

theorem calObserve_of_locked {p : Params} {now : U32} {c : Calibrator} (h : p.calEnable = true)
    (hlocked : (calArrive p now c).locked = true) (succ : Bool) :
    calObserve p now succ c = calArrive p now c := by
  simp [calObserve, h, hlocked]

theorem calObserve_of_unlocked {p : Params} {now : U32} {c : Calibrator} (h : p.calEnable = true)
    (hlocked : (calArrive p now c).locked = false) (succ : Bool) :
    calObserve p now succ c = calTrial p now succ (calArrive p now c) := by
  simp [calObserve, h, hlocked]

/-- A locked observation before the idle period has passed takes only the time (R219). -/
theorem calObserve_of_locked_not_idle {p : Params} {now : U32} {c : Calibrator} (h : p.calEnable = true)
    (hidle : calIdle p now c = false) (hlocked : c.locked = true) (succ : Bool) :
    calObserve p now succ c = { c with lastSeen := now, hasSeen := true } := by
  have harrive := calArrive_of_not_idle hidle
  rw [calObserve_of_locked h (by rw [harrive]; exact hlocked), harrive]

theorem calObserve_calReset {p : Params} {now : U32} {c : Calibrator} (h : p.calEnable = true)
    (hidle : calIdle p now c = true) (succ : Bool) :
    calObserve p now succ (calReset p c) = calObserve p now succ c := by
  simp [calObserve, h, calArrive_calReset hidle]

/-- One observation while unlocked, with the window's end as numbers. -/
theorem calTrial_eq {p : Params} {now : U32} {succ : Bool} {c d : Calibrator}
    (hd : calCount succ (calBegin now c) = d) : calTrial p now succ c =
      if p.trialN.toNat ≤ d.winAtt.toNat ∨ p.trialTimeout.toNat ≤ (now - d.winStart).toNat
      then calClose p now d else d := by
  subst hd
  simp only [calTrial, calWindowOver_iff]

/-! ## CALOBS and CALTICK -/

/-- What OSEL reports as a success: the command byte was received and is not the sentinel. -/
theorem observedSuccess_iff (o : ObsSel) (s : State) : observedSuccess o s = true ↔ o = .cmd ∧ s.cmd ≠ 0xFF := by
  cases o with
  | fail => simp [observedSuccess]
  | cmd => simp [observedSuccess, Bool.eq_false_iff, isSentinel_iff]

theorem exec_calobs_c0 {s : State} (o : ObsSel) (hm : s.mpc = .c0) : exec (.calobs o) s =
    .next (done .ok { s with cal := calObserve s.cfg s.now (observedSuccess o s) s.cal }) := by
  simp only [exec, execCalobs, hm]

theorem exec_caltick_ct0 {s : State} (hm : s.mpc = .ct0) :
    exec .caltick s = .next (done .ok { s with cal := calTick s.cfg s.now s.cal }) := by
  simp only [exec, execCaltick, hm]

/-- After an idle period CALOBS runs as from the reset calibrator: the two registers that the reset keeps are written
before they are read. -/
theorem exec_calobs_of_idle {s : State} (o : ObsSel) (hm : s.mpc = .c0) (henable : s.cfg.calEnable = true)
    (hidle : Claims.idlePast s) :
    exec (.calobs o) s = exec (.calobs o) { s with cal := Claims.calResetTo s.cfg s.cal } := by
  have hreset : calObserve s.cfg s.now (observedSuccess o s) (Claims.calResetTo s.cfg s.cal) =
      calObserve s.cfg s.now (observedSuccess o s) s.cal :=
    calObserve_calReset henable ((calIdle_iff s).mpr hidle) _
  rw [exec_calobs_c0 o hm, ← hreset]
  exact (exec_calobs_c0 (s := { s with cal := Claims.calResetTo s.cfg s.cal }) o hm).symm

/-- Settles O32: the four cases of `calObserve` by enable, idle period and lock. -/
theorem calobsCountsArrival : Obligations.CalobsCountsArrival := by
  unfold Obligations.CalobsCountsArrival
  refine ⟨rfl, rfl, fun o s hm => ⟨fun hdisabled => ?disabled, fun henable hidle => ?idle,
    fun henable hidle hlocked => ?locked, fun d henable hidle hlocked hd => ?trial⟩⟩
  case disabled => rw [exec_calobs_c0 o hm, calObserve_of_disabled hdisabled]
  case idle => exact ⟨exec_calobs_of_idle o hm henable hidle, _, exec_calobs_c0 o hm⟩
  case locked =>
    rw [exec_calobs_c0 o hm, calObserve_of_locked_not_idle henable (calIdle_eq_false hidle) hlocked]
  case trial =>
    have harrive := calArrive_of_not_idle (calIdle_eq_false hidle)
    have hwindow : calCount (observedSuccess o s) (calBegin s.now (calArrive s.cfg s.now s.cal)) = d := by
      rw [harrive, calCount_calBegin, hd]
      simp only [observedSuccess_iff]
    rw [exec_calobs_c0 o hm, calObserve_of_unlocked henable (by rw [harrive]; exact hlocked), calTrial_eq hwindow]

/-- Settles O33: CALTICK's one micro-step is the idle check. -/
theorem caltickResetsAfterIdle : Obligations.CaltickResetsAfterIdle := by
  unfold Obligations.CaltickResetsAfterIdle
  refine ⟨rfl, fun s c hm hc => ?_⟩
  rw [exec_caltick_ct0 hm, calTick_of_ticked hc]

end Sys2Proof.Proofs.Calibration
end

