-- ==== Sys2Proof/Proofs/CalibratorSteps.lean ====
section
/-! PROOFS. The calibrator over every step (42_calibrator.md R212, R215, R218, R219): an agent's turn leaves it, ticks
it or observes an arrival; each of the three keeps its invariant, and while locked each keeps the lock. -/

open Sys2Proof
open Sys2Proof.Machine

namespace Sys2Proof.Proofs.CalibrationSteps

open Sys2Proof.Proofs.Ownership
open Sys2Proof.Proofs.Memory
open Sys2Proof.Proofs.Transaction
open Sys2Proof.Proofs.Calibration

/-! ## The calibrator over ENGINE's operations -/

/-- What a step from s can leave as the calibrator: it as it was, after `cal_tick()`, or after one observation. -/
inductive CalEffect (s : State) : Calibrator → Prop
  | kept : CalEffect s s.cal
  | ticked : CalEffect s (calTick s.cfg s.now s.cal)
  | observed (succ : Bool) : CalEffect s (calObserve s.cfg s.now succ s.cal)

theorem CalEffect.of_eq {s : State} {c : Calibrator} (h : c = s.cal) : CalEffect s c := h ▸ .kept

/-- A micro-step from s with outcome o leaves the calibrator, if it goes on. -/
inductive KeepsCal (s : State) : Host.Outcome State Fault Refusal → Prop
  | next {t : State} (hcal : t.cal = s.cal) : KeepsCal s (.next t)
  | fault (r : Fault) : KeepsCal s (.fault r)

theorem calEffect_of_keepsCal {s t : State} {o : Host.Outcome State Fault Refusal} (ho : o = .next t)
    (h : KeepsCal s o) : CalEffect s t.cal := by
  cases h with
  | next hcal =>
    cases ho
    exact .of_eq hcal
  | fault r => cases ho

theorem cal_ite {c : Prop} [Decidable c] {s t u : State} (ht : t.cal = s.cal) (hu : u.cal = s.cal) :
    (if c then t else u).cal = s.cal := by
  split
  · exact ht
  · exact hu

/-- An edge wait leaves the calibrator where its two ends do. -/
theorem cal_waitStep {level : Bool} {bound : U32} {stay : WaitPos → Mpc} {onOk onFail : State → State}
    (hok : ∀ u, (onOk u).cal = u.cal) (hfail : ∀ u, (onFail u).cal = u.cal) (p : WaitPos) (s : State) :
    (waitStep level bound stay onOk onFail p s).cal = s.cal := by
  rcases waitStep_cases level bound stay onOk onFail p s with ⟨-, h⟩ | ⟨-, h⟩ | ⟨-, r, h⟩ | ⟨-, h⟩ <;> rw [h]
  · rfl
  · exact hok s
  · exact hfail (raise r s)

/-- A wait inside an operation. -/
theorem cal_waitStep_stepTo {level : Bool} {bound : U32} {stay : WaitPos → Mpc} {okMpc failMpc : Mpc}
    (p : WaitPos) (s : State) : (waitStep level bound stay (stepTo okMpc) (stepTo failMpc) p s).cal = s.cal :=
  cal_waitStep (stepTo_cal okMpc) (stepTo_cal failMpc) p s

section Operations
variable (s : State)

theorem idlePoll_cal : (idlePoll s).cal = s.cal := cal_ite rfl (cal_ite rfl rfl)

theorem rxSample_cal : (rxSample s).cal = s.cal := cal_ite rfl (cal_ite (done_cal _ _) (done_cal _ _))

theorem dispatchOn_cal (a : Byte) : (dispatchOn a s).cal = s.cal :=
  cal_ite (done_cal _ _) (cal_ite (done_cal _ _) (cal_ite (done_cal _ _) (done_cal _ _)))

theorem commandOn_cal (c : Byte) : (commandOn c s).cal = s.cal :=
  cal_ite (done_cal _ _) (cal_ite (done_cal _ _) (done_cal _ _))

theorem execStart_keepsCal : KeepsCal s (execStart s) := by
  unfold execStart
  split
  · exact .next (done_cal _ _)
  · exact .fault _

theorem execRx_keepsCal : KeepsCal s (execRx s) := by
  unfold execRx
  split
  · exact .next rfl
  · exact .next (cal_waitStep_stepTo _ s)
  · exact .next (cal_waitStep_stepTo _ s)
  · exact .next (rxSample_cal s)
  · exact .next (done_cal _ _)
  · exact .fault _

theorem atDispatch_keepsCal {f : State → State} (hf : (f s).cal = s.cal) : KeepsCal s (atDispatch f s) := by
  unfold atDispatch
  split
  · exact .next hf
  · exact .fault _

theorem atCmdchk_keepsCal {f : State → State} (hf : (f s).cal = s.cal) : KeepsCal s (atCmdchk f s) := by
  unfold atCmdchk
  split
  · exact .next hf
  · exact .fault _

theorem execAck_keepsCal : KeepsCal s (execAck s) := by
  unfold execAck
  split
  · exact .next rfl
  · exact .next (cal_ite rfl rfl)
  · exact .next (cal_ite (done_cal _ _) rfl)
  · exact .next rfl
  · exact .next rfl
  · exact .next (cal_ite rfl rfl)
  · exact .next (done_cal _ _)
  · exact .fault _

theorem execDelay_keepsCal (d : DelaySel) : KeepsCal s (execDelay d s) := by
  unfold execDelay
  split
  · exact .next rfl
  · exact .next (cal_ite (done_cal _ _) rfl)
  · exact .fault _

theorem xferStep_keepsCal (v : Byte) : KeepsCal s (xferStep v s) := by
  unfold xferStep
  split
  · exact .next rfl
  · exact .next (cal_waitStep_stepTo _ s)
  · exact .next rfl
  · exact .next rfl
  · exact .next (cal_waitStep_stepTo _ s)
  · exact .next rfl
  · exact .next (done_cal _ _)
  · exact .next (done_cal _ _)
  · exact .fault _

theorem txStep_keepsCal (v : Byte) : KeepsCal s (txStep v s) := by
  unfold txStep
  split
  · exact .next rfl
  · exact .next (cal_waitStep_stepTo _ s)
  · exact .next rfl
  · exact .next (cal_waitStep_stepTo _ s)
  · exact .next rfl
  · exact .next (done_cal _ _)
  · exact .next (done_cal _ _)
  · exact .fault _

theorem execStpoll_keepsCal : KeepsCal s (execStpoll s) := by
  unfold execStpoll
  split
  · exact .next (done_cal _ _)
  · exact .fault _

theorem execEnd_keepsCal : KeepsCal s (execEnd s) := by
  unfold execEnd
  split
  · exact .next (done_cal _ _)
  · exact .fault _

theorem execMcwait_keepsCal : KeepsCal s (execMcwait s) := by
  unfold execMcwait
  split
  · exact .next rfl
  · exact .next (cal_ite (done_cal _ _) rfl)
  · exact .fault _

theorem execAbort_keepsCal : KeepsCal s (execAbort s) := by
  unfold execAbort
  split
  · exact .next (done_cal _ _)
  · exact .fault _

theorem waitOp_keepsCal (level : Bool) (t : TimeoutSel) : KeepsCal s (waitOp level t s) := by
  unfold waitOp
  split
  · exact .next (cal_waitStep (done_cal .ok) (done_cal .fail) _ s)
  · exact .fault _

theorem execRelbus_keepsCal : KeepsCal s (execRelbus s) := by
  unfold execRelbus
  split
  · exact .next (done_cal _ _)
  · exact .fault _

theorem execAddrSentinel_keepsCal : KeepsCal s (execAddrSentinel s) := by
  unfold execAddrSentinel
  split
  · exact .next (done_cal _ _)
  · exact .fault _

end Operations

/-! ## CHR, and the three operations that read the calibrator's time -/

theorem exec_chr_cal {s t : State} (h : exec .chr s = .next t) : t.cal = s.cal := by
  rcases execChr_cases h with ⟨-, i, -, rfl⟩ | ⟨-, rfl⟩ | ⟨-, rfl⟩ | ⟨-, rfl⟩ | ⟨-, rfl⟩
  · rfl
  · rfl
  · rfl
  · rfl
  · exact done_cal _ _

/-- IDLEWAIT ticks the calibrator at each poll of its i0 (41_transaction_fsm.md R171). -/
theorem execIdlewait_calEffect {s t : State} (h : execIdlewait s = .next t) : CalEffect s t.cal := by
  unfold execIdlewait at h
  split at h <;> cases h
  · rw [idlePoll_cal]
    exact .ticked
  · exact .of_eq (cal_ite rfl rfl)
  · exact .of_eq (cal_ite rfl (done_cal _ _))

theorem execCalobs_calEffect {o : ObsSel} {s t : State} (h : execCalobs o s = .next t) : CalEffect s t.cal := by
  unfold execCalobs at h
  split at h <;> cases h
  rw [done_cal]
  exact .observed (observedSuccess o s)

theorem execCaltick_calEffect {s t : State} (h : execCaltick s = .next t) : CalEffect s t.cal := by
  unfold execCaltick at h
  split at h <;> cases h
  rw [done_cal]
  exact .ticked

/-! ## Every step -/

/-- Of ENGINE's operations only IDLEWAIT, CALOBS and CALTICK write the calibrator (10_state.md R50). -/
theorem exec_engine_calEffect {i : Instr} {s t : State} (hi : i.agent = .engine) (h : exec i s = .next t) :
    CalEffect s t.cal := by
  cases i with
  | idlewait => exact execIdlewait_calEffect h
  | calobs o => exact execCalobs_calEffect h
  | caltick => exact execCaltick_calEffect h
  | chr => exact .of_eq (exec_chr_cal h)
  | start => exact calEffect_of_keepsCal h (execStart_keepsCal s)
  | rx => exact calEffect_of_keepsCal h (execRx_keepsCal s)
  | dispatch => exact calEffect_of_keepsCal h (atDispatch_keepsCal s (dispatchOn_cal s s.addr))
  | ack => exact calEffect_of_keepsCal h (execAck_keepsCal s)
  | delay d => exact calEffect_of_keepsCal h (execDelay_keepsCal s d)
  | xferi v => exact calEffect_of_keepsCal h (xferStep_keepsCal s v)
  | xferr r => exact calEffect_of_keepsCal h (xferStep_keepsCal s (readReg r s))
  | cmdchk => exact calEffect_of_keepsCal h (atCmdchk_keepsCal s (commandOn_cal s s.cmd))
  | stpoll => exact calEffect_of_keepsCal h (execStpoll_keepsCal s)
  | endTxn => exact calEffect_of_keepsCal h (execEnd_keepsCal s)
  | mcwait => exact calEffect_of_keepsCal h (execMcwait_keepsCal s)
  | abort => exact calEffect_of_keepsCal h (execAbort_keepsCal s)
  | txi v => exact calEffect_of_keepsCal h (txStep_keepsCal s v)
  | txr r => exact calEffect_of_keepsCal h (txStep_keepsCal s (readReg r s))
  | waitf t => exact calEffect_of_keepsCal h (waitOp_keepsCal s false t)
  | waitr t => exact calEffect_of_keepsCal h (waitOp_keepsCal s true t)
  | relbus => exact calEffect_of_keepsCal h (execRelbus_keepsCal s)
  | addrController => exact calEffect_of_keepsCal h (atDispatch_keepsCal s (done_cal _ _))
  | addrMemcard => exact calEffect_of_keepsCal h (atDispatch_keepsCal s (done_cal _ _))
  | addrSentinel => exact calEffect_of_keepsCal h (execAddrSentinel_keepsCal s)
  | addrIgnored b => exact calEffect_of_keepsCal h (atDispatch_keepsCal s (done_cal _ _))
  | addrInvalid b => exact calEffect_of_keepsCal h (atDispatch_keepsCal s (done_cal _ _))
  | cmdPoll => exact calEffect_of_keepsCal h (atCmdchk_keepsCal s (done_cal _ _))
  | cmdSentinel => exact calEffect_of_keepsCal h (atCmdchk_keepsCal s (done_cal _ _))
  | cmdOther b => exact calEffect_of_keepsCal h (atCmdchk_keepsCal s (done_cal _ _))
  | idLow => exact calEffect_of_keepsCal h (xferStep_keepsCal s 0x41)
  | idHigh => exact calEffect_of_keepsCal h (xferStep_keepsCal s 0x5A)
  | chw => cases hi
  | isr => cases hi
  | tread x => cases hi

theorem exec_chw_cal {s t : State} (h : exec .chw s = .next t) : t.cal = s.cal :=
  (congrArg State.cal (exec_chw_frame h)).trans rfl

theorem takeTurn_calEffect {τ : Turn} {s t : State} (h : takeTurn τ s = .next t) : CalEffect s t.cal := by
  cases takeTurn_effect h with
  | isr _ => exact .kept
  | engine _ hi hexec => exact exec_engine_calEffect hi hexec
  | writer hexec => exact .of_eq ((exec_chw_cal hexec).trans rfl)
  | telemetry w x => exact .kept
  | host p => exact .kept
  | timebase => exact .kept

theorem calEffect_of_popTurn {s : State} {c : Calibrator} (h : CalEffect (popTurn s) c) : CalEffect s c := by
  cases h with
  | kept => exact .of_eq (popTurn_cal s)
  | ticked =>
    rw [popTurn_cfg, popTurn_now, popTurn_cal]
    exact .ticked
  | observed succ =>
    rw [popTurn_cfg, popTurn_now, popTurn_cal]
    exact .observed succ

theorem step_calEffect {s t : State} (h : step s = .next t) : CalEffect s t.cal :=
  calEffect_of_popTurn (takeTurn_calEffect h)

/-! ## While locked (R219) -/

/-- Settles O38: without an idle reset a tick leaves the calibrator, and a locked observation takes only the time. -/
theorem lockedTimingIsConstant : Obligations.LockedTimingIsConstant := by
  unfold Obligations.LockedTimingIsConstant
  intro s t hlocked hidle h
  have heffect := step_calEffect h
  generalize t.cal = c at heffect ⊢
  cases heffect with
  | kept => rfl
  | ticked => rw [calTick_of_ticked (.inr ⟨hidle, rfl⟩)]
  | observed succ =>
    cases henable : s.cfg.calEnable with
    | false => rw [calObserve_of_disabled henable]
    | true =>
      have hnotIdle : ¬Claims.idlePast s := fun hpast => hidle ⟨henable, hpast⟩
      rw [calObserve_of_locked_not_idle henable (calIdle_eq_false hnotIdle) hlocked]

/-! ## Grid points (R212) -/

theorem gridPoint_first (p : Params) : GridPoint p p.pwMax p.pwaitMin := by
  obtain ⟨⟨hpw, -⟩, ⟨hpwait, -⟩, -⟩ := grid_parameters p
  exact ⟨hpw, Nat.le_refl _, by simp, Nat.le_refl _, hpwait, by simp⟩

theorem gridPoint_nextPost {p : Params} {pulse post : U32} (h : GridPoint p pulse post)
    (hnext : post.toNat + p.calStep.toNat ≤ p.pwaitMax.toNat) : GridPoint p pulse (post + p.calStep) := by
  obtain ⟨-, ⟨-, hpwait⟩, -⟩ := grid_parameters p
  have hlow := h.postLow
  have hsum : (post + p.calStep).toNat = post.toNat + p.calStep.toNat := BitVec.toNat_add_of_lt (by omega)
  have hdist : post.toNat + p.calStep.toNat - p.pwaitMin.toNat =
      post.toNat - p.pwaitMin.toNat + p.calStep.toNat := by omega
  exact {
    pulseLow := h.pulseLow, pulseHigh := h.pulseHigh, pulseStep := h.pulseStep
    postLow := by omega
    postHigh := by omega
    postStep := by rw [hsum, hdist, Nat.add_mod_right, h.postStep] }

theorem gridPoint_nextPulse {p : Params} {pulse post : U32} (h : GridPoint p pulse post)
    (hnext : p.pwMin.toNat + p.calStep.toNat ≤ pulse.toNat) : GridPoint p (pulse - p.calStep) p.pwaitMin := by
  have hhigh := h.pulseHigh
  have hdiff : (pulse - p.calStep).toNat = pulse.toNat - p.calStep.toNat :=
    BitVec.toNat_sub_of_le (BitVec.le_def.mpr (by omega))
  have hdist : p.pwMax.toNat - (pulse.toNat - p.calStep.toNat) =
      p.pwMax.toNat - pulse.toNat + p.calStep.toNat := by omega
  have hfirst := gridPoint_first p
  exact {
    pulseLow := by omega
    pulseHigh := by omega
    pulseStep := by rw [hdiff, hdist, Nat.add_mod_right, h.pulseStep]
    postLow := hfirst.postLow, postHigh := hfirst.postHigh, postStep := hfirst.postStep }

/-! ## The invariant while a window counts -/

/-- The calibrator invariant of an unlocked calibrator inside a sweep, with any number of attempts: what holds between
counting an arrival and closing the window that it may fill. -/
structure TrialInv (p : Params) (c : Calibrator) : Prop where
  cursor : GridPoint p c.pulse c.post
  best : c.bestValid = true → GridPoint p c.bestPulse c.bestPost
  candidate : c.bestValid = true → calCandidate p c.bestSucc c.bestAtt = true
  bestRate : c.bestSucc.toNat ≤ c.bestAtt.toNat
  unlocked : c.locked = false
  started : c.sweepStarted = true
  windowRate : c.winSucc.toNat ≤ c.winAtt.toNat

/-- Inside an open window the two invariants say the same. -/
theorem TrialInv.calInv {p : Params} {c : Calibrator} (h : TrialInv p c) (hwindow : c.winAtt.toNat < p.trialN.toNat) :
    CalInv p c where
  cursor := h.cursor
  best := h.best
  candidate := h.candidate
  bestRate := h.bestRate
  locked hlocked := absurd hlocked (Bool.eq_false_iff.mp h.unlocked)
  started _ := h.started
  window := hwindow
  windowRate := h.windowRate

/-- One more attempt, and at most one more success. -/
theorem count_rate {wins tries : U32} (hrate : wins.toNat ≤ tries.toNat) (hroom : tries.toNat + 1 < 2 ^ 32)
    (succ : Bool) : (wins + if succ = true then 1 else 0).toNat ≤ (tries + 1).toNat := by
  cases succ with
  | false =>
    rw [if_neg Bool.false_ne_true]
    bv_omega
  | true =>
    rw [if_pos rfl]
    bv_omega

/-- An open window is not full, so counting one arrival does not wrap. -/
theorem trialInv_count {p : Params} {c : Calibrator} (h : CalInv p c) (hlocked : c.locked = false) (now : U32)
    (succ : Bool) : TrialInv p (calCount succ (calBegin now c)) := by
  have hroom : c.winAtt.toNat + 1 < 2 ^ 32 := by
    have hwindow := h.window
    have htrial := p.trialN.isLt
    omega
  rw [calCount_calBegin]
  refine ⟨h.cursor, h.best, h.candidate, h.bestRate, hlocked, rfl, ?windowRate⟩
  cases c.sweepStarted with
  | false => exact count_rate (wins := 0) (tries := 0) (Nat.le_refl _) (by decide) succ
  | true => exact count_rate h.windowRate hroom succ

theorem trialInv_record {p : Params} {c : Calibrator} (h : TrialInv p c) : TrialInv p (calRecord p c) := by
  rw [calRecord_eq]
  split
  · next hbetter =>
    exact {
      cursor := h.cursor, unlocked := h.unlocked, started := h.started, windowRate := h.windowRate
      best := fun _ => h.cursor
      candidate := fun _ => hbetter.1
      bestRate := h.windowRate }
  · exact h

/-- Moving the cursor to a grid point keeps the rest, and the emptied window is open. -/
theorem calInv_of_cursor {p : Params} {c : Calibrator} (h : TrialInv p c) {pulse post : U32}
    (hcursor : GridPoint p pulse post) (now : U32) :
    CalInv p { c with pulse := pulse, post := post, winAtt := 0, winSucc := 0, winStart := now } := by
  obtain ⟨-, -, -, htrial⟩ := grid_parameters p
  refine TrialInv.calInv ?_ htrial
  exact { h with cursor := hcursor, windowRate := Nat.le_refl _ }

theorem calInv_of_lock {p : Params} {c : Calibrator} (h : TrialInv p c) (hbest : c.bestValid = true) (now : U32) :
    CalInv p { c with pulse := c.bestPulse, post := c.bestPost, locked := true,
                      winAtt := 0, winSucc := 0, winStart := now } :=
  { calInv_of_cursor h (h.best hbest) now with
    locked := fun _ => ⟨hbest, rfl, rfl⟩
    started := fun _ => h.started }

/-! ## The invariant after each of the calibrator's functions -/

theorem calInv_close {p : Params} {c : Calibrator} (hc : TrialInv p c) (now : U32) : CalInv p (calClose p now c) := by
  have h := trialInv_record hc
  unfold calClose
  generalize calRecord p c = d at h ⊢
  rcases calAdvance_cases p d with ⟨hnext, hadv⟩ | ⟨hnext, hadv⟩ | hadv
  · rw [calMove_of_next hadv]
    exact calInv_of_cursor h (gridPoint_nextPost h.cursor hnext) now
  · rw [calMove_of_next hadv]
    exact calInv_of_cursor h (gridPoint_nextPulse h.cursor hnext) now
  · cases hbest : d.bestValid with
    | true =>
      rw [calMove_of_best hadv hbest]
      exact calInv_of_lock h hbest now
    | false =>
      rw [calMove_of_no_best hadv hbest]
      exact calInv_of_cursor h (gridPoint_first p) now

theorem calInv_trial {p : Params} {c : Calibrator} (h : CalInv p c) (hlocked : c.locked = false) (now : U32)
    (succ : Bool) : CalInv p (calTrial p now succ c) := by
  have hcount := trialInv_count h hlocked now succ
  rw [calTrial_eq rfl]
  split
  · exact calInv_close hcount now
  · next hopen =>
    obtain ⟨hopen, -⟩ := not_or.mp hopen
    exact hcount.calInv (Nat.lt_of_not_le hopen)

theorem calInv_reset (p : Params) (c : Calibrator) : CalInv p (calReset p c) where
  cursor := gridPoint_first p
  best h := by cases h
  candidate h := by cases h
  bestRate := Nat.le_refl _
  locked h := by cases h
  started h := by cases h
  window := by
    obtain ⟨-, -, -, htrial⟩ := grid_parameters p
    exact htrial
  windowRate := Nat.le_refl _

theorem calInv_tick {p : Params} {c : Calibrator} (h : CalInv p c) (now : U32) : CalInv p (calTick p now c) := by
  unfold calTick
  split
  · exact calInv_reset p c
  · exact h

/-- The invariant says nothing of the time of the last arrival. -/
theorem calInv_seen {p : Params} {c : Calibrator} (h : CalInv p c) (now : U32) :
    CalInv p { c with lastSeen := now, hasSeen := true } :=
  { h with }

theorem calInv_arrive {p : Params} {c : Calibrator} (h : CalInv p c) (now : U32) : CalInv p (calArrive p now c) := by
  cases hidle : calIdle p now c with
  | true =>
    rw [calArrive_of_idle hidle]
    exact calInv_seen (calInv_reset p c) now
  | false =>
    rw [calArrive_of_not_idle hidle]
    exact calInv_seen h now

theorem calInv_observe {p : Params} {c : Calibrator} (h : CalInv p c) (now : U32) (succ : Bool) :
    CalInv p (calObserve p now succ c) := by
  cases henable : p.calEnable with
  | false =>
    rw [calObserve_of_disabled henable]
    exact h
  | true =>
    have harrive := calInv_arrive h now
    cases hlocked : (calArrive p now c).locked with
    | true =>
      rw [calObserve_of_locked henable hlocked]
      exact harrive
    | false =>
      rw [calObserve_of_unlocked henable hlocked]
      exact calInv_trial harrive hlocked now succ

/-- Settles O37: no step writes the parameters, and each of the three effects on the calibrator keeps the invariant. -/
theorem stepKeepsCalInv : Obligations.StepKeepsCalInv := by
  unfold Obligations.StepKeepsCalInv
  intro s t hs h
  obtain ⟨hcfg, -⟩ := stepKeepsConfiguration s t h
  rw [hcfg]
  have heffect := step_calEffect h
  generalize t.cal = c at heffect ⊢
  cases heffect with
  | kept => exact hs
  | ticked => exact calInv_tick hs s.now
  | observed succ => exact calInv_observe hs s.now succ

end Sys2Proof.Proofs.CalibrationSteps
end

