-- ==== Sys2Proof/Proofs/Channel.lean ====
section
/-! PROOFS. The channel's operations by themselves (43_channel.md R242, R244, R245): what `socd` does to each bit, and
each micro-step of CHW and of CHR with the cell it stores to. -/

open Sys2Proof
open Sys2Proof.Machine

namespace Sys2Proof.Proofs.Channel

open Sys2Proof.Proofs.Ownership

/-! ## Cleaning (R242) -/

/-- A pair of which one direction is 1, released, in `seen` is left alone. -/
theorem releasePair_of_not_pressed {seen : Byte} {i j : Fin 8} (v : Byte)
    (h : (!seen.getLsbD i.val && !seen.getLsbD j.val) = false) : releasePair seen i j v = v := by
  rw [releasePair, h]
  rfl

/-- A pair pressed as a whole in `seen` is released, and every other bit is as it was. -/
theorem getLsbD_releasePair (seen : Byte) (i j : Fin 8) (v : Byte) (k : Fin 8) :
    (releasePair seen i j v).getLsbD k.val =
      (v.getLsbD k.val || (decide (k = i ∨ k = j) && !seen.getLsbD i.val && !seen.getLsbD j.val)) := by
  unfold releasePair
  split
  next hpressed =>
    rw [getLsbD_setBit _ _ j.isLt k.isLt, getLsbD_setBit _ _ i.isLt k.isLt, Bool.and_assoc, hpressed]
    simp only [← Fin.ext_iff]
    by_cases hj : k = j
    · simp [hj]
    · by_cases hi : k = i <;> simp [hi, hj]
  next hnot =>
    rw [Bool.and_assoc, Bool.eq_false_iff.mpr hnot, Bool.and_false, Bool.or_false]

/-- Each bit of a cleaned snapshot. -/
theorem getLsbD_socd (p : Params) (b1 b2 : Byte) (k : Fin 8) : (socd p b1 b2).1.getLsbD k.val =
    (b1.getLsbD k.val ||
      (decide (k = p.bitLeft ∨ k = p.bitRight) && !b1.getLsbD p.bitLeft.val && !b1.getLsbD p.bitRight.val) ||
      (decide (k = p.bitUp ∨ k = p.bitDown) && !b1.getLsbD p.bitUp.val && !b1.getLsbD p.bitDown.val)) := by
  rw [socd, getLsbD_releasePair, getLsbD_releasePair]

/-- A cleaned snapshot has neither pair pressed as a whole. -/
theorem socd_pairs_not_pressed (p : Params) (b1 b2 : Byte) :
    (!(socd p b1 b2).1.getLsbD p.bitLeft.val && !(socd p b1 b2).1.getLsbD p.bitRight.val) = false ∧
      (!(socd p b1 b2).1.getLsbD p.bitUp.val && !(socd p b1 b2).1.getLsbD p.bitDown.val) = false := by
  simp only [getLsbD_socd]
  constructor
  · cases b1.getLsbD p.bitLeft.val <;> cases b1.getLsbD p.bitRight.val <;> simp
  · cases b1.getLsbD p.bitUp.val <;> cases b1.getLsbD p.bitDown.val <;> simp

/-- So cleaning it again changes nothing. -/
theorem socd_socd (p : Params) (b1 b2 : Byte) : socd p (socd p b1 b2).1 (socd p b1 b2).2 = socd p b1 b2 := by
  obtain ⟨hleftRight, hupDown⟩ := socd_pairs_not_pressed p b1 b2
  generalize socd p b1 b2 = cleaned at hleftRight hupDown ⊢
  rw [socd, releasePair_of_not_pressed _ hleftRight, releasePair_of_not_pressed _ hupDown]

/-- Settles O39: the result bit by bit, and a second cleaning finds no pair pressed. -/
theorem socdReleasesOppositePairs : Obligations.SocdReleasesOppositePairs := by
  unfold Obligations.SocdReleasesOppositePairs
  exact fun p b1 b2 => ⟨rfl, getLsbD_socd p b1 b2, socd_socd p b1 b2⟩

/-! ## CHW (R244) -/

theorem exec_chw_w1 {s : State} {r w : Idx} (hpos : s.wr.pos = .w1) (hr : s.ch.byteAt readIdxAddr = idxByte r)
    (hw : s.ch.byteAt writeIdxAddr = idxByte w) :
    exec .chw s = .next { s with wr := { s.wr with pos := .w2, wt := 1 - r, wcons := decide (r = w) } } := by
  simp only [exec, execChw, hpos]
  rw [chReadIdx_of_eq (by decide) hr, chReadIdx_of_eq (by decide) hw]
  rfl

theorem exec_chw_w2 {s : State} (hpos : s.wr.pos = .w2) :
    exec .chw s = .next { s with wr := { writerValues s.cfg.latch s.snap1 s.snap2 s.wr with pos := .w3 } } := by
  simp only [exec, execChw, hpos]
  rfl

theorem exec_chw_w3 {s : State} (hpos : s.wr.pos = .w3) : exec .chw s =
    .next { s with ch := s.ch.setByte (slotAddr s.wr.wt 0) s.wr.wv1, wr := { s.wr with pos := .w4 } } := by
  simp only [exec, execChw, hpos]
  exact chWrite_of_lt (slotAddr_lt _ (by decide)) _ _ _

theorem exec_chw_w4 {s : State} (hpos : s.wr.pos = .w4) : exec .chw s =
    .next { s with ch := s.ch.setByte (slotAddr s.wr.wt 1) s.wr.wv2, wr := { s.wr with pos := .w5 } } := by
  simp only [exec, execChw, hpos]
  exact chWrite_of_lt (slotAddr_lt _ (by decide)) _ _ _

theorem exec_chw_w5 {s : State} (hpos : s.wr.pos = .w5) :
    exec .chw s = .next { s with wr := { s.wr with pos := .w6 } } := by
  simp only [exec, execChw, hpos]
  rfl

theorem exec_chw_w6 {s : State} (hpos : s.wr.pos = .w6) : exec .chw s =
    .next { s with ch := s.ch.setByte writeIdxAddr (idxByte s.wr.wt), wr := { s.wr with pos := .w1 } } := by
  simp only [exec, execChw, hpos]
  exact chWrite_of_lt (by decide) _ _ _

/-- Settles O40: each micro-step as above; w2 by the mode and the consumed test, and a store changes its cell alone. -/
theorem chwPublishesSnapshot : Obligations.ChwPublishesSnapshot := by
  unfold Obligations.ChwPublishesSnapshot
  refine ⟨rfl, fun s r w hpos hr hw => exec_chw_w1 hpos hr hw, fun s hpos hlatch => ?direct,
    fun s hpos hlatch hcons => ?consumed, fun s hpos hlatch hcons => ?unread,
    fun s hpos hwf => ⟨_, exec_chw_w3 hpos, Memory.byteAt_put hwf _ _⟩,
    fun s hpos hwf => ⟨_, exec_chw_w4 hpos, Memory.byteAt_put hwf _ _⟩, fun s hpos => exec_chw_w5 hpos,
    fun s hpos hwf => ⟨_, exec_chw_w6 hpos, Memory.byteAt_put hwf _ _⟩⟩
  case direct => simp [exec_chw_w2 hpos, writerValues, hlatch]
  case consumed => simp [exec_chw_w2 hpos, writerValues, hlatch, hcons]
  case unread => simp [exec_chw_w2 hpos, writerValues, hlatch, hcons]

/-! ## CHR (R245) -/

theorem exec_chr_r1 {s : State} {w : Idx} (hmpc : s.mpc = .r1) (hw : s.ch.byteAt writeIdxAddr = idxByte w) :
    exec .chr s = .next { s with ridx := w, mpc := .r2 } := by
  simp only [exec, execChr, hmpc]
  exact chReadIdx_of_eq (by decide) hw _

theorem exec_chr_r2 {s : State} (hmpc : s.mpc = .r2) : exec .chr s = .next { s with mpc := .r3 } := by
  simp only [exec, execChr, hmpc]
  rfl

theorem exec_chr_r3 {s : State} (hmpc : s.mpc = .r3) :
    exec .chr s = .next { s with b1 := s.ch.byteAt (slotAddr s.ridx 0), mpc := .r4 } := by
  simp only [exec, execChr, hmpc]
  exact chRead_of_lt (slotAddr_lt _ (by decide)) _ _

theorem exec_chr_r4 {s : State} (hmpc : s.mpc = .r4) :
    exec .chr s = .next { s with b2 := s.ch.byteAt (slotAddr s.ridx 1), mpc := .r5 } := by
  simp only [exec, execChr, hmpc]
  exact chRead_of_lt (slotAddr_lt _ (by decide)) _ _

theorem exec_chr_r5 {s : State} (hmpc : s.mpc = .r5) : exec .chr s = .next (done .ok { s with
    ch := s.ch.setByte readIdxAddr (idxByte s.ridx)
    b1 := (socd s.cfg s.b1 s.b2).1, b2 := (socd s.cfg s.b1 s.b2).2 }) := by
  have hstore : exec .chr s =
      chWrite readIdxAddr (idxByte s.ridx) s fun t => .next (done .ok (cleanSnapshot t)) := by
    simp only [exec, execChr, hmpc]
  exact hstore.trans (chWrite_of_lt (a := readIdxAddr) (by decide) _ _ _)

/-- Settles O41: each micro-step as above; r5's store changes its cell alone. -/
theorem chrConsumesSnapshot : Obligations.ChrConsumesSnapshot := by
  unfold Obligations.ChrConsumesSnapshot
  exact ⟨rfl, fun s w hmpc hw => exec_chr_r1 hmpc hw, fun s hmpc => exec_chr_r2 hmpc,
    fun s hmpc => exec_chr_r3 hmpc, fun s hmpc => exec_chr_r4 hmpc,
    fun s hmpc hwf => ⟨_, exec_chr_r5 hmpc, Memory.byteAt_put hwf _ _⟩⟩

end Sys2Proof.Proofs.Channel
end

