-- ==== Sys2Proof/Proofs/ChannelTurns.lean ====
section
/-! PROOFS. One turn as the channel sees it (43_channel.md R244, R245): where an ENGINE micro-step leaves `R.mpc`, so that
only CHR's r1 begins a read; the turns split into CHW's, CHR's and those beside the channel; and what a turn can do to
WRITER's registers. -/

open Sys2Proof
open Sys2Proof.Machine

namespace Sys2Proof.Proofs.ChannelTurns

open Sys2Proof.Proofs.Ownership
open Sys2Proof.Proofs.Memory

/-! ## Where an ENGINE micro-step leaves `R.mpc` -/

/-- Where a micro-step of an operation that owns the labels `own` leads: to one of them, or to the end of the operation,
which begins the next one (10_state.md R41). -/
inductive StaysOrEnds (own : Mpc → Bool) : State → Prop
  | stays {t : State} (hown : own t.mpc = true) : StaysOrEnds own t
  | ends (o : Branch) (u : State) : StaysOrEnds own (done o u)

theorem staysOrEnds_ite {own : Mpc → Bool} {c : Prop} [Decidable c] {t u : State} (ht : StaysOrEnds own t)
    (hu : StaysOrEnds own u) : StaysOrEnds own (if c then t else u) := by
  split
  · exact ht
  · exact hu

/-- A micro-step of an edge wait stays at the wait or takes one of its two ends. -/
theorem waitStep_staysOrEnds {own : Mpc → Bool} {level : Bool} {bound : U32} {stay : WaitPos → Mpc}
    {onOk onFail : State → State} {p : WaitPos} {s : State} (hmpc : s.mpc = stay p) (hstay : ∀ q, own (stay q) = true)
    (hok : ∀ u, StaysOrEnds own (onOk u)) (hfail : ∀ u, StaysOrEnds own (onFail u)) :
    StaysOrEnds own (waitStep level bound stay onOk onFail p s) := by
  rcases waitStep_cases level bound stay onOk onFail p s with ⟨-, h⟩ | ⟨-, h⟩ | ⟨-, r, h⟩ | ⟨-, h⟩ <;> rw [h]
  · exact .stays (hstay .w1)
  · exact hok s
  · exact hfail (raise r s)
  · exact .stays (hmpc ▸ hstay p)

/-- A wait inside an operation: both its ends are micro-steps of that operation. -/
theorem waitStep_stepTo_staysOrEnds {own : Mpc → Bool} {level : Bool} {bound : U32} {stay : WaitPos → Mpc}
    {okMpc failMpc : Mpc} {p : WaitPos} {s : State} (hmpc : s.mpc = stay p) (hstay : ∀ q, own (stay q) = true)
    (hok : own okMpc = true) (hfail : own failMpc = true) :
    StaysOrEnds own (waitStep level bound stay (stepTo okMpc) (stepTo failMpc) p s) :=
  waitStep_staysOrEnds hmpc hstay (fun _ => .stays hok) (fun _ => .stays hfail)

section Operations
variable {s t : State}

theorem idlePoll_staysOrEnds (hmpc : s.mpc = .i0) : StaysOrEnds (ownsMpc .idlewait) (idlePoll s) :=
  have hown : ownsMpc .idlewait s.mpc = true := hmpc ▸ rfl
  staysOrEnds_ite (.stays hown) (staysOrEnds_ite (.stays rfl) (.stays hown))

theorem execIdlewait_staysOrEnds (h : execIdlewait s = .next t) : StaysOrEnds (ownsMpc .idlewait) t := by
  unfold execIdlewait at h
  split at h <;> rename_i hmpc <;> cases h
  · exact idlePoll_staysOrEnds hmpc
  · exact staysOrEnds_ite (.stays rfl) (.stays (hmpc ▸ rfl))
  · exact staysOrEnds_ite (.stays rfl) (.ends _ _)

theorem execRx_staysOrEnds (h : execRx s = .next t) : StaysOrEnds (ownsMpc .rx) t := by
  unfold execRx at h
  split at h <;> rename_i hmpc <;> cases h
  · exact .stays rfl
  · exact waitStep_stepTo_staysOrEnds hmpc (fun _ => rfl) rfl rfl
  · exact waitStep_stepTo_staysOrEnds hmpc (fun _ => rfl) rfl rfl
  · exact staysOrEnds_ite (.stays rfl) (staysOrEnds_ite (.ends _ _) (.ends _ _))
  · exact .ends _ _

theorem execAck_staysOrEnds (h : execAck s = .next t) : StaysOrEnds (ownsMpc .ack) t := by
  unfold execAck at h
  split at h <;> rename_i hmpc <;> cases h
  · exact .stays rfl
  · exact staysOrEnds_ite (.stays rfl) (.stays (hmpc ▸ rfl))
  · exact staysOrEnds_ite (.ends _ _) (.stays rfl)
  · exact .stays rfl
  · exact .stays rfl
  · exact staysOrEnds_ite (.stays rfl) (.stays (hmpc ▸ rfl))
  · exact .ends _ _

theorem execDelay_staysOrEnds {d : DelaySel} (h : execDelay d s = .next t) : StaysOrEnds (ownsMpc (.delay d)) t := by
  unfold execDelay at h
  split at h <;> rename_i hmpc <;> cases h
  · exact .stays rfl
  · exact staysOrEnds_ite (.ends _ _) (.stays (hmpc ▸ rfl))

theorem execMcwait_staysOrEnds (h : execMcwait s = .next t) : StaysOrEnds (ownsMpc .mcwait) t := by
  unfold execMcwait at h
  split at h <;> rename_i hmpc <;> cases h
  · exact .stays rfl
  · exact staysOrEnds_ite (.ends _ _) (.stays (hmpc ▸ rfl))

/-- XFERI, XFERR and the identification bytes, which own the same micro-steps. -/
theorem xferStep_staysOrEnds {v : Byte} (w : Byte) (h : xferStep v s = .next t) : StaysOrEnds (ownsMpc (.xferi w)) t := by
  unfold xferStep at h
  split at h <;> rename_i hmpc <;> cases h
  · exact .stays rfl
  · exact waitStep_stepTo_staysOrEnds hmpc (fun _ => rfl) rfl rfl
  · exact .stays rfl
  · exact .stays rfl
  · exact waitStep_stepTo_staysOrEnds hmpc (fun _ => rfl) rfl rfl
  · refine .stays ?_
    rw [stepTo_mpc]
    split <;> rfl
  · exact .ends _ _
  · exact .ends _ _

/-- TXI and TXR, which own the same micro-steps. -/
theorem txStep_staysOrEnds {v : Byte} (w : Byte) (h : txStep v s = .next t) : StaysOrEnds (ownsMpc (.txi w)) t := by
  unfold txStep at h
  split at h <;> rename_i hmpc <;> cases h
  · exact .stays rfl
  · exact waitStep_stepTo_staysOrEnds hmpc (fun _ => rfl) rfl rfl
  · exact .stays rfl
  · exact waitStep_stepTo_staysOrEnds hmpc (fun _ => rfl) rfl rfl
  · refine .stays ?_
    rw [stepTo_mpc]
    split <;> rfl
  · exact .ends _ _
  · exact .ends _ _

/-- WAITF and WAITR, which own the same micro-steps. -/
theorem waitOp_staysOrEnds {level : Bool} {u : TimeoutSel} (v : TimeoutSel) (h : waitOp level u s = .next t) :
    StaysOrEnds (ownsMpc (.waitf v)) t := by
  unfold waitOp at h
  split at h <;> rename_i hmpc <;> cases h
  exact waitStep_staysOrEnds hmpc (fun _ => rfl) (.ends .ok) (.ends .fail)

theorem atDispatch_staysOrEnds {own : Mpc → Bool} {f : State → State} (h : atDispatch f s = .next t)
    (hf : StaysOrEnds own (f s)) : StaysOrEnds own t := by
  unfold atDispatch at h
  split at h <;> cases h
  exact hf

theorem dispatchOn_staysOrEnds (a : Byte) : StaysOrEnds (ownsMpc .dispatch) (dispatchOn a s) :=
  staysOrEnds_ite (.ends _ _) (staysOrEnds_ite (.ends _ _) (staysOrEnds_ite (.ends _ _) (.ends _ _)))

theorem atCmdchk_staysOrEnds {own : Mpc → Bool} {f : State → State} (h : atCmdchk f s = .next t)
    (hf : StaysOrEnds own (f s)) : StaysOrEnds own t := by
  unfold atCmdchk at h
  split at h <;> cases h
  exact hf

theorem commandOn_staysOrEnds (c : Byte) : StaysOrEnds (ownsMpc .cmdchk) (commandOn c s) :=
  staysOrEnds_ite (.ends _ _) (staysOrEnds_ite (.ends _ _) (.ends _ _))

theorem exec_chr_staysOrEnds (h : exec .chr s = .next t) : StaysOrEnds (ownsMpc .chr) t := by
  rcases execChr_cases h with ⟨-, i, -, rfl⟩ | ⟨-, rfl⟩ | ⟨-, rfl⟩ | ⟨-, rfl⟩ | ⟨-, rfl⟩
  case inr.inr.inr.inr => exact .ends _ _
  all_goals exact .stays rfl

theorem exec_engine_staysOrEnds {i : Instr} (hi : i.agent = .engine) (h : exec i s = .next t) :
    StaysOrEnds (ownsMpc i) t := by
  cases i with
  | idlewait => exact execIdlewait_staysOrEnds h
  | rx => exact execRx_staysOrEnds h
  | ack => exact execAck_staysOrEnds h
  | delay d => exact execDelay_staysOrEnds h
  | mcwait => exact execMcwait_staysOrEnds h
  | chr => exact exec_chr_staysOrEnds h
  | xferi v => exact xferStep_staysOrEnds v h
  | xferr r => exact xferStep_staysOrEnds 0 h
  | idLow => exact xferStep_staysOrEnds 0 h
  | idHigh => exact xferStep_staysOrEnds 0 h
  | txi v => exact txStep_staysOrEnds v h
  | txr r => exact txStep_staysOrEnds 0 h
  | waitf u => exact waitOp_staysOrEnds u h
  | waitr u => exact waitOp_staysOrEnds u h
  | dispatch => exact atDispatch_staysOrEnds h (dispatchOn_staysOrEnds s.addr)
  | addrController | addrMemcard | addrIgnored b | addrInvalid b => exact atDispatch_staysOrEnds h (.ends _ _)
  | cmdchk => exact atCmdchk_staysOrEnds h (commandOn_staysOrEnds s.cmd)
  | cmdPoll | cmdSentinel | cmdOther b => exact atCmdchk_staysOrEnds h (.ends _ _)
  | start | calobs o | stpoll | endTxn | abort | relbus | caltick | addrSentinel =>
    simp only [exec, execStart, execCalobs, execStpoll, execEnd, execAbort, execRelbus, execCaltick,
      execAddrSentinel] at h
    split at h <;> cases h
    exact .ends _ _
  | chw | isr | tread x => cases hi

end Operations

/-! ## One turn as the channel sees it -/

/-- Only CHR's r1 begins a read: another operation stays at labels of its own or begins one at its first. -/
theorem reading_of_staysOrEnds {i : Instr} {t : State} (hchr : i ≠ .chr) (h : StaysOrEnds (ownsMpc i) t) :
    reading t = false := by
  cases h with
  | stays hown => exact Bool.eq_false_iff.mpr fun hread => hchr (eq_chr_of_ownsMpc (ownsMpc_chr_of_reading hread) hown)
  | ends o u => exact reading_done o u

/-- A turn taken in s with end t: CHW's, CHR's, or one that touches neither the channel nor WRITER, in which a read in
progress rests (43_channel.md R240). -/
inductive ChannelTurn (s : State) : Turn → State → Prop
  | chw {s1 s2 : Byte} {t : State} (hexec : exec .chw { s with snap1 := s1, snap2 := s2 } = .next t) :
      ChannelTurn s (.writer s1 s2) t
  | chr {t : State} (hexec : exec .chr s = .next t) : ChannelTurn s .engine t
  | beside {τ : Turn} {t : State} (hquiet : ∀ x y, τ ≠ .writer x y) (hch : t.ch = s.ch) (hwr : t.wr = s.wr)
      (hread : reading t = true → t.mpc = s.mpc ∧ t.ridx = s.ridx ∧ t.b1 = s.b1 ∧ t.b2 = s.b2) : ChannelTurn s τ t

/-- An ENGINE operation other than CHR is beside the channel. -/
theorem channelTurn_of_engine {i : Instr} {s t : State} (hi : i.agent = .engine) (h : exec i s = .next t) :
    ChannelTurn s .engine t := by
  by_cases hchr : i = .chr
  · exact .chr (hchr ▸ h)
  · have hstep := exec_engineStep s hi hchr
    rw [h] at hstep
    have hframe : eraseEngine t = eraseEngine s := hstep.frame
    have hch : (eraseEngine t).ch = (eraseEngine s).ch := congrArg State.ch hframe
    have hwr : (eraseEngine t).wr = (eraseEngine s).wr := congrArg State.wr hframe
    refine .beside nofun hch hwr fun hread => ?_
    rw [reading_of_staysOrEnds hchr (exec_engine_staysOrEnds hi h)] at hread
    cases hread

theorem takeTurn_channelTurn {τ : Turn} {s t : State} (h : takeTurn τ s = .next t) : ChannelTurn s τ t := by
  cases takeTurn_effect h with
  | isr _ => exact .beside nofun rfl rfl fun _ => ⟨rfl, rfl, rfl, rfl⟩
  | engine _ hi hexec => exact channelTurn_of_engine hi hexec
  | writer hexec => exact .chw hexec
  | telemetry w x => exact .beside nofun rfl rfl fun _ => ⟨rfl, rfl, rfl, rfl⟩
  | host p => exact .beside nofun rfl rfl fun _ => ⟨rfl, rfl, rfl, rfl⟩
  | timebase => exact .beside nofun rfl rfl fun _ => ⟨rfl, rfl, rfl, rfl⟩

/-! ## WRITER's registers -/

theorem takeTurn_chw {s t : State} {x y : Byte} (h : takeTurn (.writer x y) s = .next t) :
    exec .chw { s with snap1 := x, snap2 := y } = .next t := by
  cases takeTurn_effect h with
  | writer hexec => exact hexec

theorem exec_chr_wr {s t : State} (h : exec .chr s = .next t) : t.wr = s.wr := by
  rcases execChr_cases h with ⟨-, i, -, rfl⟩ | ⟨-, rfl⟩ | ⟨-, rfl⟩ | ⟨-, rfl⟩ | ⟨-, rfl⟩
  case inr.inr.inr.inr => exact done_wr _ _
  all_goals rfl

/-- Only WRITER writes its registers (10_state.md R53). -/
theorem takeTurn_wr {τ : Turn} {s t : State} (hquiet : ∀ x y, τ ≠ .writer x y) (h : takeTurn τ s = .next t) :
    t.wr = s.wr := by
  cases takeTurn_channelTurn h with
  | chw _ => exact absurd rfl (hquiet _ _)
  | chr hexec => exact exec_chr_wr hexec
  | beside _ _ hwr _ => exact hwr

section WriterValues
variable (latch : Bool) (s1 s2 : Byte) (w : Writer)

/-- w2 writes the values and the accumulator alone (43_channel.md R244). -/
theorem writerValues_frame : writerValues latch s1 s2 w =
    { w with
      wv1 := (writerValues latch s1 s2 w).wv1, wv2 := (writerValues latch s1 s2 w).wv2
      acc1 := (writerValues latch s1 s2 w).acc1, acc2 := (writerValues latch s1 s2 w).acc2 } := by
  unfold writerValues
  split
  · split <;> rfl
  · rfl

@[simp] theorem writerValues_wt : (writerValues latch s1 s2 w).wt = w.wt := by
  rw [writerValues_frame]

@[simp] theorem writerValues_wcons : (writerValues latch s1 s2 w).wcons = w.wcons := by
  rw [writerValues_frame]

end WriterValues

end Sys2Proof.Proofs.ChannelTurns
end

