-- ==== Sys2Proof/Proofs/NoTear.lean ====
section
/-! PROOFS. No torn read (43_channel.md R248 to R250): what every step keeps of the indices outside an overlap, and of the
latest slot with or without one. -/

open Sys2Proof
open Sys2Proof.Machine

namespace Sys2Proof.Proofs.NoTear

open Sys2Proof.Proofs.Ownership
open Sys2Proof.Proofs.Memory
open Sys2Proof.Proofs.ChannelTurns

/-! ## Where CHW and CHR are -/

theorem writing_iff (s : State) : writing s = true ↔ s.wr.pos ≠ .w1 := by
  simp [writing]

/-- Beside a read, the CHW in progress is not accumulating (43_channel.md R250). -/
theorem wcons_of_no_overlap {s : State} (hq : channelOverlap s = false) (hread : reading s = true)
    (hwrite : writing s = true) : s.wr.wcons = true := by
  simpa [channelOverlap, accumulating, hread, hwrite] using hq

/-! ## The no-tear invariant -/

/-- A micro-step that keeps both index cells, begins neither operation, and leaves the slot indices of the two. -/
theorem noTearInv_of_indices {s t : State} (hs : NoTearInv s) (hch : ChannelInv t)
    (hwriteIdx : t.ch.byteAt writeIdxAddr = s.ch.byteAt writeIdxAddr)
    (hreadIdx : t.ch.byteAt readIdxAddr = s.ch.byteAt readIdxAddr)
    (hwrite : writing t = true → writing s = true ∧ t.wr.wt = s.wr.wt ∧ t.wr.wcons = s.wr.wcons)
    (hread : reading t = true → reading s = true ∧ t.ridx = s.ridx) : NoTearInv t where
  channel := hch
  target hw hc := by
    obtain ⟨hws, hwt, hcons⟩ := hwrite hw
    rw [hwt, hwriteIdx]
    exact hs.target hws (hcons ▸ hc)
  consumed hw hc := by
    obtain ⟨hws, -, hcons⟩ := hwrite hw
    rw [hreadIdx, hwriteIdx]
    exact hs.consumed hws (hcons ▸ hc)
  apart hr hw hc := by
    obtain ⟨hws, hwt, hcons⟩ := hwrite hw
    obtain ⟨hrs, hridx⟩ := hread hr
    rw [hridx, hwt]
    exact hs.apart hrs hws (hcons ▸ hc)
  read hr := by
    obtain ⟨hrs, hridx⟩ := hread hr
    rw [hridx, hreadIdx, hwriteIdx]
    exact hs.read hrs

/-- The same where the channel and WRITER are left alone. -/
theorem noTearInv_of_beside {s t : State} (hs : NoTearInv s) (hch : t.ch = s.ch) (hwr : t.wr = s.wr)
    (hread : reading t = true → reading s = true ∧ t.ridx = s.ridx) : NoTearInv t := by
  refine noTearInv_of_indices hs (channelInv_of_ch_eq hs.channel hch) (by rw [hch]) (by rw [hch]) (fun hw => ?_) hread
  rw [hwr]
  exact ⟨by simpa only [writing, hwr] using hw, rfl, rfl⟩

/-- w1's target, `1 - read_idx`, is the other slot exactly where the indices agree. -/
theorem otherSlot_ne_iff (r w : Idx) : 1 - r ≠ w ↔ r = w := by
  revert r w
  decide

/-- w1 takes the slot other than the one last read, so where the two indices agree it is neither the latest slot nor the
one that a CHR reads. -/
theorem noTearInv_w1 {s : State} (hs : NoTearInv s) {r w : Idx} (hr : s.ch.byteAt readIdxAddr = idxByte r)
    (hw : s.ch.byteAt writeIdxAddr = idxByte w) :
    NoTearInv { s with wr := { s.wr with pos := .w2, wt := 1 - r, wcons := r == w } } where
  channel := channelInv_of_ch_eq hs.channel rfl
  target _ hc := by
    have heq : r = w := beq_iff_eq.mp hc
    rw [hw, Ne, idxByte_inj]
    exact (otherSlot_ne_iff r w).mpr heq
  consumed _ hc := by
    have heq : r = w := beq_iff_eq.mp hc
    rw [hr, hw, heq]
  apart hread _ hc := by
    have heq : r = w := beq_iff_eq.mp hc
    have hridx : s.ridx = r := by
      have hnamed := hs.read hread
      rw [hr, hw, idxByte_inj, idxByte_inj, ← heq, or_self] at hnamed
      exact hnamed
    exact hridx.trans_ne ((otherSlot_ne_iff r r).mpr rfl).symm
  read := hs.read

/-- w6 moves `write_idx`. A read beside it reads the slot of `read_idx`, since the CHW found that one consumed. -/
theorem noTearInv_w6 {s : State} (hs : NoTearInv s) (hq : channelOverlap s = false) (hpos : s.wr.pos = .w6) :
    NoTearInv { s with
      ch := s.ch.setByte writeIdxAddr (idxByte s.wr.wt), wr := { s.wr with pos := .w1 } } where
  channel := channelInv_of_index_store hs.channel (by decide) rfl
  target := nofun
  consumed := nofun
  apart _ := nofun
  read hread := by
    have hwrite : writing s = true := (writing_iff s).mpr (by simp [hpos])
    have hconsumed := hs.consumed hwrite (wcons_of_no_overlap hq hread hwrite)
    rw [byteAt_readIdx_setByte hs.channel.canonical (by decide)]
    exact .inr ((hs.read hread).elim (fun h => h.trans hconsumed.symm) id)

/-- r1 reads the latest slot, which the CHW in progress does not target. -/
theorem noTearInv_r1 {s : State} (hs : NoTearInv s) {i : Idx} (hi : s.ch.byteAt writeIdxAddr = idxByte i) :
    NoTearInv (stepTo .r2 { s with ridx := i }) where
  channel := channelInv_of_ch_eq hs.channel rfl
  target := hs.target
  consumed := hs.consumed
  apart _ hw hc := by
    have htarget := hs.target hw hc
    rw [hi, Ne, idxByte_inj] at htarget
    exact Ne.symm htarget
  read _ := .inl hi.symm

/-- r5 puts into `read_idx` the slot read, which the two indices name already where the CHW in progress found them
equal. -/
theorem noTearInv_r5 {s t : State} (hs : NoTearInv s) (hread : reading s = true)
    (hch : t.ch = s.ch.setByte readIdxAddr (idxByte s.ridx)) (hwr : t.wr = s.wr) (hended : reading t = false) :
    NoTearInv t := by
  have hwriteIdx : t.ch.byteAt writeIdxAddr = s.ch.byteAt writeIdxAddr := by
    rw [hch, Memory.byteAt_put hs.channel.canonical, if_neg (by decide)]
  have hreadIdx : t.ch.byteAt readIdxAddr = idxByte s.ridx := by
    rw [hch, Memory.byteAt_put hs.channel.canonical, if_pos rfl]
  have hwrite : writing t = writing s := by rw [writing, writing, hwr]
  refine ⟨channelInv_of_index_store hs.channel (by decide) hch, fun hw hc => ?target, fun hw hc => ?consumed,
    fun h => absurd h (by simp [hended]), fun h => absurd h (by simp [hended])⟩
  all_goals
    rw [hwrite] at hw
    rw [hwr] at hc
    rw [hwriteIdx]
  case target =>
    rw [hwr]
    exact hs.target hw hc
  case consumed =>
    rw [hreadIdx]
    exact (hs.read hread).elim id fun h => h.trans (hs.consumed hw hc)

/-- w3 and w4 store beside the index cells. -/
theorem byteAt_index_of_slot_store {s : State} (hs : ChannelInv s) (i : Idx) {f : Nat} (hf : f < 2) (v : Byte) :
    (s.ch.setByte (slotAddr i f) v).byteAt writeIdxAddr = s.ch.byteAt writeIdxAddr ∧
      (s.ch.setByte (slotAddr i f) v).byteAt readIdxAddr = s.ch.byteAt readIdxAddr := by
  obtain ⟨hwrite, hread⟩ := slotAddr_ne_index i hf
  exact ⟨by rw [Memory.byteAt_put hs.canonical, if_neg hwrite.symm], byteAt_readIdx_setByte hs.canonical hread v⟩

/-- w3 and w4 store to the target slot. -/
theorem noTearInv_slot_store {s : State} (hs : NoTearInv s) (hwrite : writing s = true) {f : Nat} (hf : f < 2)
    (v : Byte) (pos : WriterPos) :
    NoTearInv { s with ch := s.ch.setByte (slotAddr s.wr.wt f) v, wr := { s.wr with pos := pos } } := by
  obtain ⟨hwriteIdx, hreadIdx⟩ := byteAt_index_of_slot_store hs.channel s.wr.wt hf v
  exact noTearInv_of_indices hs (channelInv_of_slot_store hs.channel hf rfl) hwriteIdx hreadIdx
    (fun _ => ⟨hwrite, rfl, rfl⟩) fun hr => ⟨hr, rfl⟩

theorem exec_chw_noTearInv {s t : State} (hs : NoTearInv s) (hq : channelOverlap s = false)
    (h : exec .chw s = .next t) : NoTearInv t := by
  have hch : ChannelInv t := exec_chw_channelInv hs.channel h
  rcases execChw_cases h with ⟨-, r, w, hr, hw, rfl⟩ | ⟨hpos, rfl⟩ | ⟨hpos, rfl⟩ | ⟨hpos, rfl⟩ | ⟨hpos, rfl⟩ |
    ⟨hpos, rfl⟩
  case inl => exact noTearInv_w1 hs hr hw
  case inr.inr.inr.inr.inr => exact noTearInv_w6 hs hq hpos
  all_goals have hwrite : writing s = true := (writing_iff s).mpr (by simp [hpos])
  · exact noTearInv_of_indices hs hch rfl rfl
      (fun _ => ⟨hwrite, writerValues_wt _ _ _ _, writerValues_wcons _ _ _ _⟩) fun hr => ⟨hr, rfl⟩
  · exact noTearInv_slot_store hs hwrite (by decide) _ _
  · exact noTearInv_slot_store hs hwrite (by decide) _ _
  · exact noTearInv_of_indices hs hch rfl rfl (fun _ => ⟨hwrite, rfl, rfl⟩) fun hr => ⟨hr, rfl⟩

theorem reading_of_mpc {s : State} (h : s.mpc = .r2 ∨ s.mpc = .r3 ∨ s.mpc = .r4 ∨ s.mpc = .r5) : reading s = true := by
  rcases h with h | h | h | h <;> simp [reading, h]

theorem exec_chr_noTearInv {s t : State} (hs : NoTearInv s) (h : exec .chr s = .next t) : NoTearInv t := by
  rcases execChr_cases h with ⟨-, i, hi, rfl⟩ | ⟨hmpc, rfl⟩ | ⟨hmpc, rfl⟩ | ⟨hmpc, rfl⟩ | ⟨hmpc, rfl⟩
  case inl => exact noTearInv_r1 hs hi
  all_goals have hread : reading s = true := reading_of_mpc (by simp [hmpc])
  case inr.inr.inr.inr => exact noTearInv_r5 hs hread (done_ch _ _) (done_wr _ _) (reading_done _ _)
  all_goals exact noTearInv_of_beside hs rfl rfl fun _ => ⟨hread, rfl⟩

theorem takeTurn_noTearInv {τ : Turn} {s t : State} (hs : NoTearInv s) (hq : channelOverlap s = false)
    (h : takeTurn τ s = .next t) : NoTearInv t := by
  cases takeTurn_channelTurn h with
  | @chw s1 s2 _ hexec =>
    have hs' : NoTearInv { s with snap1 := s1, snap2 := s2 } := noTearInv_of_beside hs rfl rfl fun hr => ⟨hr, rfl⟩
    exact exec_chw_noTearInv hs' hq hexec
  | chr hexec => exact exec_chr_noTearInv hs hexec
  | beside _ hch hwr hread =>
    refine noTearInv_of_beside hs hch hwr fun hr => ?_
    obtain ⟨hmpc, hridx, -⟩ := hread hr
    exact ⟨by simpa only [reading, hmpc] using hr, hridx⟩

theorem channelOverlap_popTurn (s : State) : channelOverlap (popTurn s) = channelOverlap s := by
  simp [channelOverlap, accumulating, writing, reading]

/-- Settles O46: the turn taken off the agenda changes nothing the invariant reads, and each kind of turn keeps it. -/
theorem stepKeepsNoTearInv : Obligations.StepKeepsNoTearInv := by
  unfold Obligations.StepKeepsNoTearInv
  intro s t hs hq h
  have hpop : NoTearInv (popTurn s) := by
    refine noTearInv_of_beside hs (popTurn_ch s) (popTurn_wr s) fun hr => ⟨?_, popTurn_ridx s⟩
    simpa [reading] using hr
  exact takeTurn_noTearInv hpop ((channelOverlap_popTurn s).trans hq) h

end Sys2Proof.Proofs.NoTear
end

