-- ==== Sys2Proof/Proofs/Published.lean ====
section
/-! PROOFS. The pair last published (43_channel.md R248 to R250): every step keeps it in the latest slot, but for what an
accumulating CHW rewrites, and in a run under precondition Q a whole CHR loads it. -/

open Sys2Proof
open Sys2Proof.Machine

namespace Sys2Proof.Proofs.Published

open Sys2Proof.Proofs.Ownership
open Sys2Proof.Proofs.Memory
open Sys2Proof.Proofs.ChannelTurns
open Sys2Proof.Proofs.NoTear

/-! ## What a CHW in progress has stored -/

/-- The target slot holds the values of the fields that the CHW in progress has stored (43_channel.md R244). -/
structure FieldsStored (s : State) : Prop where
  first : storedFirst s = true → s.ch.byteAt (slotAddr s.wr.wt 0) = s.wr.wv1
  second : storedBoth s = true → s.ch.byteAt (slotAddr s.wr.wt 1) = s.wr.wv2

/-- A turn that leaves WRITER's registers and all cells but `read_idx`. -/
theorem fieldsStored_of_cells {s t : State} (hs : FieldsStored s)
    (hcells : ∀ a, a ≠ readIdxAddr → t.ch.byteAt a = s.ch.byteAt a) (hwr : t.wr = s.wr) : FieldsStored t where
  first h := by
    rw [hcells _ (slotAddr_ne_index _ (by decide)).2, hwr]
    exact hs.first (by simpa only [storedFirst, hwr] using h)
  second h := by
    rw [hcells _ (slotAddr_ne_index _ (by decide)).2, hwr]
    exact hs.second (by simpa only [storedBoth, hwr] using h)

theorem exec_chw_fieldsStored {s t : State} (hch : ChannelInv s) (hs : FieldsStored s) (h : exec .chw s = .next t) :
    FieldsStored t := by
  rcases execChw_cases h with ⟨-, r, w, -, -, rfl⟩ | ⟨-, rfl⟩ | ⟨-, rfl⟩ | ⟨hpos, rfl⟩ | ⟨hpos, rfl⟩ | ⟨-, rfl⟩
  · exact ⟨nofun, nofun⟩
  · exact ⟨nofun, nofun⟩
  · refine ⟨fun _ => ?_, nofun⟩
    rw [Memory.byteAt_put hch.canonical, if_pos rfl]
  · refine ⟨fun _ => ?_, fun _ => ?_⟩
    · rw [Memory.byteAt_put hch.canonical, if_neg (slotAddr_fields_ne _ _)]
      exact hs.first (by simp [storedFirst, hpos])
    · rw [Memory.byteAt_put hch.canonical, if_pos rfl]
  · exact ⟨fun _ => hs.first (by simp [storedFirst, hpos]), fun _ => hs.second (by simp [storedBoth, hpos])⟩
  · exact ⟨nofun, nofun⟩

theorem takeTurn_fieldsStored {τ : Turn} {s t : State} (hch : ChannelInv s) (hs : FieldsStored s)
    (h : takeTurn τ s = .next t) : FieldsStored t := by
  by_cases hwriter : ∃ x y, τ = .writer x y
  · obtain ⟨x, y, rfl⟩ := hwriter
    have hch' : ChannelInv { s with snap1 := x, snap2 := y } := channelInv_of_ch_eq hch rfl
    have hs' : FieldsStored { s with snap1 := x, snap2 := y } := fieldsStored_of_cells hs (fun _ _ => rfl) rfl
    exact exec_chw_fieldsStored hch' hs' (takeTurn_chw h)
  · have hquiet : ∀ x y, τ ≠ .writer x y := by simpa using hwriter
    exact fieldsStored_of_cells hs (fun _ ha => takeTurn_cells hch.canonical hquiet h ha) (takeTurn_wr hquiet h)

/-! ## The latest slot -/

theorem fieldsStored_of_published {p : Byte × Byte} {s : State} (h : PublishedInv p s) : FieldsStored s :=
  ⟨h.stored1, h.stored2⟩

/-- The target of a CHW that is not accumulating is not the latest slot. -/
theorem latest_ne_target {p : Byte × Byte} {s : State} (h : PublishedInv p s) (hwrite : writing s = true)
    (hcons : s.wr.wcons = true) {i : Idx} (hi : s.ch.byteAt writeIdxAddr = idxByte i) : i ≠ s.wr.wt := by
  have htarget := (h.target hwrite).mp hcons
  rw [hi, Ne, idxByte_inj] at htarget
  exact Ne.symm htarget

/-- So its stores leave the latest slot. -/
theorem byteAt_latest_of_target_store {p : Byte × Byte} {s : State} (h : PublishedInv p s) (hwrite : writing s = true)
    (hcons : s.wr.wcons = true) {i : Idx} (hi : s.ch.byteAt writeIdxAddr = idxByte i) (f : Nat) (v : Byte) :
    (s.ch.setByte (slotAddr s.wr.wt f) v).byteAt (slotAddr i f) = s.ch.byteAt (slotAddr i f) := by
  rw [Memory.byteAt_put h.channel.canonical, if_neg (mt slotAddr_inj.mp (latest_ne_target h hwrite hcons hi))]

/-- A turn that leaves WRITER's registers and all cells but `read_idx`. -/
theorem publishedInv_of_cells {p : Byte × Byte} {s t : State} (hs : PublishedInv p s) (hch : ChannelInv t)
    (hcells : ∀ a, a ≠ readIdxAddr → t.ch.byteAt a = s.ch.byteAt a) (hwr : t.wr = s.wr) : PublishedInv p t := by
  obtain ⟨hfirst, hsecond⟩ := fieldsStored_of_cells (fieldsStored_of_published hs) hcells hwr
  have hindex : t.ch.byteAt writeIdxAddr = s.ch.byteAt writeIdxAddr := hcells _ (by decide)
  refine ⟨hch, fun h => ?_, hfirst, hsecond, fun h i hi => ?_, fun h i hi => ?_⟩
  · rw [hindex, hwr]
    exact hs.target (by simpa only [writing, hwr] using h)
  · rw [hcells _ (slotAddr_ne_index _ (by decide)).2]
    exact hs.latest1 (by simpa only [accumulating, writing, storedFirst, hwr] using h) i (hindex ▸ hi)
  · rw [hcells _ (slotAddr_ne_index _ (by decide)).2]
    exact hs.latest2 (by simpa only [accumulating, writing, storedBoth, hwr] using h) i (hindex ▸ hi)

/-! ## The pair last published -/

theorem publishes_iff (τ : Turn) (s : State) :
    publishes τ s = true ↔ (∃ x y, τ = .writer x y) ∧ s.wr.pos = .w6 := by
  cases τ <;> simp [publishes]

theorem publishedAfter_of_publishes {τ : Turn} {s : State} (h : publishes τ s = true) (p : Byte × Byte) :
    publishedAfter τ s p = (s.wr.wv1, s.wr.wv2) := if_pos h

theorem publishedAfter_of_not_publishes {τ : Turn} {s : State} (h : publishes τ s = false) (p : Byte × Byte) :
    publishedAfter τ s p = p := by simp [publishedAfter, h]

theorem publishes_of_quiet {τ : Turn} (hquiet : ∀ x y, τ ≠ .writer x y) (s : State) : publishes τ s = false := by
  rw [Bool.eq_false_iff, Ne, publishes_iff]
  rintro ⟨⟨x, y, rfl⟩, -⟩
  exact hquiet x y rfl

/-- w6 publishes: the slot that it names holds the values of the CHW. -/
theorem publishedInv_w6 {s : State} (hch : ChannelInv s) (hs : FieldsStored s) (hpos : s.wr.pos = .w6) :
    PublishedInv (s.wr.wv1, s.wr.wv2)
      { s with ch := s.ch.setByte writeIdxAddr (idxByte s.wr.wt), wr := { s.wr with pos := .w1 } } := by
  have hslot : ∀ (i : Idx) {f : Nat}, f < 2 →
      (s.ch.setByte writeIdxAddr (idxByte s.wr.wt)).byteAt writeIdxAddr = idxByte i →
      (s.ch.setByte writeIdxAddr (idxByte s.wr.wt)).byteAt (slotAddr i f) = s.ch.byteAt (slotAddr s.wr.wt f) := by
    intro i f hf hi
    rw [Memory.byteAt_put hch.canonical, if_pos rfl, idxByte_inj] at hi
    rw [Memory.byteAt_put hch.canonical, if_neg (slotAddr_ne_index i hf).1, hi]
  refine ⟨channelInv_of_index_store hch (by decide) rfl, nofun, nofun, nofun, fun _ i hi => ?_, fun _ i hi => ?_⟩
  · exact (hslot i (by decide) hi).trans (hs.first (by simp [storedFirst, hpos]))
  · exact (hslot i (by decide) hi).trans (hs.second (by simp [storedBoth, hpos]))

/-- w3 leaves the latest slot where the CHW is not accumulating, and its second field in any case. -/
theorem publishedInv_w3 {p : Byte × Byte} {s : State} (hs : PublishedInv p s) (hpos : s.wr.pos = .w3) :
    PublishedInv p
      { s with ch := s.ch.setByte (slotAddr s.wr.wt 0) s.wr.wv1, wr := { s.wr with pos := .w4 } } := by
  have hwrite : writing s = true := (writing_iff s).mpr (by simp [hpos])
  have hwf := hs.channel.canonical
  obtain ⟨hindex, -⟩ := byteAt_index_of_slot_store hs.channel s.wr.wt (show 0 < 2 by decide) s.wr.wv1
  refine ⟨channelInv_of_slot_store hs.channel (by decide) rfl, fun _ => ?target, fun _ => ?stored, nofun,
    fun hacc i hi => ?first, fun _ i hi => ?second⟩
  case target =>
    rw [hindex]
    exact hs.target hwrite
  case stored => rw [Memory.byteAt_put hwf, if_pos rfl]
  case first =>
    have hcons : s.wr.wcons = true := by simpa [accumulating, writing, storedFirst] using hacc
    rw [byteAt_latest_of_target_store hs hwrite hcons (hindex ▸ hi)]
    exact hs.latest1 (by simp [storedFirst, hpos]) i (hindex ▸ hi)
  case second =>
    rw [Memory.byteAt_put hwf, if_neg (slotAddr_fields_ne _ _).symm]
    exact hs.latest2 (by simp [storedBoth, hpos]) i (hindex ▸ hi)

/-- w4 leaves the latest slot where the CHW is not accumulating, and its first field in any case. -/
theorem publishedInv_w4 {p : Byte × Byte} {s : State} (hs : PublishedInv p s) (hpos : s.wr.pos = .w4) :
    PublishedInv p
      { s with ch := s.ch.setByte (slotAddr s.wr.wt 1) s.wr.wv2, wr := { s.wr with pos := .w5 } } := by
  have hwrite : writing s = true := (writing_iff s).mpr (by simp [hpos])
  have hwf := hs.channel.canonical
  obtain ⟨hindex, -⟩ := byteAt_index_of_slot_store hs.channel s.wr.wt (show 1 < 2 by decide) s.wr.wv2
  refine ⟨channelInv_of_slot_store hs.channel (by decide) rfl, fun _ => ?target, fun _ => ?stored1, fun _ => ?stored2,
    fun hacc i hi => ?first, fun hacc i hi => ?second⟩
  case target =>
    rw [hindex]
    exact hs.target hwrite
  case stored1 =>
    rw [Memory.byteAt_put hwf, if_neg (slotAddr_fields_ne _ _)]
    exact hs.stored1 (by simp [storedFirst, hpos])
  case stored2 => rw [Memory.byteAt_put hwf, if_pos rfl]
  case first =>
    rw [Memory.byteAt_put hwf, if_neg (slotAddr_fields_ne _ _)]
    exact hs.latest1 (by simpa [accumulating, writing, storedFirst, hpos] using hacc) i (hindex ▸ hi)
  case second =>
    have hcons : s.wr.wcons = true := by simpa [accumulating, writing, storedBoth] using hacc
    rw [byteAt_latest_of_target_store hs hwrite hcons (hindex ▸ hi)]
    exact hs.latest2 (by simp [storedBoth, hpos]) i (hindex ▸ hi)

/-- A CHW publishes at its w6. Before it, the pair last published stays in the latest slot, but for the fields that an
accumulating CHW rewrites there (43_channel.md R249). -/
theorem exec_chw_publishedInv {p : Byte × Byte} {s t : State} (hs : PublishedInv p s) (h : exec .chw s = .next t) :
    PublishedInv (if s.wr.pos = .w6 then (s.wr.wv1, s.wr.wv2) else p) t := by
  rcases execChw_cases h with ⟨hpos, r, w, -, hw, rfl⟩ | ⟨hpos, rfl⟩ | ⟨hpos, rfl⟩ | ⟨hpos, rfl⟩ | ⟨hpos, rfl⟩ |
    ⟨hpos, rfl⟩
  case inr.inr.inr.inr.inr =>
    rw [if_pos hpos]
    exact publishedInv_w6 hs.channel (fieldsStored_of_published hs) hpos
  all_goals rw [if_neg (by simp [hpos])]
  · refine ⟨channelInv_of_ch_eq hs.channel rfl, fun _ => ?_, nofun, nofun, fun _ => hs.latest1 ?_,
      fun _ => hs.latest2 ?_⟩
    · rw [hw, Ne, idxByte_inj, beq_iff_eq]
      exact (otherSlot_ne_iff r w).symm
    · simp [storedFirst, hpos]
    · simp [storedBoth, hpos]
  · refine ⟨channelInv_of_ch_eq hs.channel rfl, fun _ => ?_, nofun, nofun, fun _ => hs.latest1 ?_,
      fun _ => hs.latest2 ?_⟩
    · simpa using hs.target ((writing_iff s).mpr (by simp [hpos]))
    · simp [storedFirst, hpos]
    · simp [storedBoth, hpos]
  · exact publishedInv_w3 hs hpos
  · exact publishedInv_w4 hs hpos
  · refine ⟨channelInv_of_ch_eq hs.channel rfl, fun _ => hs.target ((writing_iff s).mpr (by simp [hpos])),
      fun _ => hs.stored1 ?_, fun _ => hs.stored2 ?_, fun hacc => hs.latest1 ?_, fun hacc => hs.latest2 ?_⟩
    · simp [storedFirst, hpos]
    · simp [storedBoth, hpos]
    · simpa [accumulating, writing, storedFirst, hpos] using hacc
    · simpa [accumulating, writing, storedBoth, hpos] using hacc

theorem publishedAfter_writer (s1 s2 : Byte) (s : State) (p : Byte × Byte) :
    publishedAfter (.writer s1 s2) s p = if s.wr.pos = .w6 then (s.wr.wv1, s.wr.wv2) else p := by
  simp [publishedAfter, publishes]

theorem takeTurn_publishedInv {p : Byte × Byte} {τ : Turn} {s t : State} (hs : PublishedInv p s)
    (h : takeTurn τ s = .next t) : PublishedInv (publishedAfter τ s p) t := by
  by_cases hwriter : ∃ x y, τ = .writer x y
  · obtain ⟨s1, s2, rfl⟩ := hwriter
    have hs' : PublishedInv p { s with snap1 := s1, snap2 := s2 } :=
      publishedInv_of_cells hs (channelInv_of_ch_eq hs.channel rfl) (fun _ _ => rfl) rfl
    have hnext := exec_chw_publishedInv hs' (takeTurn_chw h)
    rw [publishedAfter_writer]
    exact hnext
  · have hquiet : ∀ x y, τ ≠ .writer x y := by simpa using hwriter
    rw [publishedAfter_of_not_publishes (publishes_of_quiet hquiet s)]
    exact publishedInv_of_cells hs (takeTurn_channelInv hs.channel h)
      (fun _ ha => takeTurn_cells hs.channel.canonical hquiet h ha) (takeTurn_wr hquiet h)

theorem publishedAfter_popTurn (τ : Turn) (s : State) (p : Byte × Byte) :
    publishedAfter τ (popTurn s) p = publishedAfter τ s p := by
  simp [publishedAfter, publishes]

theorem step_publishedInv {p : Byte × Byte} {s t : State} (hs : PublishedInv p s) (h : step s = .next t) :
    PublishedInv (publishedAfter (nextTurn s) s p) t := by
  have hpop : PublishedInv p (popTurn s) :=
    publishedInv_of_cells hs (channelInv_of_ch_eq hs.channel (popTurn_ch s)) (fun _ _ => by rw [popTurn_ch])
      (popTurn_wr s)
  rw [← publishedAfter_popTurn]
  exact takeTurn_publishedInv hpop h

/-! ## The pair last published in a run -/

/-- The pair last published before position n of a run that began with p (43_channel.md R248). -/
def lastPublished (σ : Nat → State) (τ : Nat → Turn) (p : Byte × Byte) : Nat → Byte × Byte
  | 0 => p
  | n + 1 => publishedAfter (τ n) (σ n) (lastPublished σ τ p n)

theorem run_publishedInv {σ : Nat → State} {τ : Nat → Turn} {p : Byte × Byte} (hrun : isRun σ τ)
    (h0 : PublishedInv p (σ 0)) (n : Nat) : PublishedInv (lastPublished σ τ p n) (σ n) := by
  induction n with
  | zero => exact h0
  | succ n ih => exact takeTurn_publishedInv ih (hrun n)

/-- It is the pair of the last CHW to complete before, or p where none did. -/
theorem lastPublished_cases (σ : Nat → State) (τ : Nat → Turn) (p : Byte × Byte) (n : Nat) :
    (∃ k, k < n ∧ publishes (τ k) (σ k) = true ∧ (∀ j, k < j → j < n → publishes (τ j) (σ j) = false) ∧
      lastPublished σ τ p n = ((σ k).wr.wv1, (σ k).wr.wv2)) ∨
    ((∀ j, j < n → publishes (τ j) (σ j) = false) ∧ lastPublished σ τ p n = p) := by
  induction n with
  | zero => exact .inr ⟨nofun, rfl⟩
  | succ n ih =>
    cases hpub : publishes (τ n) (σ n) with
    | true =>
      have hnone : ∀ j, n < j → j < n + 1 → publishes (τ j) (σ j) = false := by omega
      exact .inl ⟨n, n.lt_succ_self, hpub, hnone, publishedAfter_of_publishes hpub _⟩
    | false =>
      have hkept : lastPublished σ τ p (n + 1) = lastPublished σ τ p n := publishedAfter_of_not_publishes hpub _
      rw [hkept]
      have hlast : ∀ j, j < n + 1 → (j < n → publishes (τ j) (σ j) = false) → publishes (τ j) (σ j) = false :=
        fun j hj hbefore => (Nat.lt_succ_iff_lt_or_eq.mp hj).elim hbefore fun heq => heq ▸ hpub
      rcases ih with ⟨k, hk, hpubk, hnone, hpair⟩ | ⟨hnone, hpair⟩
      · exact .inl ⟨k, by omega, hpubk, fun j hj hjn => hlast j hjn (hnone j hj), hpair⟩
      · exact .inr ⟨fun j hj => hlast j hj (hnone j), hpair⟩

/-! ## A read under precondition Q -/

theorem run_noTearInv {σ : Nat → State} {τ : Nat → Turn} (hrun : isRun σ τ) (hq : preconditionQ σ)
    (h0 : NoTearInv (σ 0)) (n : Nat) : NoTearInv (σ n) := by
  induction n with
  | zero => exact h0
  | succ n ih => exact takeTurn_noTearInv ih (hq n) (hrun n)

/-- A CHR in progress reads slot i, which holds p, and what it has loaded so far is p's. -/
structure ReadsPair (i : Idx) (p : Byte × Byte) (s : State) : Prop where
  index : s.ridx = i
  slot1 : s.ch.byteAt (slotAddr i 0) = p.1
  slot2 : s.ch.byteAt (slotAddr i 1) = p.2
  first : s.mpc = .r4 ∨ s.mpc = .r5 → s.b1 = p.1
  second : s.mpc = .r5 → s.b2 = p.2

theorem slotAddr_ne_of_slot_ne {i j : Idx} (hij : i ≠ j) {f g : Nat} (hf : f < 2) (hg : g < 2) :
    slotAddr i f ≠ slotAddr j g := by
  have hne : i.toNat ≠ j.toNat := mt BitVec.eq_of_toNat_eq hij
  unfold slotAddr
  omega

/-- CHW stores to no slot but its target. -/
theorem exec_chw_other_slot {s t : State} (hwf : s.ch.wf = true) (h : exec .chw s = .next t) {i : Idx}
    (hi : writing s = true → i ≠ s.wr.wt) {f : Nat} (hf : f < 2) :
    t.ch.byteAt (slotAddr i f) = s.ch.byteAt (slotAddr i f) := by
  rcases execChw_cases h with ⟨-, r, w, -, -, rfl⟩ | ⟨-, rfl⟩ | ⟨hpos, rfl⟩ | ⟨hpos, rfl⟩ | ⟨-, rfl⟩ | ⟨-, rfl⟩
  case inr.inr.inr.inr.inr => rw [Memory.byteAt_put hwf, if_neg (slotAddr_ne_index i hf).1]
  case inr.inr.inl | inr.inr.inr.inl =>
    have hne : i ≠ s.wr.wt := hi ((writing_iff s).mpr (by simp [hpos]))
    rw [Memory.byteAt_put hwf, if_neg (slotAddr_ne_of_slot_ne hne hf (by decide))]
  all_goals rfl

/-- A turn that leaves the slot read and keeps what the CHR in progress has. -/
theorem readsPair_of_slot {i : Idx} {p : Byte × Byte} {s t : State} (hs : ReadsPair i p s)
    (hslot : ∀ f, f < 2 → t.ch.byteAt (slotAddr i f) = s.ch.byteAt (slotAddr i f))
    (hkept : t.mpc = s.mpc ∧ t.ridx = s.ridx ∧ t.b1 = s.b1 ∧ t.b2 = s.b2) : ReadsPair i p t := by
  obtain ⟨hmpc, hridx, hb1, hb2⟩ := hkept
  refine ⟨hridx.trans hs.index, (hslot 0 (by decide)).trans hs.slot1, (hslot 1 (by decide)).trans hs.slot2,
    fun h => ?_, fun h => ?_⟩
  · exact hb1.trans (hs.first (hmpc ▸ h))
  · exact hb2.trans (hs.second (hmpc ▸ h))

/-- A micro-step of CHR inside its read loads from the slot it reads (43_channel.md R245). -/
theorem exec_chr_readsPair {i : Idx} {p : Byte × Byte} {s t : State} (hs : ReadsPair i p s) (hread : reading s = true)
    (hread' : reading t = true) (h : exec .chr s = .next t) : ReadsPair i p t := by
  obtain ⟨rfl, hslot1, hslot2, hfirst, -⟩ := hs
  rcases execChr_cases h with ⟨hmpc, -⟩ | ⟨-, rfl⟩ | ⟨-, rfl⟩ | ⟨hmpc, rfl⟩ | ⟨-, rfl⟩
  · simp [reading, hmpc] at hread
  · exact ⟨rfl, hslot1, hslot2, nofun, nofun⟩
  · exact ⟨rfl, hslot1, hslot2, fun _ => hslot1, nofun⟩
  · exact ⟨rfl, hslot1, hslot2, fun _ => hfirst (.inl hmpc), fun _ => hslot2⟩
  · simp [reading_done] at hread'

/-- CHW leaves ENGINE's registers (10_state.md R53), so a read beside it keeps what it has where the target is another
slot. -/
theorem exec_chw_readsPair {i : Idx} {p : Byte × Byte} {s t : State} (hs : ReadsPair i p s) (hwf : s.ch.wf = true)
    (hne : writing s = true → i ≠ s.wr.wt) (h : exec .chw s = .next t) : ReadsPair i p t := by
  refine readsPair_of_slot hs (fun f hf => exec_chw_other_slot hwf h hne hf) ?_
  rw [exec_chw_frame h]
  exact ⟨rfl, rfl, rfl, rfl⟩

/-- Under Q the CHW beside a read is not accumulating, so its target is another slot than the one read. -/
theorem takeTurn_readsPair {i : Idx} {p : Byte × Byte} {τ : Turn} {s t : State} (hn : NoTearInv s)
    (hq : channelOverlap s = false) (hs : ReadsPair i p s) (hread : reading s = true) (hread' : reading t = true)
    (h : takeTurn τ s = .next t) : ReadsPair i p t := by
  cases takeTurn_channelTurn h with
  | @chw s1 s2 _ hexec =>
    have hne : writing s = true → i ≠ s.wr.wt := fun hwrite =>
      hs.index ▸ hn.apart hread hwrite (wcons_of_no_overlap hq hread hwrite)
    have hs' : ReadsPair i p { s with snap1 := s1, snap2 := s2 } :=
      readsPair_of_slot hs (fun _ _ => rfl) ⟨rfl, rfl, rfl, rfl⟩
    exact exec_chw_readsPair hs' hn.channel.canonical hne hexec
  | chr hexec => exact exec_chr_readsPair hs hread hread' hexec
  | beside _ hch _ hkept => exact readsPair_of_slot hs (fun f _ => by rw [hch]) (hkept hread')

theorem run_readsPair {σ : Nat → State} {τ : Nat → Turn} (hrun : isRun σ τ) (hq : preconditionQ σ)
    (h0 : NoTearInv (σ 0)) {i : Idx} {p : Byte × Byte} {n m : Nat} (hn : ReadsPair i p (σ n)) (hnm : n ≤ m)
    (hread : ∀ k, n ≤ k → k ≤ m → reading (σ k) = true) : ReadsPair i p (σ m) := by
  induction m, hnm using Nat.le_induction with
  | base => exact hn
  | succ m hm ih =>
    exact takeTurn_readsPair (run_noTearInv hrun hq h0 m) (hq m) (ih fun k hk hkm => hread k hk (by omega))
      (hread m hm (by omega)) (hread (m + 1) (by omega) le_rfl) (hrun m)

/-- At its r2 a CHR has loaded nothing. -/
theorem readsPair_of_r2 {s : State} (hmpc : s.mpc = .r2) :
    ReadsPair s.ridx (s.ch.byteAt (slotAddr s.ridx 0), s.ch.byteAt (slotAddr s.ridx 1)) s :=
  ⟨rfl, rfl, rfl, by simp [hmpc], by simp [hmpc]⟩

/-- r1 takes `write_idx` (43_channel.md R245). -/
theorem takeTurn_r1 {s t : State} (hmpc : s.mpc = .r1) (hisr : isrEnabled s = false)
    (h : takeTurn .engine s = .next t) : t.mpc = .r2 ∧ t.ch.byteAt writeIdxAddr = idxByte t.ridx := by
  have hexec : exec .chr s = .next t := takeTurn_chr (by rw [hmpc]; rfl) hisr h
  rcases execChr_cases hexec with ⟨-, i, hi, rfl⟩ | ⟨hm, -⟩ | ⟨hm, -⟩ | ⟨hm, -⟩ | ⟨hm, -⟩
  · exact ⟨rfl, hi⟩
  all_goals cases hmpc.symm.trans hm

/-- While no accumulating CHW is in progress, the latest slot holds the pair last published. -/
theorem latest_of_published {p : Byte × Byte} {s : State} (hs : PublishedInv p s) (hacc : accumulating s = false)
    {i : Idx} (hi : s.ch.byteAt writeIdxAddr = idxByte i) :
    (s.ch.byteAt (slotAddr i 0), s.ch.byteAt (slotAddr i 1)) = p :=
  Prod.ext (hs.latest1 (by simp [hacc]) i hi) (hs.latest2 (by simp [hacc]) i hi)

/-- A whole CHR under Q loads the pair last published before its r1. -/
theorem wholeChr_loads_lastPublished {σ : Nat → State} {τ : Nat → Turn} {p : Byte × Byte} {n m : Nat}
    (hrun : isRun σ τ) (hq : preconditionQ σ) (h0 : NoTearInv (σ 0)) (hp : PublishedInv p (σ 0))
    (hchr : WholeChr σ τ n m) : ((σ m).b1, (σ m).b2) = lastPublished σ τ p n := by
  obtain ⟨hmpc, hengine, hisr⟩ := hchr.first
  obtain ⟨hnm, hinside⟩ := hchr.inside
  obtain ⟨hmpc', -⟩ := hchr.last
  obtain ⟨hr2, hindex⟩ := takeTurn_r1 hmpc hisr (hengine ▸ hrun n)
  have hkept : lastPublished σ τ p (n + 1) = lastPublished σ τ p n :=
    publishedAfter_of_not_publishes (publishes_of_quiet (by simp [hengine]) _) _
  have hacc : accumulating (σ (n + 1)) = false := by
    simpa [channelOverlap, hinside (n + 1) (by omega) hnm] using hq (n + 1)
  have hlatest := latest_of_published (run_publishedInv hrun hp (n + 1)) hacc hindex
  have hloaded := run_readsPair hrun hq h0 (readsPair_of_r2 hr2) hnm fun k hk hkm => hinside k hk hkm
  rw [← hkept, ← hlatest]
  exact Prod.ext (hloaded.first (.inr hmpc')) (hloaded.second hmpc')

/-- Settles O47: the step lemma, and the reads of a run by the pair last published and by their slot at r2. -/
theorem noTornReadUnderQ : Obligations.NoTornReadUnderQ := by
  unfold Obligations.NoTornReadUnderQ
  refine ⟨fun s t p => step_publishedInv, fun σ τ p n m hrun hq h0 hp hchr => ?whole,
    fun σ τ n m hrun hq h0 hnm hr2 hr5 hread => ?fromR2⟩
  case whole =>
    have hloaded := wholeChr_loads_lastPublished hrun hq h0 hp hchr
    rcases lastPublished_cases σ τ p n with ⟨k, hk, hpub, hnone, hpair⟩ | ⟨hnone, hpair⟩
    · exact .inl ⟨k, hk, hpub, hnone, Prod.mk.inj (hloaded.trans hpair)⟩
    · exact .inr ⟨hnone, hloaded.trans hpair⟩
  case fromR2 =>
    have hloaded := run_readsPair hrun hq h0 (readsPair_of_r2 hr2) hnm hread
    exact ⟨hloaded.index, hloaded.first (.inr hr5), hloaded.second hr5⟩

end Sys2Proof.Proofs.Published
end

