-- ==== Sys2Proof/Proofs/ReadAfterWrite.lean ====
section
/-! PROOFS. Write, then read (43_channel.md R246, R247, R251, R252): what a whole CHW of a run publishes, and that a whole
CHR after it, with WRITER at rest between them, returns it cleaned. -/

open Sys2Proof
open Sys2Proof.Machine

namespace Sys2Proof.Proofs.ReadAfterWrite

open Sys2Proof.Proofs.Ownership
open Sys2Proof.Proofs.Memory
open Sys2Proof.Proofs.ChannelTurns
open Sys2Proof.Proofs.NoTear
open Sys2Proof.Proofs.Published

/-! ## CHW's registers, micro-step by micro-step -/

/-- Every micro-step of CHW moves WRITER. -/
theorem exec_chw_moves {s t : State} (h : exec .chw s = .next t) : t.wr.pos ≠ s.wr.pos := by
  rcases execChw_cases h with ⟨hpos, r, w, -, -, rfl⟩ | ⟨hpos, rfl⟩ | ⟨hpos, rfl⟩ | ⟨hpos, rfl⟩ | ⟨hpos, rfl⟩ |
    ⟨hpos, rfl⟩ <;> simp [hpos]

/-- So where WRITER is where it was, its registers are as they were. -/
theorem takeTurn_wr_of_pos {τ : Turn} {s t : State} (hpos : t.wr.pos = s.wr.pos) (h : takeTurn τ s = .next t) :
    t.wr = s.wr := by
  refine takeTurn_wr (fun x y heq => ?_) h
  subst heq
  exact exec_chw_moves (takeTurn_chw h) hpos

/-- w1 takes the consumed test and leaves the accumulator (43_channel.md R244). -/
theorem takeTurn_w1 {s t : State} {x y : Byte} (hpos : s.wr.pos = .w1) (h : takeTurn (.writer x y) s = .next t) :
    t.wr.acc1 = s.wr.acc1 ∧ t.wr.acc2 = s.wr.acc2 ∧
      (t.wr.wcons = true ↔ s.ch.byteAt readIdxAddr = s.ch.byteAt writeIdxAddr) := by
  rcases execChw_cases (takeTurn_chw h) with ⟨-, r, w, hr, hw, rfl⟩ | ⟨hp, -⟩ | ⟨hp, -⟩ | ⟨hp, -⟩ | ⟨hp, -⟩ | ⟨hp, -⟩
  case inl =>
    refine ⟨rfl, rfl, ?_⟩
    rw [show s.ch.byteAt readIdxAddr = idxByte r from hr, show s.ch.byteAt writeIdxAddr = idxByte w from hw,
      idxByte_inj, beq_iff_eq]
  all_goals cases hpos.symm.trans hp

/-- w2 takes the values. -/
theorem takeTurn_w2 {s t : State} {x y : Byte} (hpos : s.wr.pos = .w2) (h : takeTurn (.writer x y) s = .next t) :
    t.wr.wv1 = (writerValues s.cfg.latch x y s.wr).wv1 ∧ t.wr.wv2 = (writerValues s.cfg.latch x y s.wr).wv2 := by
  rcases execChw_cases (takeTurn_chw h) with ⟨hp, -⟩ | ⟨-, rfl⟩ | ⟨hp, -⟩ | ⟨hp, -⟩ | ⟨hp, -⟩ | ⟨hp, -⟩
  case inr.inl => exact ⟨rfl, rfl⟩
  all_goals cases hpos.symm.trans hp

/-- No other micro-step writes the values. -/
theorem takeTurn_values {τ : Turn} {s t : State} (hpos : s.wr.pos ≠ .w2) (h : takeTurn τ s = .next t) :
    t.wr.wv1 = s.wr.wv1 ∧ t.wr.wv2 = s.wr.wv2 := by
  by_cases hwriter : ∃ x y, τ = .writer x y
  · obtain ⟨x, y, rfl⟩ := hwriter
    rcases execChw_cases (takeTurn_chw h) with ⟨-, r, w, -, -, rfl⟩ | ⟨hp, -⟩ | ⟨-, rfl⟩ | ⟨-, rfl⟩ | ⟨-, rfl⟩ | ⟨-, rfl⟩
    case inr.inl => exact absurd hp hpos
    all_goals exact ⟨rfl, rfl⟩
  · have hquiet : ∀ x y, τ ≠ .writer x y := by simpa using hwriter
    rw [takeTurn_wr hquiet h]
    exact ⟨rfl, rfl⟩

/-! ## The values of a whole CHW -/

/-- Direct mode publishes the sample (43_channel.md R247). -/
theorem writerValues_direct (s1 s2 : Byte) (w : Writer) :
    (writerValues false s1 s2 w).wv1 = s1 ∧ (writerValues false s1 s2 w).wv2 = s2 := ⟨rfl, rfl⟩

/-- So does Latching mode where the last publication was consumed (43_channel.md R246). -/
theorem writerValues_consumed (latch : Bool) (s1 s2 : Byte) {w : Writer} (hcons : w.wcons = true) :
    (writerValues latch s1 s2 w).wv1 = s1 ∧ (writerValues latch s1 s2 w).wv2 = s2 := by
  cases latch <;> simp [writerValues, hcons]

/-- Otherwise it accumulates (43_channel.md R246). -/
theorem writerValues_accumulating (s1 s2 : Byte) {w : Writer} (hcons : w.wcons = false) :
    (writerValues true s1 s2 w).wv1 = w.acc1 &&& s1 ∧ (writerValues true s1 s2 w).wv2 = w.acc2 &&& s2 := by
  simp [writerValues, hcons]

section Run
variable {σ : Nat → State} {τ : Nat → Turn}

/-- From its w1 to its w2, WRITER's registers rest. -/
theorem wholeChw_wr_at_w2 {c b a : Nat} {s1 s2 : Byte} (hrun : isRun σ τ) (hchw : WholeChw σ τ c b a s1 s2) {k : Nat}
    (hck : c + 1 ≤ k) (hkb : k ≤ b) : (σ k).wr = (σ (c + 1)).wr := by
  obtain ⟨-, hw2, -⟩ := hchw.sample
  induction k, hck using Nat.le_induction with
  | base => rfl
  | succ k hk ih =>
    have hpos : (σ (k + 1)).wr.pos = (σ k).wr.pos := (hw2 (k + 1) (by omega) hkb).trans (hw2 k hk (by omega)).symm
    exact (takeTurn_wr_of_pos hpos (hrun k)).trans (ih (by omega))

/-- After its w2 the values rest, to its w6. -/
theorem wholeChw_values_after_w2 {c b a : Nat} {s1 s2 : Byte} (hrun : isRun σ τ) (hchw : WholeChw σ τ c b a s1 s2)
    {k : Nat} (hbk : b + 1 ≤ k) (hka : k ≤ a) :
    (σ k).wr.wv1 = (σ (b + 1)).wr.wv1 ∧ (σ k).wr.wv2 = (σ (b + 1)).wr.wv2 := by
  obtain ⟨-, hstores⟩ := hchw.stores
  induction k, hbk using Nat.le_induction with
  | base => exact ⟨rfl, rfl⟩
  | succ k hk ih =>
    have hpos : (σ k).wr.pos ≠ .w2 := fun heq => by simpa [heq] using hstores k hk (by omega)
    obtain ⟨h1, h2⟩ := takeTurn_values hpos (hrun k)
    obtain ⟨ih1, ih2⟩ := ih (by omega)
    exact ⟨h1.trans ih1, h2.trans ih2⟩

/-- What a whole CHW publishes is what w2 makes of its sample with the registers of its w1. -/
theorem wholeChw_values {c b a : Nat} {s1 s2 : Byte} (hrun : isRun σ τ) (hchw : WholeChw σ τ c b a s1 s2) :
    (σ a).wr.wv1 = (writerValues (σ c).cfg.latch s1 s2 (σ (c + 1)).wr).wv1 ∧
      (σ a).wr.wv2 = (writerValues (σ c).cfg.latch s1 s2 (σ (c + 1)).wr).wv2 := by
  obtain ⟨hcb, hw2, hturn⟩ := hchw.sample
  obtain ⟨hba, -⟩ := hchw.stores
  obtain ⟨h1, h2⟩ := takeTurn_w2 (hw2 b hcb le_rfl) (hturn ▸ hrun b)
  obtain ⟨hcfg, -⟩ := configuration_eq_iff.mp (run_configuration hrun hcb.le)
  rw [hcfg, wholeChw_wr_at_w2 hrun hchw hcb le_rfl] at h1 h2
  obtain ⟨ha1, ha2⟩ := wholeChw_values_after_w2 hrun hchw hba le_rfl
  exact ⟨ha1.trans h1, ha2.trans h2⟩

/-! ## The latest pair after a whole CHW -/

theorem run_fieldsStored (hrun : isRun σ τ) (h0 : ChannelInv (σ 0)) {n m : Nat} (hn : FieldsStored (σ n))
    (hnm : n ≤ m) : FieldsStored (σ m) := by
  induction m, hnm using Nat.le_induction with
  | base => exact hn
  | succ m _ ih => exact takeTurn_fieldsStored (run_channelInv hrun h0 m) ih (hrun m)

theorem fieldsStored_of_w1 {s : State} (hpos : s.wr.pos = .w1) : FieldsStored s :=
  ⟨by simp [storedFirst, hpos], by simp [storedBoth, hpos]⟩

theorem latestPair_of_published {p : Byte × Byte} {s : State} (hs : PublishedInv p s) (hacc : accumulating s = false) :
    latestPair s = p := by
  have hindex : ∃ i, s.ch.byteAt writeIdxAddr = idxByte i := hs.channel.writeIdx.elim (⟨0, ·⟩) (⟨1, ·⟩)
  obtain ⟨i, hi⟩ := hindex
  rw [latestPair, latestSlot_of_idxByte hi]
  exact latest_of_published hs hacc hi

/-- w6 makes the stored pair the latest. -/
theorem takeTurn_w6 {υ : Turn} {s t : State} (hch : ChannelInv s) (hs : FieldsStored s) (hpub : publishes υ s = true)
    (h : takeTurn υ s = .next t) : latestPair t = (s.wr.wv1, s.wr.wv2) := by
  obtain ⟨⟨x, y, rfl⟩, hpos⟩ := (publishes_iff υ s).mp hpub
  have hch' : ChannelInv { s with snap1 := x, snap2 := y } := channelInv_of_ch_eq hch rfl
  have hs' : FieldsStored { s with snap1 := x, snap2 := y } := fieldsStored_of_cells hs (fun _ _ => rfl) rfl
  rcases execChw_cases (takeTurn_chw h) with ⟨hp, -⟩ | ⟨hp, -⟩ | ⟨hp, -⟩ | ⟨hp, -⟩ | ⟨hp, -⟩ | ⟨-, rfl⟩
  case inr.inr.inr.inr.inr => exact latestPair_of_published (publishedInv_w6 hch' hs' hpos) rfl
  all_goals cases hpos.symm.trans hp

theorem wholeChw_publishes {c b a : Nat} {s1 s2 : Byte} (hrun : isRun σ τ) (h0 : ChannelInv (σ 0))
    (hchw : WholeChw σ τ c b a s1 s2) : latestPair (σ (a + 1)) = ((σ a).wr.wv1, (σ a).wr.wv2) := by
  obtain ⟨hpos, -⟩ := hchw.first
  obtain ⟨hcb, -⟩ := hchw.sample
  obtain ⟨hba, -⟩ := hchw.stores
  exact takeTurn_w6 (run_channelInv hrun h0 a) (run_fieldsStored hrun h0 (fieldsStored_of_w1 hpos) (by omega)) hchw.last
    (hrun a)

/-! ## The read -/

/-- r5 leaves `read_idx` equal to `write_idx` where the slot read is the latest (43_channel.md R245). -/
theorem takeTurn_r5_indices {s t : State} (hch : ChannelInv s) (hindex : s.ch.byteAt writeIdxAddr = idxByte s.ridx)
    (hmpc : s.mpc = .r5) (hisr : isrEnabled s = false) (h : takeTurn .engine s = .next t) :
    t.ch.byteAt readIdxAddr = t.ch.byteAt writeIdxAddr := by
  have hexec : exec .chr s = .next t := takeTurn_chr (by rw [hmpc]; rfl) hisr h
  rcases execChr_cases hexec with ⟨hm, -⟩ | ⟨hm, -⟩ | ⟨hm, -⟩ | ⟨hm, -⟩ | ⟨-, rfl⟩
  case inr.inr.inr.inr =>
    have hmem : (done .ok (cleanSnapshot { s with ch := s.ch.setByte readIdxAddr (idxByte s.ridx) })).ch =
        s.ch.setByte readIdxAddr (idxByte s.ridx) := done_ch _ _
    rw [hmem, Memory.byteAt_put hch.canonical, Memory.byteAt_put hch.canonical, if_pos rfl, if_neg (by decide), hindex]
  all_goals cases hmpc.symm.trans hm

end Run

/-- Settles O43: the CHW makes its pair the latest, WRITER's rest keeps it so, and the CHR returns the latest pair. -/
theorem readAfterWriteIsCleanedSample : Obligations.ReadAfterWriteIsCleanedSample := by
  unfold Obligations.ReadAfterWriteIsCleanedSample
  intro σ τ c b a n m s1 s2 hrun h0 hchw hchr han hquiet
  obtain ⟨hpos, x, y, hturn⟩ := hchw.first
  obtain ⟨hnm, -⟩ := hchr.inside
  obtain ⟨hmpc, hengine, hisr⟩ := hchr.last
  have hrest : noWriterTurn τ n m := fun k hk hkm => hquiet k (by omega) hkm
  have hpair : latestPair (σ m) = ((σ a).wr.wv1, (σ a).wr.wv2) :=
    (run_latestPair hrun h0 (by omega) fun k hk hkm => hquiet k hk (by omega)).trans (wholeChw_publishes hrun h0 hchw)
  obtain ⟨hacc1, hacc2, hcons⟩ := takeTurn_w1 hpos (hturn ▸ hrun c)
  obtain ⟨hwv1, hwv2⟩ := wholeChw_values hrun hchw
  rw [hwv1, hwv2] at hpair ⊢
  refine ⟨?read, ?indices, fun hsample => ?sample, fun hlatch hunread => ?accumulated⟩
  case read => rw [wholeChr_returns hrun hchr hrest, hpair]
  case indices =>
    have hindex := (wholeChr_readsLatest hrun hchr hrest hnm le_rfl).index
    exact takeTurn_r5_indices (run_channelInv hrun h0 m) hindex hmpc hisr (hengine ▸ hrun m)
  case sample =>
    rcases hsample with hdirect | hconsumed
    · rw [hdirect]
      exact writerValues_direct s1 s2 _
    · exact writerValues_consumed _ s1 s2 (hcons.mpr hconsumed)
  case accumulated =>
    rw [hlatch, ← hacc1, ← hacc2]
    exact writerValues_accumulating s1 s2 (Bool.eq_false_iff.mpr (mt hcons.mp hunread))

end Sys2Proof.Proofs.ReadAfterWrite
end

