-- ==== Sys2Proof/Proofs/Statistics.lean ====
section
/-! PROOFS. The statistics over one turn (44_telemetry.md R264): every micro-step runs alike whatever the statistics and
the telemetry port hold, and what it does to the statistics is a function of them. Removing them from a run therefore
changes nothing else in it. -/

open Sys2Proof
open Sys2Proof.Machine

namespace Sys2Proof.Proofs.Statistics

open Sys2Proof.Proofs.Ownership
open Sys2Proof.Proofs.Memory
open Sys2Proof.Proofs.Encoding
open Sys2Proof.Proofs.Channel

/-! ## The state with other statistics -/

/-- The state with other statistics and another value at the telemetry port. -/
def withStats (u : Stats) (p : Option U32) (s : State) : State := { s with st := u, telPort := p }

/-- The states that agree with s but for the statistics and the port are those with other values there. -/
theorem sameButStats_iff {s t : State} : sameButStats s t ↔ ∃ u p, t = withStats u p s := by
  constructor
  · exact fun h => ⟨t.st, t.telPort, h.symm⟩
  · rintro ⟨u, p, rfl⟩
    rfl

theorem withStats_mpc (u : Stats) (p : Option U32) (s : State) : (withStats u p s).mpc = s.mpc := rfl

theorem withStats_copyDest (u : Stats) (p : Option U32) (d : Dest) (s : State) :
    withStats u p (copyDest d s) = copyDest d (withStats u p s) := by
  cases d <;> rfl

theorem withStats_done (u : Stats) (p : Option U32) (o : Branch) (s : State) :
    withStats u p (done o s) = done o (withStats u p s) :=
  congrArg (goto (nextPc s.entry s.pc o)) (withStats_copyDest u p (destAt s.entry) s)

theorem withStats_popTurn (u : Stats) (p : Option U32) (s : State) :
    popTurn (withStats u p s) = withStats u p (popTurn s) := by
  have hagenda : (withStats u p s).agenda = s.agenda := rfl
  unfold popTurn
  rw [hagenda]
  cases s.agenda <;> rfl

/-! ## What an operation does to the statistics -/

/-- The statistics after DISPATCH (41_transaction_fsm.md R174). -/
def addressStats (p : Params) (a : Byte) (u : Stats) : Stats :=
  if a = 0x01 then { u with controller := u.controller + 1 }
  else if a = 0x81 then { u with memcard := u.memcard + 1 }
  else if p.ignoreSet.contains a then u
  else { u with invalid := u.invalid + 1, lastInvAddr := a }

/-- The statistics after CMDCHK (41_transaction_fsm.md R182). -/
def commandStats (c : Byte) (u : Stats) : Stats :=
  if c = 0xFF then u
  else if c = 0x42 then u
  else { u with invalid := u.invalid + 1, lastInvCmd := c }

/-- The statistics after ABORT (41_transaction_fsm.md R188). -/
def failureStats (r : FailReason) (u : Stats) : Stats :=
  if r = .timeout then { u with timeout := u.timeout + 1 } else u

/-- The statistics after one micro-step from s of an operation with an operation word, from the statistics u before it.
Five operations write them (10_state.md R51). -/
def statsAfter (i : Instr) (s : State) (u : Stats) : Stats :=
  match i with
  | .start => { u with total := u.total + 1 }
  | .dispatch => addressStats s.cfg s.addr u
  | .cmdchk => commandStats s.cmd u
  | .stpoll => pollUpdate s.now u
  | .abort => failureStats s.failReason u
  | _ => u

/-! ## Two runs of one micro-step -/

/-- A micro-step from s to t, and the same one with other statistics, put in by f, to t'. It stays at its address, or
it ends its operation with the same outcome in both (41_transaction_fsm.md R170). -/
inductive MicroStep (s : State) (f : State → State) : State → State → Prop
  | stays {t t' : State} (hpc : t.pc = s.pc) (hstats : f t = t') : MicroStep s f t t'
  | ends (o : Branch) {u u' : State} (hentry : u.entry = s.entry) (hpc : u.pc = s.pc) (hstats : f u = u') :
      MicroStep s f (done o u) (done o u')

/-- Where the first outcome goes on, the second goes on alike. -/
inductive Alike (s : State) (f : State → State) :
    Host.Outcome State Fault Refusal → Host.Outcome State Fault Refusal → Prop
  | next {t t' : State} (h : MicroStep s f t t') : Alike s f (.next t) (.next t')
  | fault (r : Fault) (o' : Host.Outcome State Fault Refusal) : Alike s f (.fault r) o'

theorem microStep_ite {c : Prop} [Decidable c] {s : State} {f : State → State} {t t' u u' : State}
    (ht : MicroStep s f t t') (hu : MicroStep s f u u') :
    MicroStep s f (if c then t else u) (if c then t' else u') := by
  split
  · exact ht
  · exact hu

section Operations
variable (u : Stats) (p : Option U32) (s : State)

/-- An edge wait runs alike where its two ends do. -/
theorem microStep_waitStep {level : Bool} {bound : U32} {stay : WaitPos → Mpc} {onOk onFail : State → State}
    (hok : MicroStep s (withStats u p) (onOk s) (onOk (withStats u p s)))
    (hfail : ∀ r, MicroStep s (withStats u p) (onFail (raise r s)) (onFail (raise r (withStats u p s)))) (w : WaitPos) :
    MicroStep s (withStats u p) (waitStep level bound stay onOk onFail w s)
      (waitStep level bound stay onOk onFail w (withStats u p s)) := by
  have hpoll : pollEdge level bound (withStats u p s) = pollEdge level bound s := rfl
  cases w with
  | w0 => exact .stays rfl rfl
  | w1 =>
    unfold waitStep
    rw [hpoll]
    rcases pollEdge level bound s with _ | r | _
    · exact hok
    · exact hfail r
    · exact .stays rfl rfl

/-- A wait inside an operation: both its ends are micro-steps of that operation. -/
theorem microStep_waitStep_stepTo {level : Bool} {bound : U32} {stay : WaitPos → Mpc} {okMpc failMpc : Mpc}
    (w : WaitPos) :
    MicroStep s (withStats u p) (waitStep level bound stay (stepTo okMpc) (stepTo failMpc) w s)
      (waitStep level bound stay (stepTo okMpc) (stepTo failMpc) w (withStats u p s)) :=
  microStep_waitStep (onOk := stepTo okMpc) (onFail := stepTo failMpc) u p s (.stays rfl rfl)
    (fun _ => .stays rfl rfl) w

theorem execIdlewait_alike : Alike s (withStats u p) (execIdlewait s) (execIdlewait (withStats u p s)) := by
  unfold execIdlewait
  rw [withStats_mpc]
  generalize s.mpc = m
  split
  · exact .next (microStep_ite (.stays rfl rfl) (microStep_ite (.stays rfl rfl) (.stays rfl rfl)))
  · exact .next (microStep_ite (.stays rfl rfl) (.stays rfl rfl))
  · exact .next (microStep_ite (.stays rfl rfl) (.ends _ rfl rfl rfl))
  · exact .fault _ _

theorem execRx_alike : Alike s (withStats u p) (execRx s) (execRx (withStats u p s)) := by
  unfold execRx
  rw [withStats_mpc]
  generalize s.mpc = m
  split
  · exact .next (.stays rfl rfl)
  · exact .next (microStep_waitStep_stepTo u p s _)
  · exact .next (microStep_waitStep_stepTo u p s _)
  · exact .next (microStep_ite (.stays rfl rfl) (microStep_ite (.ends _ rfl rfl rfl) (.ends _ rfl rfl rfl)))
  · exact .next (.ends _ rfl rfl rfl)
  · exact .fault _ _

theorem dispatchOn_microStep (a : Byte) :
    MicroStep s (withStats (addressStats s.cfg a u) p) (dispatchOn a s) (dispatchOn a (withStats u p s)) := by
  have hcfg : (withStats u p s).cfg = s.cfg := rfl
  unfold dispatchOn addressStats
  rw [hcfg]
  split_ifs
  all_goals exact .ends _ rfl rfl rfl

theorem execDispatch_alike :
    Alike s (withStats (addressStats s.cfg s.addr u) p) (execDispatch s) (execDispatch (withStats u p s)) := by
  unfold execDispatch
  rw [withStats_mpc]
  generalize s.mpc = m
  split
  · exact .next (dispatchOn_microStep u p s s.addr)
  · exact .fault _ _

theorem execAck_alike : Alike s (withStats u p) (execAck s) (execAck (withStats u p s)) := by
  unfold execAck
  rw [withStats_mpc]
  generalize s.mpc = m
  split
  · exact .next (.stays rfl rfl)
  · exact .next (microStep_ite (.stays rfl rfl) (.stays rfl rfl))
  · exact .next (microStep_ite (.ends _ rfl rfl rfl) (.stays rfl rfl))
  · exact .next (.stays rfl rfl)
  · exact .next (.stays rfl rfl)
  · exact .next (microStep_ite (.stays rfl rfl) (.stays rfl rfl))
  · exact .next (.ends _ rfl rfl rfl)
  · exact .fault _ _

theorem execDelay_alike (d : DelaySel) : Alike s (withStats u p) (execDelay d s) (execDelay d (withStats u p s)) := by
  have hduration : durationOf d (withStats u p s) = durationOf d s := rfl
  unfold execDelay
  rw [withStats_mpc, hduration]
  generalize s.mpc = m
  split
  · exact .next (.stays rfl rfl)
  · exact .next (microStep_ite (.ends _ rfl rfl rfl) (.stays rfl rfl))
  · exact .fault _ _

/-- XFERI and XFERR, whatever byte they send. -/
theorem xferStep_alike (v : Byte) : Alike s (withStats u p) (xferStep v s) (xferStep v (withStats u p s)) := by
  unfold xferStep
  rw [withStats_mpc]
  generalize s.mpc = m
  split
  · exact .next (.stays rfl rfl)
  · exact .next (microStep_waitStep_stepTo u p s _)
  · exact .next (.stays rfl rfl)
  · exact .next (.stays rfl rfl)
  · exact .next (microStep_waitStep_stepTo u p s _)
  · exact .next (.stays rfl rfl)
  · exact .next (.ends _ rfl rfl rfl)
  · exact .next (.ends _ rfl rfl rfl)
  · exact .fault _ _

/-- TXI and TXR, whatever byte they send. -/
theorem txStep_alike (v : Byte) : Alike s (withStats u p) (txStep v s) (txStep v (withStats u p s)) := by
  unfold txStep
  rw [withStats_mpc]
  generalize s.mpc = m
  split
  · exact .next (.stays rfl rfl)
  · exact .next (microStep_waitStep_stepTo u p s _)
  · exact .next (.stays rfl rfl)
  · exact .next (microStep_waitStep_stepTo u p s _)
  · exact .next (.stays rfl rfl)
  · exact .next (.ends _ rfl rfl rfl)
  · exact .next (.ends _ rfl rfl rfl)
  · exact .fault _ _

/-- WAITF and WAITR. -/
theorem waitOp_alike (level : Bool) (b : TimeoutSel) :
    Alike s (withStats u p) (waitOp level b s) (waitOp level b (withStats u p s)) := by
  unfold waitOp
  rw [withStats_mpc]
  generalize s.mpc = m
  split
  · exact .next (microStep_waitStep (onOk := done .ok) (onFail := done .fail) u p s (.ends _ rfl rfl rfl)
      (fun _ => .ends _ rfl rfl rfl) _)
  · exact .fault _ _

theorem commandOn_microStep (c : Byte) :
    MicroStep s (withStats (commandStats c u) p) (commandOn c s) (commandOn c (withStats u p s)) := by
  unfold commandOn commandStats
  split_ifs
  all_goals exact .ends _ rfl rfl rfl

theorem execCmdchk_alike :
    Alike s (withStats (commandStats s.cmd u) p) (execCmdchk s) (execCmdchk (withStats u p s)) := by
  unfold execCmdchk
  rw [withStats_mpc]
  generalize s.mpc = m
  split
  · exact .next (commandOn_microStep u p s s.cmd)
  · exact .fault _ _

theorem execMcwait_alike : Alike s (withStats u p) (execMcwait s) (execMcwait (withStats u p s)) := by
  unfold execMcwait
  rw [withStats_mpc]
  generalize s.mpc = m
  split
  · exact .next (.stays rfl rfl)
  · exact .next (microStep_ite (.ends _ rfl rfl rfl) (.stays rfl rfl))
  · exact .fault _ _

/-- Every ENGINE operation but CHR, which reads and writes the channel. -/
theorem exec_engine_alike {i : Instr} (hi : i.agent = .engine) (hword : i.isWord = true) (hchr : i ≠ .chr) :
    Alike s (withStats (statsAfter i s u) p) (exec i s) (exec i (withStats u p s)) := by
  cases i with
  | idlewait => exact execIdlewait_alike u p s
  | rx => exact execRx_alike u p s
  | dispatch => exact execDispatch_alike u p s
  | ack => exact execAck_alike u p s
  | delay d => exact execDelay_alike u p s d
  | xferi v => exact xferStep_alike u p s v
  | xferr r => exact xferStep_alike u p s (readReg r s)
  | cmdchk => exact execCmdchk_alike u p s
  | mcwait => exact execMcwait_alike u p s
  | txi v => exact txStep_alike u p s v
  | txr r => exact txStep_alike u p s (readReg r s)
  | waitf b => exact waitOp_alike u p s false b
  | waitr b => exact waitOp_alike u p s true b
  | start | calobs o | stpoll | endTxn | abort | relbus | caltick =>
    simp only [exec, execStart, execCalobs, execStpoll, execEnd, execAbort, execRelbus, execCaltick, withStats_mpc]
    generalize s.mpc = m
    split
    · exact .next (.ends _ rfl rfl rfl)
    · exact .fault _ _
  | chr => exact absurd rfl hchr
  | chw | isr | tread x => cases hi
  | addrController | addrMemcard | addrSentinel | addrIgnored b | addrInvalid b | cmdPoll | cmdSentinel | cmdOther b
  | idLow | idHigh => cases hword

end Operations

theorem Alike.goes_on {s t : State} {f : State → State} {o o' : Host.Outcome State Fault Refusal} (h : Alike s f o o')
    (ho : o = .next t) : ∃ t', o' = .next t' ∧ MicroStep s f t t' := by
  cases h with
  | next h =>
    cases ho
    exact ⟨_, rfl, h⟩
  | fault r o' => cases ho

theorem MicroStep.eq {s t t' : State} {u : Stats} {p : Option U32} (h : MicroStep s (withStats u p) t t') :
    t' = withStats u p t := by
  cases h with
  | stays hpc hstats => exact hstats.symm
  | ends o hentry hpc hstats => rw [withStats_done, hstats]

/-- A micro-step leaves `R.pc` or takes a successor of its entry (41_transaction_fsm.md R170). -/
theorem MicroStep.pc {s t t' : State} {f : State → State} (h : MicroStep s f t t') :
    t.pc = s.pc ∨ ∃ o, t.pc = nextPc s.entry s.pc o := by
  cases h with
  | stays hpc hstats => exact .inl hpc
  | ends o hentry hpc hstats => exact .inr ⟨o, by rw [done_pc, hentry, hpc]⟩

/-! ## The operations on the channel -/

theorem exec_chr_microStep {s t : State} (h : exec .chr s = .next t) (u : Stats) (p : Option U32) :
    ∃ t', exec .chr (withStats u p s) = .next t' ∧ MicroStep s (withStats u p) t t' := by
  rcases execChr_cases h with ⟨hmpc, i, hi, rfl⟩ | ⟨hmpc, rfl⟩ | ⟨hmpc, rfl⟩ | ⟨hmpc, rfl⟩ | ⟨hmpc, rfl⟩
  · exact ⟨_, exec_chr_r1 (s := withStats u p s) hmpc hi, .stays rfl rfl⟩
  · exact ⟨_, exec_chr_r2 (s := withStats u p s) hmpc, .stays rfl rfl⟩
  · exact ⟨_, exec_chr_r3 (s := withStats u p s) hmpc, .stays rfl rfl⟩
  · exact ⟨_, exec_chr_r4 (s := withStats u p s) hmpc, .stays rfl rfl⟩
  · exact ⟨_, exec_chr_r5 (s := withStats u p s) hmpc, .ends _ rfl rfl rfl⟩

theorem exec_chw_withStats {s t : State} (h : exec .chw s = .next t) (u : Stats) (p : Option U32) :
    exec .chw (withStats u p s) = .next (withStats u p t) := by
  rcases execChw_cases h with ⟨hpos, r, w, hr, hw, rfl⟩ | ⟨hpos, rfl⟩ | ⟨hpos, rfl⟩ | ⟨hpos, rfl⟩ | ⟨hpos, rfl⟩ |
    ⟨hpos, rfl⟩
  · exact exec_chw_w1 (s := withStats u p s) hpos hr hw
  · exact exec_chw_w2 (s := withStats u p s) hpos
  · exact exec_chw_w3 (s := withStats u p s) hpos
  · exact exec_chw_w4 (s := withStats u p s) hpos
  · exact exec_chw_w5 (s := withStats u p s) hpos
  · exact exec_chw_w6 (s := withStats u p s) hpos

/-! ## One turn -/

/-- An operation word is no wire byte (30_encoding.md R113, R115). -/
theorem isWord_of_decodeWord {w : OpWord} {i : Instr} (h : decodeWord w = .ok i) : i.isWord = true := by
  have hencode : encode i = .word w := decodeWord_eq_ok_iff.mp h
  cases i
  case addrController | addrMemcard | addrSentinel | addrIgnored | addrInvalid | cmdPoll | cmdSentinel | cmdOther |
    idLow | idHigh => cases hencode
  all_goals rfl

/-- An ENGINE operation that goes on does so whatever the statistics, and writes to them what `statsAfter` says. -/
theorem exec_engine_microStep {i : Instr} {s t : State} (hi : i.agent = .engine) (hword : i.isWord = true)
    (h : exec i s = .next t) (u : Stats) (p : Option U32) :
    ∃ t', exec i (withStats u p s) = .next t' ∧ MicroStep s (withStats (statsAfter i s u) p) t t' := by
  by_cases hchr : i = .chr
  · subst hchr
    exact exec_chr_microStep h u p
  · exact (exec_engine_alike u p s hi hword hchr).goes_on h

/-- The statistics after an ENGINE operation, from its run with the statistics it has. -/
theorem exec_engine_st {i : Instr} {s t : State} (hi : i.agent = .engine) (hword : i.isWord = true)
    (h : exec i s = .next t) : t.st = statsAfter i s s.st := by
  obtain ⟨t', h', hstep⟩ := exec_engine_microStep hi hword h s.st s.telPort
  have hsame : t' = t := Host.Outcome.next.inj (h'.symm.trans h)
  rw [← hsame, hstep.eq]
  rfl

theorem exec_engine_pc {i : Instr} {s t : State} (hi : i.agent = .engine) (hword : i.isWord = true)
    (h : exec i s = .next t) : t.pc = s.pc ∨ ∃ o, t.pc = nextPc s.entry s.pc o := by
  obtain ⟨t', -, hstep⟩ := exec_engine_microStep hi hword h s.st s.telPort
  exact hstep.pc

theorem exec_withStats {i : Instr} {s t : State} (hword : i.isWord = true) (h : exec i s = .next t) (u : Stats)
    (p : Option U32) : ∃ v q, exec i (withStats u p s) = .next (withStats v q t) := by
  cases hi : i.agent with
  | engine =>
    obtain ⟨t', h', hstep⟩ := exec_engine_microStep hi hword h u p
    exact ⟨statsAfter i s u, p, hstep.eq ▸ h'⟩
  | writer =>
    rw [agent_writer.mp hi] at h ⊢
    exact ⟨u, p, exec_chw_withStats h u p⟩
  | isr =>
    rw [agent_isr.mp hi, exec_isr] at h
    rw [agent_isr.mp hi]
    cases h
    exact ⟨u, p, rfl⟩
  | telemetry =>
    obtain ⟨x, rfl⟩ := agent_telemetry.mp hi
    rw [exec_tread] at h
    cases h
    exact ⟨u, some (telValue x (withStats u p s)), rfl⟩

theorem issue_withStats {a : Agent} {w : OpWord} {s t : State} (h : issue a w s = .next t) (u : Stats)
    (p : Option U32) : ∃ v q, issue a w (withStats u p s) = .next (withStats v q t) := by
  obtain ⟨i, hdec, ha, hexec⟩ := issue_next.mp h
  obtain ⟨v, q, hexec'⟩ := exec_withStats (isWord_of_decodeWord hdec) hexec u p
  exact ⟨v, q, issue_next.mpr ⟨i, hdec, ha, hexec'⟩⟩

/-- One turn in two states that differ only in the statistics and the port. -/
theorem takeTurn_withStats {τ : Turn} {s t : State} (h : takeTurn τ s = .next t) (u : Stats) (p : Option U32) :
    ∃ v q, takeTurn τ (withStats u p s) = .next (withStats v q t) := by
  cases τ with
  | engine =>
    rcases contextStep_next.mp h with ⟨hisr, h⟩ | ⟨hisr, h⟩
    · obtain ⟨v, q, h'⟩ := issue_withStats h u p
      exact ⟨v, q, contextStep_next.mpr (.inl ⟨hisr, h'⟩)⟩
    · obtain ⟨e, i, hentry, hdec, hi, hexec⟩ := engineStep_next.mp h
      obtain ⟨v, q, hexec'⟩ := exec_withStats (isWord_of_decodeWord hdec) hexec u p
      exact ⟨v, q, contextStep_next.mpr (.inr ⟨hisr, engineStep_next.mpr ⟨e, i, hentry, hdec, hi, hexec'⟩⟩)⟩
  | writer s1 s2 => exact issue_withStats (s := { s with snap1 := s1, snap2 := s2 }) h u p
  | telemetry w => exact issue_withStats h u p
  | host pins =>
    cases h
    exact ⟨u, p, rfl⟩
  | timebase =>
    cases h
    exact ⟨u, p, rfl⟩

/-- A turn taken in s: an ENGINE operation of the control store, or one that leaves the statistics and `R.pc`. -/
inductive StatsTurn (s : State) : State → Prop
  | engine (e : Entry) (i : Instr) {t : State} (hentry : s.entry = some e) (hdec : decodeWord e.word = .ok i)
      (hi : i.agent = .engine) (hexec : exec i s = .next t) : StatsTurn s t
  | beside {t : State} (hst : t.st = s.st) (hpc : t.pc = s.pc) : StatsTurn s t

theorem takeTurn_statsTurn {τ : Turn} {s t : State} (h : takeTurn τ s = .next t) : StatsTurn s t := by
  cases takeTurn_effect h with
  | engine hisr _ _ =>
    rcases contextStep_next.mp h with ⟨henabled, -⟩ | ⟨-, hengine⟩
    · exact absurd henabled (Bool.eq_false_iff.mp hisr)
    · obtain ⟨e, i, hentry, hdec, hi, hexec⟩ := engineStep_next.mp hengine
      exact .engine e i hentry hdec hi hexec
  | writer hexec =>
    rw [exec_chw_frame hexec]
    exact .beside rfl rfl
  | isr _ => exact .beside rfl rfl
  | telemetry w x => exact .beside rfl rfl
  | host p => exact .beside rfl rfl
  | timebase => exact .beside rfl rfl

/-- Settles O51: the same turn comes next in both states, and `takeTurn_withStats` says how both take it. -/
theorem statisticsInfluenceNothing : Obligations.StatisticsInfluenceNothing := by
  unfold Obligations.StatisticsInfluenceNothing
  intro s t s' hsame h
  obtain ⟨u, p, rfl⟩ := sameButStats_iff.mp hsame
  obtain ⟨v, q, h'⟩ := takeTurn_withStats h u p
  refine ⟨withStats v q s', ?_, sameButStats_iff.mpr ⟨v, q, rfl⟩⟩
  have hturn : nextTurn (withStats u p s) = nextTurn s := rfl
  rw [step, hturn, withStats_popTurn, h']

end Sys2Proof.Proofs.Statistics
end

