-- ==== Sys2Proof/Proofs/Telemetry.lean ====
section
/-! PROOFS. STPOLL and TREAD (44_telemetry.md R261, R268): what a poll records, that every step keeps the mean of the
recorded intervals between their extremes, and what TREAD delivers. -/

open Sys2Proof
open Sys2Proof.Machine

namespace Sys2Proof.Proofs.Telemetry

open Sys2Proof.Proofs.Ownership
open Sys2Proof.Proofs.Encoding
open Sys2Proof.Proofs.Statistics

/-! ## STPOLL (R261) -/

theorem exec_stpoll_sp0 {s : State} (hm : s.mpc = .sp0) :
    exec .stpoll s = .next (done .ok { s with st := pollUpdate s.now s.st }) := by
  simp only [exec, execStpoll, hm]

theorem pollUpdate_of_first {now : U32} {t : Stats} (hprev : t.pollHasPrev = false) :
    pollUpdate now t = { t with pollLast := now, pollHasPrev := true } := by
  simp [pollUpdate, hprev]

/-- The count is full exactly at its greatest value. -/
theorem not_lt_pollCntMax_iff (n : U32) : ¬n.toNat < pollCntMax.toNat ↔ n = 0xFFFFFFFF := by
  unfold pollCntMax
  bv_omega

theorem pollMean_of_full {iv : U32} {t : Stats} (hfull : t.pollCnt = 0xFFFFFFFF) : pollMean iv t = t :=
  if_neg ((not_lt_pollCntMax_iff t.pollCnt).mpr hfull)

/-- The mean of one more interval, as a quotient of numbers. -/
theorem pollMean_of_room {iv : U32} {t : Stats} (hroom : t.pollCnt ≠ 0xFFFFFFFF) :
    pollMean iv t = { t with
      pollSum := t.pollSum + iv.setWidth 64
      pollCnt := t.pollCnt + 1
      pollAvg := BitVec.ofNat 32 ((t.pollSum + iv.setWidth 64).toNat / (t.pollCnt.toNat + 1)) } := by
  have hcount : ((t.pollCnt + 1).setWidth 64).toNat = t.pollCnt.toNat + 1 := by bv_omega
  have hmean : ((t.pollSum + iv.setWidth 64) / (t.pollCnt + 1).setWidth 64).setWidth 32 =
      BitVec.ofNat 32 ((t.pollSum + iv.setWidth 64).toNat / (t.pollCnt.toNat + 1)) := by
    apply BitVec.eq_of_toNat_eq
    rw [BitVec.toNat_setWidth, BitVec.toNat_udiv, hcount, BitVec.toNat_ofNat]
  unfold pollMean
  rw [if_pos (not_not.mp (mt (not_lt_pollCntMax_iff t.pollCnt).mp hroom)), hmean]

/-- A later poll updates mean and extremes and keeps its time. -/
theorem pollUpdate_of_later {now : U32} {t : Stats} (hprev : t.pollHasPrev = true) :
    pollUpdate now t =
      { pollMean (now - t.pollLast) (pollExtremes (now - t.pollLast) t) with
        pollLast := now, pollHasPrev := true } := by
  simp [pollUpdate, hprev, elapsed]

theorem pollUpdate_of_full {now : U32} {t : Stats} (hprev : t.pollHasPrev = true) (hfull : t.pollCnt = 0xFFFFFFFF) :
    pollUpdate now t = { pollExtremes (now - t.pollLast) t with pollLast := now } := by
  rw [pollUpdate_of_later hprev, pollMean_of_full (t := pollExtremes (now - t.pollLast) t) hfull, ← hprev]
  rfl

/-- The extremes, sum, count and mean with one more interval, while the count has room. -/
def pollRecord (iv : U32) (t : Stats) : Stats :=
  { pollExtremes iv t with
    pollSum := t.pollSum + iv.setWidth 64
    pollCnt := t.pollCnt + 1
    pollAvg := BitVec.ofNat 32 ((t.pollSum + iv.setWidth 64).toNat / (t.pollCnt.toNat + 1)) }

theorem pollUpdate_of_room {now : U32} {t : Stats} (hprev : t.pollHasPrev = true) (hroom : t.pollCnt ≠ 0xFFFFFFFF) :
    pollUpdate now t = { pollRecord (now - t.pollLast) t with pollLast := now } := by
  rw [pollUpdate_of_later hprev, pollMean_of_room (t := pollExtremes (now - t.pollLast) t) hroom, ← hprev]
  rfl

/-- Settles O48: the first poll, and a later one with the count full or not. -/
theorem stpollRecordsInterval : Obligations.StpollRecordsInterval := by
  unfold Obligations.StpollRecordsInterval
  refine ⟨rfl, fun s iv mn mx sum hm hiv hmn hmx hsum => ?_⟩
  subst hiv hmn hmx hsum
  rw [exec_stpoll_sp0 hm]
  refine ⟨fun hprev => ?first, fun hprev hfull => ?full, fun hprev hroom => ?room⟩
  case first => rw [pollUpdate_of_first hprev]
  case full =>
    rw [pollUpdate_of_full hprev hfull]
    rfl
  case room =>
    rw [pollUpdate_of_room hprev hroom]
    rfl

/-! ## The invariant of the poll statistics (R261) -/

/-- The registers that the invariant is about. -/
def pollPart (t : Stats) : U32 × U32 × U64 × U32 × U32 := (t.pollMin, t.pollMax, t.pollSum, t.pollCnt, t.pollAvg)

theorem pollInv_of_pollPart_eq {t u : Stats} (ht : PollInv t) (hpart : pollPart u = pollPart t) : PollInv u := by
  simp only [pollPart, Prod.mk.injEq] at hpart
  obtain ⟨hmin, hmax, hsum, hcnt, havg⟩ := hpart
  constructor
  · rw [hcnt, hsum, havg, hmin, hmax]
    exact ht.fresh
  · rw [hcnt, hsum, hmin]
    exact ht.low
  · rw [hcnt, hsum, hmax]
    exact ht.high
  · rw [hcnt, hsum, havg]
    exact ht.mean
  · rw [havg, hmax]
    exact ht.bound

theorem pollExtremes_min_le (iv : U32) (t : Stats) :
    (pollExtremes iv t).pollMin.toNat ≤ iv.toNat ∧ (pollExtremes iv t).pollMin.toNat ≤ t.pollMin.toNat := by
  dsimp only [pollExtremes]
  split <;> omega

theorem le_pollExtremes_max (iv : U32) (t : Stats) :
    iv.toNat ≤ (pollExtremes iv t).pollMax.toNat ∧ t.pollMax.toNat ≤ (pollExtremes iv t).pollMax.toNat := by
  dsimp only [pollExtremes]
  split <;> omega

/-- Wider extremes hold the recorded intervals too. -/
theorem pollInv_extremes {t : Stats} (ht : PollInv t) (iv : U32) (hcnt : t.pollCnt ≠ 0) :
    PollInv (pollExtremes iv t) where
  fresh hzero := absurd hzero hcnt
  low _ := (Nat.mul_le_mul_left _ (pollExtremes_min_le iv t).2).trans (ht.low hcnt)
  high := ht.high.trans (Nat.mul_le_mul_left _ (le_pollExtremes_max iv t).2)
  mean := ht.mean
  bound := ht.bound.trans (le_pollExtremes_max iv t).2

/-- The intervals add up to at least the count times the minimum, also where there are none. -/
theorem cnt_mul_min_le {t : Stats} (ht : PollInv t) : t.pollCnt.toNat * t.pollMin.toNat ≤ t.pollSum.toNat := by
  by_cases hcnt : t.pollCnt = 0
  · simp [hcnt]
  · exact ht.low hcnt

/-- With one more interval the sum still lies between count times minimum and count times maximum. -/
theorem pollRecord_sum_bounds {t : Stats} (ht : PollInv t) (iv : U32) :
    (t.pollCnt.toNat + 1) * (pollRecord iv t).pollMin.toNat ≤ t.pollSum.toNat + iv.toNat ∧
    t.pollSum.toNat + iv.toNat ≤ (t.pollCnt.toNat + 1) * (pollRecord iv t).pollMax.toNat := by
  obtain ⟨hminIv, hmin⟩ : (pollRecord iv t).pollMin.toNat ≤ iv.toNat ∧ _ := pollExtremes_min_le iv t
  obtain ⟨hmaxIv, hmax⟩ : iv.toNat ≤ (pollRecord iv t).pollMax.toNat ∧ _ := le_pollExtremes_max iv t
  rw [Nat.succ_mul, Nat.succ_mul]
  constructor
  · exact Nat.add_le_add ((Nat.mul_le_mul_left _ hmin).trans (cnt_mul_min_le ht)) hminIv
  · exact Nat.add_le_add (ht.high.trans (Nat.mul_le_mul_left _ hmax)) hmaxIv

/-- A sum of fewer than 2^32 intervals does not wrap (R261). -/
theorem pollRecord_sum {t : Stats} (ht : PollInv t) (iv : U32) :
    (pollRecord iv t).pollSum.toNat = t.pollSum.toNat + iv.toNat := by
  obtain ⟨-, hhigh⟩ := pollRecord_sum_bounds ht iv
  have hcnt := t.pollCnt.isLt
  have hmax := (pollRecord iv t).pollMax.isLt
  have hroom : (t.pollCnt.toNat + 1) * (pollRecord iv t).pollMax.toNat ≤ 2 ^ 32 * (2 ^ 32 - 1) :=
    Nat.mul_le_mul (by omega) (by omega)
  have hiv : (iv.setWidth 64).toNat = iv.toNat := by bv_omega
  have hsum : (t.pollSum + iv.setWidth 64).toNat = t.pollSum.toNat + (iv.setWidth 64).toNat :=
    BitVec.toNat_add_of_lt (by omega)
  exact hsum.trans (by rw [hiv])

theorem pollRecord_cnt {t : Stats} (hroom : t.pollCnt ≠ 0xFFFFFFFF) (iv : U32) :
    (pollRecord iv t).pollCnt.toNat = t.pollCnt.toNat + 1 := by
  dsimp only [pollRecord]
  bv_omega

/-- The mean of the intervals with the new one fits, as it is at most the maximum. -/
theorem pollRecord_avg {t : Stats} (ht : PollInv t) (iv : U32) :
    (pollRecord iv t).pollAvg.toNat = (t.pollSum.toNat + iv.toNat) / (t.pollCnt.toNat + 1) ∧
    (pollRecord iv t).pollAvg.toNat ≤ (pollRecord iv t).pollMax.toNat := by
  obtain ⟨-, hhigh⟩ := pollRecord_sum_bounds ht iv
  have hmean : (t.pollSum.toNat + iv.toNat) / (t.pollCnt.toNat + 1) ≤ (pollRecord iv t).pollMax.toNat :=
    Nat.div_le_of_le_mul hhigh
  have havg : (pollRecord iv t).pollAvg.toNat = (t.pollSum.toNat + iv.toNat) / (t.pollCnt.toNat + 1) := by
    rw [← pollRecord_sum ht iv] at hmean ⊢
    exact Nat.mod_eq_of_lt (hmean.trans_lt (pollRecord iv t).pollMax.isLt)
  exact ⟨havg, havg ▸ hmean⟩

theorem pollInv_record {t : Stats} (ht : PollInv t) (hroom : t.pollCnt ≠ 0xFFFFFFFF) (iv : U32) :
    PollInv (pollRecord iv t) := by
  have hcnt := pollRecord_cnt hroom iv
  have hsum := pollRecord_sum ht iv
  obtain ⟨hlow, hhigh⟩ := pollRecord_sum_bounds ht iv
  obtain ⟨hmean, hbound⟩ := pollRecord_avg ht iv
  refine ⟨fun hzero => ?fresh, fun _ => ?low, ?high, fun _ => ?mean, hbound⟩
  case fresh =>
    rw [hzero] at hcnt
    cases hcnt
  case low => rwa [hcnt, hsum]
  case high => rwa [hcnt, hsum]
  case mean => rw [hmean, hcnt, hsum]

/-- One poll keeps the invariant: the first records nothing, and a later one widens the extremes and counts. -/
theorem pollInv_update {t : Stats} (ht : PollInv t) (now : U32) : PollInv (pollUpdate now t) := by
  cases hprev : t.pollHasPrev with
  | false =>
    rw [pollUpdate_of_first hprev]
    exact pollInv_of_pollPart_eq ht rfl
  | true =>
    by_cases hfull : t.pollCnt = 0xFFFFFFFF
    · rw [pollUpdate_of_full hprev hfull]
      exact pollInv_of_pollPart_eq (pollInv_extremes ht (now - t.pollLast) (by rw [hfull]; decide)) rfl
    · rw [pollUpdate_of_room hprev hfull]
      exact pollInv_of_pollPart_eq (pollInv_record ht hfull (now - t.pollLast)) rfl

/-! ## Every step (R261) -/

theorem addressStats_pollPart (p : Params) (a : Byte) (u : Stats) : pollPart (addressStats p a u) = pollPart u := by
  unfold addressStats
  split_ifs
  all_goals rfl

theorem commandStats_pollPart (c : Byte) (u : Stats) : pollPart (commandStats c u) = pollPart u := by
  unfold commandStats
  split_ifs
  all_goals rfl

theorem failureStats_pollPart (r : FailReason) (u : Stats) : pollPart (failureStats r u) = pollPart u := by
  unfold failureStats
  split
  all_goals rfl

/-- Of ENGINE's operations only STPOLL writes the poll statistics. -/
theorem pollInv_statsAfter {u : Stats} (hu : PollInv u) (i : Instr) (s : State) : PollInv (statsAfter i s u) := by
  unfold statsAfter
  split
  · exact pollInv_of_pollPart_eq hu rfl
  · exact pollInv_of_pollPart_eq hu (addressStats_pollPart _ _ u)
  · exact pollInv_of_pollPart_eq hu (commandStats_pollPart _ u)
  · exact pollInv_update hu s.now
  · exact pollInv_of_pollPart_eq hu (failureStats_pollPart _ u)
  · exact hu

theorem takeTurn_pollInv {τ : Turn} {s t : State} (hs : PollInv s.st) (h : takeTurn τ s = .next t) : PollInv t.st := by
  cases takeTurn_statsTurn h with
  | engine e i hentry hdec hi hexec =>
    rw [exec_engine_st hi (isWord_of_decodeWord hdec) hexec]
    exact pollInv_statsAfter hs i s
  | beside hst hpc => rwa [hst]

/-- Settles O49: a step is a turn taken in a state with the same statistics. -/
theorem stepKeepsPollInv : Obligations.StepKeepsPollInv := by
  unfold Obligations.StepKeepsPollInv
  intro s t hs h
  rw [← popTurn_st s] at hs
  exact takeTurn_pollInv hs h

/-! ## TREAD (R268) -/

/-- Above 0x0D there is no register. -/
theorem telRegOf_eq_none : ∀ v : Byte, 0x0D < v.toNat → telRegOf v = none := by
  decide

theorem decodeWord_tread_reserved {v : Byte} (hv : 0x0D < v.toNat) :
    decodeWord (mkWord 0x31 v) = .error (.operand 0x31 v) := by
  simp [decodeWord, decodeTidx, telRegOf_eq_none v hv]

/-- Settles O52: TREAD's one micro-step, register by register. -/
theorem treadDeliversRegister : Obligations.TreadDeliversRegister := by
  unfold Obligations.TreadDeliversRegister
  refine ⟨rfl, fun v s hv => ?reserved, fun s => ?reads⟩
  case reserved =>
    have hdec : decodeWord (v ++ (0x31 : Byte)) = .error (.operand 0x31 v) := decodeWord_tread_reserved hv
    rw [issue, hdec]
  case reads =>
    simp only [exec_tread, telValue, BitVec.ofNat_toNat, flag32, and_self]

end Sys2Proof.Proofs.Telemetry
end

