-- ==== Sys2Proof/Proofs/Counters.lean ====
section
/-! PROOFS. The transaction counters (44_telemetry.md R265): START adds a transaction to the total, and DISPATCH and
ABORT count it at addresses that only START leads to, so neither count passes the total until that wraps. -/

open Sys2Proof
open Sys2Proof.Machine

namespace Sys2Proof.Proofs.Counters

open Sys2Proof.Proofs.Statistics
open Sys2Proof.Proofs.Telemetry

/-! ## The control store -/

/-- Where the operations that count transactions stand in the control store (41_transaction_fsm.md R170). -/
theorem controlStore_counting : ∀ pc : Pc,
    (controlStore[pc.toNat]?.map (fun e => decodeWord e.word) = some (.ok .start) ↔ pc = 1) ∧
    (controlStore[pc.toNat]?.map (fun e => decodeWord e.word) = some (.ok .dispatch) ↔ pc = 3) ∧
    (controlStore[pc.toNat]?.map (fun e => decodeWord e.word) = some (.ok .abort) ↔ pc = 19) := by
  decide

/-- Only START begins a transaction: no other successor comes before DISPATCH, or before ABORT, where its entry did
not. -/
theorem before_nextPc (o : Branch) : ∀ pc : Pc, pc ≠ 1 →
    beforeDispatch (nextPc controlStore[pc.toNat]? pc o) ≤ beforeDispatch pc ∧
    beforeAbort (nextPc controlStore[pc.toNat]? pc o) ≤ beforeAbort pc := by
  cases o <;> decide

/-- DISPATCH's successors come after it. -/
theorem beforeDispatch_nextPc_dispatch (o : Branch) : beforeDispatch (nextPc controlStore[3]? 3 o) = 0 := by
  cases o <;> rfl

theorem beforeDispatch_le_one (pc : Pc) : beforeDispatch pc ≤ 1 := by
  unfold beforeDispatch
  split <;> omega

theorem beforeAbort_le_one (pc : Pc) : beforeAbort pc ≤ 1 := by
  unfold beforeAbort
  split <;> omega

/-! ## The counters over one operation -/

/-- A counter grows by at most one, also where it wraps. -/
theorem toNat_succ_le (x : U32) : (x + 1).toNat ≤ x.toNat + 1 := by
  bv_omega

/-- The counters that R265 relates. -/
def counters (u : Stats) : U32 × U32 × U32 × U32 := (u.total, u.controller, u.memcard, u.timeout)

theorem commandStats_counters (c : Byte) (u : Stats) : counters (commandStats c u) = counters u := by
  unfold commandStats
  split_ifs
  all_goals rfl

theorem pollUpdate_counters (now : U32) (u : Stats) : counters (pollUpdate now u) = counters u := by
  cases hprev : u.pollHasPrev with
  | false =>
    rw [pollUpdate_of_first hprev]
    rfl
  | true =>
    by_cases hfull : u.pollCnt = 0xFFFFFFFF
    · rw [pollUpdate_of_full hprev hfull]
      rfl
    · rw [pollUpdate_of_room hprev hfull]
      rfl

/-- DISPATCH counts a transaction as at most one kind. -/
theorem addressStats_counters (p : Params) (a : Byte) (u : Stats) :
    (addressStats p a u).controller.toNat + (addressStats p a u).memcard.toNat ≤
      u.controller.toNat + u.memcard.toNat + 1 ∧
    (addressStats p a u).total = u.total ∧ (addressStats p a u).timeout = u.timeout := by
  have hcontroller := toNat_succ_le u.controller
  have hmemcard := toNat_succ_le u.memcard
  unfold addressStats
  split_ifs
  all_goals refine ⟨?_, rfl, rfl⟩
  · show (u.controller + 1).toNat + u.memcard.toNat ≤ _
    omega
  · show u.controller.toNat + (u.memcard + 1).toNat ≤ _
    omega
  all_goals exact Nat.le_succ _

/-- ABORT counts at most one timeout. -/
theorem failureStats_counters (r : FailReason) (u : Stats) :
    (failureStats r u).timeout.toNat ≤ u.timeout.toNat + 1 ∧ (failureStats r u).total = u.total ∧
    (failureStats r u).controller = u.controller ∧ (failureStats r u).memcard = u.memcard := by
  unfold failureStats
  split
  · exact ⟨toNat_succ_le u.timeout, rfl, rfl, rfl⟩
  · exact ⟨Nat.le_succ _, rfl, rfl, rfl⟩

/-- Every ENGINE operation but START, DISPATCH and ABORT leaves the counters that R265 relates. -/
theorem statsAfter_counters {i : Instr} (hstart : i ≠ .start) (hdispatch : i ≠ .dispatch) (habort : i ≠ .abort)
    (s : State) (u : Stats) : counters (statsAfter i s u) = counters u := by
  unfold statsAfter
  split
  · exact absurd rfl hstart
  · exact absurd rfl hdispatch
  · exact commandStats_counters s.cmd u
  · exact pollUpdate_counters s.now u
  · exact absurd rfl habort
  · rfl

/-! ## Where `R.pc` goes -/

theorem dispatchOn_ends (a : Byte) (s : State) : ∃ o, (dispatchOn a s).pc = nextPc s.entry s.pc o := by
  unfold dispatchOn
  split_ifs
  all_goals exact ⟨_, rfl⟩

/-- DISPATCH always ends its operation. -/
theorem exec_dispatch_pc {s t : State} (h : exec .dispatch s = .next t) : ∃ o, t.pc = nextPc s.entry s.pc o := by
  simp only [exec, execDispatch] at h
  split at h <;> cases h
  exact dispatchOn_ends s.addr s

theorem exec_abort_pc {s t : State} (h : exec .abort s = .next t) : t.pc = nextPc s.entry s.pc .ok := by
  simp only [exec, execAbort] at h
  split at h <;> cases h
  rfl

/-- At an address other than START's no micro-step adds a transaction that is yet to be counted. -/
theorem before_exec_le {i : Instr} {s t : State} (hstore : s.store = controlStore) (hpc : s.pc ≠ 1)
    (hi : i.agent = .engine) (hword : i.isWord = true) (h : exec i s = .next t) :
    beforeDispatch t.pc ≤ beforeDispatch s.pc ∧ beforeAbort t.pc ≤ beforeAbort s.pc := by
  rcases exec_engine_pc hi hword h with hstays | ⟨o, hends⟩
  · rw [hstays]
    exact ⟨le_rfl, le_rfl⟩
  · rw [hends, State.entry, hstore]
    exact before_nextPc o s.pc hpc

/-! ## One turn keeps the counter relations -/

/-- A transition without a new transaction keeps the relations where neither sum grows: a count takes the place of the
transaction not yet counted. -/
theorem counterInv_of_le {s t : State} (hs : CounterInv s) (htotal : t.st.total = s.st.total)
    (hkinds : t.st.controller.toNat + t.st.memcard.toNat + beforeDispatch t.pc ≤
      s.st.controller.toNat + s.st.memcard.toNat + beforeDispatch s.pc)
    (htimeouts : t.st.timeout.toNat + beforeAbort t.pc ≤ s.st.timeout.toNat + beforeAbort s.pc) : CounterInv t where
  kinds := htotal ▸ hkinds.trans hs.kinds
  timeouts := htotal ▸ htimeouts.trans hs.timeouts

/-- START adds a transaction, which is not yet counted anywhere else. -/
theorem counterInv_start {s t : State} (hs : CounterInv s) (htotal : s.st.total ≠ 0xFFFFFFFF)
    (hst : t.st = { s.st with total := s.st.total + 1 }) : CounterInv t := by
  obtain ⟨hkinds, htimeouts⟩ := hs
  have hnew : t.st.total.toNat = s.st.total.toNat + 1 := by
    rw [hst]
    bv_omega
  have hdispatch := beforeDispatch_le_one t.pc
  have habort := beforeAbort_le_one t.pc
  constructor
  · rw [hnew, hst]
    dsimp only
    omega
  · rw [hnew, hst]
    dsimp only
    omega

/-- DISPATCH counts the transaction that waits for it, and its successors come after it. -/
theorem counterInv_dispatch {s t : State} (hs : CounterInv s) (hstore : s.store = controlStore) (hpc : s.pc = 3)
    (h : exec .dispatch s = .next t) : CounterInv t := by
  obtain ⟨hkinds, htotal, htimeout⟩ := addressStats_counters s.cfg s.addr s.st
  have hst : t.st = addressStats s.cfg s.addr s.st := exec_engine_st rfl rfl h
  obtain ⟨-, habort⟩ := before_exec_le hstore (by rw [hpc]; decide) rfl rfl h
  obtain ⟨o, ho⟩ := exec_dispatch_pc h
  have hafter : beforeDispatch t.pc = 0 := by
    rw [ho, State.entry, hstore, hpc]
    exact beforeDispatch_nextPc_dispatch o
  have hbefore : beforeDispatch s.pc = 1 := by rw [hpc]; rfl
  refine counterInv_of_le hs (hst ▸ htotal) ?_ ?_
  · rw [hafter, hbefore, hst]
    exact hkinds
  · rw [hst, htimeout]
    exact Nat.add_le_add_left habort _

/-- ABORT counts the transaction that may still time out, and ends at IDLEWAIT. -/
theorem counterInv_abort {s t : State} (hs : CounterInv s) (hstore : s.store = controlStore) (hpc : s.pc = 19)
    (h : exec .abort s = .next t) : CounterInv t := by
  obtain ⟨htimeout, htotal, hcontroller, hmemcard⟩ := failureStats_counters s.failReason s.st
  have hst : t.st = failureStats s.failReason s.st := exec_engine_st rfl rfl h
  have hidle : t.pc = 0 := by
    rw [exec_abort_pc h, State.entry, hstore, hpc]
    rfl
  have hbefore : beforeAbort s.pc = 1 := by rw [hpc]; rfl
  refine counterInv_of_le hs (hst ▸ htotal) ?_ ?_
  · rw [hst, hcontroller, hmemcard, hidle]
    exact Nat.le_add_right _ _
  · rw [hst, hidle, hbefore]
    exact htimeout

/-- Every other operation counts nothing and begins no transaction. -/
theorem counterInv_other {i : Instr} {s t : State} (hs : CounterInv s) (hstore : s.store = controlStore)
    (hpc : s.pc ≠ 1) (hi : i.agent = .engine) (hword : i.isWord = true) (hstart : i ≠ .start)
    (hdispatch : i ≠ .dispatch) (habort : i ≠ .abort) (h : exec i s = .next t) : CounterInv t := by
  have hsame : counters t.st = counters s.st := by
    rw [exec_engine_st hi hword h]
    exact statsAfter_counters hstart hdispatch habort s s.st
  simp only [counters, Prod.mk.injEq] at hsame
  obtain ⟨htotal, hcontroller, hmemcard, htimeout⟩ := hsame
  obtain ⟨hbeforeDispatch, hbeforeAbort⟩ := before_exec_le hstore hpc hi hword h
  refine counterInv_of_le hs htotal ?_ ?_
  · rw [hcontroller, hmemcard]
    exact Nat.add_le_add_left hbeforeDispatch _
  · rw [htimeout]
    exact Nat.add_le_add_left hbeforeAbort _

theorem takeTurn_counterInv {τ : Turn} {s t : State} (hs : CounterInv s) (hstore : s.store = controlStore)
    (htotal : s.st.total ≠ 0xFFFFFFFF) (h : takeTurn τ s = .next t) : CounterInv t := by
  cases takeTurn_statsTurn h with
  | beside hst hpc =>
    exact counterInv_of_le hs (by rw [hst]) (by rw [hst, hpc]) (by rw [hst, hpc])
  | engine e i hentry hdec hi hexec =>
    have hword : i.isWord = true := isWord_of_decodeWord hdec
    have hop : controlStore[s.pc.toNat]?.map (fun e => decodeWord e.word) = some (.ok i) := by
      rw [← hstore, ← hdec]
      exact congrArg (Option.map fun e => decodeWord e.word) hentry
    obtain ⟨hstartPc, hdispatchPc, habortPc⟩ := controlStore_counting s.pc
    by_cases hstart : i = .start
    · subst hstart
      exact counterInv_start hs htotal (exec_engine_st hi hword hexec)
    by_cases hdispatch : i = .dispatch
    · subst hdispatch
      exact counterInv_dispatch hs hstore (hdispatchPc.mp hop) hexec
    by_cases habort : i = .abort
    · subst habort
      exact counterInv_abort hs hstore (habortPc.mp hop) hexec
    have hpc : s.pc ≠ 1 := fun hpc =>
      hstart (Except.ok.inj (Option.some.inj (hop.symm.trans (hstartPc.mpr hpc))))
    exact counterInv_other hs hstore hpc hi hword hstart hdispatch habort hexec

/-- Settles O50: a step is a turn taken in a state with the same statistics, address and control store. -/
theorem stepKeepsCounterInv : Obligations.StepKeepsCounterInv := by
  unfold Obligations.StepKeepsCounterInv
  intro s t hbus hs htotal h
  have hpop : CounterInv (popTurn s) := counterInv_of_le hs (by simp) (by simp) (by simp)
  exact takeTurn_counterInv hpop ((popTurn_store s).trans hbus.store) (by simpa using htotal) h

end Sys2Proof.Proofs.Counters
end

