-- ==== Sys2Proof/Proofs/Flags.lean ====
section
/-! PROOFS. The interrupt, the environment and the flags (60_exceptions.md R284 to R288, R296, R300): what ISR, HOST and
TIMEBASE do in their one micro-step; that of ENGINE's operations only the named ones write a flag; and that the mask is
set exactly inside an acknowledge pulse. -/

open Sys2Proof
open Sys2Proof.Machine

namespace Sys2Proof.Proofs.Flags

open Sys2Proof.Proofs.Ownership
open Sys2Proof.Proofs.Memory
open Sys2Proof.Proofs.Transaction
open Sys2Proof.Proofs.ChannelTurns

/-! ## ISR, HOST and TIMEBASE -/

theorem takeInterrupt_eq (s : State) :
    takeInterrupt s = { s with irqPending := false, datDrv := .rel, ackDrv := .rel, active := false } := rfl

/-- Settles O53: the handler is the one function `takeInterrupt`, whatever the state. -/
theorem isrReleasesAndCancels : Obligations.IsrReleasesAndCancels := by
  unfold Obligations.IsrReleasesAndCancels
  refine ⟨rfl, fun s => ?_⟩
  rw [exec_isr, takeInterrupt_eq]

/-- A rise of SEL_N is latched (60_exceptions.md R285). -/
theorem hostStep_of_rise {s : State} {p : Pins} (hlow : s.pins.selN = false) (hhigh : p.selN = true) :
    hostStep p s = { s with pins := p, irqPending := true } := by
  simp [hostStep, hlow, hhigh]

theorem hostStep_of_no_rise {s : State} {p : Pins} (h : ¬(s.pins.selN = false ∧ p.selN = true)) :
    hostStep p s = { s with pins := p } := by
  have hno : (!s.pins.selN && p.selN) = false := by simpa using h
  rw [hostStep, hno, Bool.or_false]

theorem timebaseStep_eq (s : State) : timebaseStep s = { s with now := BitVec.ofNat 32 (s.now.toNat + 1) } := by
  rw [timebaseStep, counter_succ]

/-- Settles O6: HOST's step by whether select rises, and TIMEBASE's tick as a number. -/
theorem environmentSteps : Obligations.EnvironmentSteps := by
  unfold Obligations.EnvironmentSteps
  refine ⟨fun s p hlow hhigh => ?rise, fun s p hno => ?rest, fun s => ?tick⟩
  case rise => rw [takeTurn, hostStep_of_rise hlow hhigh]
  case rest => rw [takeTurn, hostStep_of_no_rise hno]
  case tick => rw [takeTurn, timebaseStep_eq]

/-! ## The flags over ENGINE's operations -/

/-- A micro-step from s to t leaves the four flags, and drives ACK low nowhere. -/
structure KeepsFlags (s t : State) : Prop where
  irqEnabled : t.irqEnabled = s.irqEnabled
  irqPending : t.irqPending = s.irqPending
  ackDrv : t.ackDrv = s.ackDrv ∨ t.ackDrv = .rel
  active : t.active = s.active
  selSeenHigh : t.selSeenHigh = s.selSeenHigh

theorem KeepsFlags.refl (s : State) : KeepsFlags s s := ⟨rfl, rfl, .inl rfl, rfl, rfl⟩

/-- The end of an operation writes none of them. -/
theorem KeepsFlags.done {s u : State} {o : Branch} (h : KeepsFlags s u) : KeepsFlags s (done o u) where
  irqEnabled := (done_irqEnabled o u).trans h.irqEnabled
  irqPending := (done_irqPending o u).trans h.irqPending
  ackDrv := by
    rw [done_ackDrv]
    exact h.ackDrv
  active := (done_active o u).trans h.active
  selSeenHigh := (done_selSeenHigh o u).trans h.selSeenHigh

theorem keepsFlags_ite {c : Prop} [Decidable c] {s t u : State} (ht : KeepsFlags s t) (hu : KeepsFlags s u) :
    KeepsFlags s (if c then t else u) := by
  split
  · exact ht
  · exact hu

/-- An edge wait keeps the flags where its two ends do. -/
theorem keepsFlags_waitStep {level : Bool} {bound : U32} {stay : WaitPos → Mpc} {onOk onFail : State → State}
    {p : WaitPos} {s : State} (hok : KeepsFlags s (onOk s)) (hfail : ∀ r, KeepsFlags s (onFail (raise r s))) :
    KeepsFlags s (waitStep level bound stay onOk onFail p s) := by
  rcases waitStep_cases level bound stay onOk onFail p s with ⟨-, h⟩ | ⟨-, h⟩ | ⟨-, r, h⟩ | ⟨-, h⟩ <;> rw [h]
  · exact ⟨rfl, rfl, .inl rfl, rfl, rfl⟩
  · exact hok
  · exact hfail r
  · exact .refl s

/-- A wait inside an operation. -/
theorem keepsFlags_waitStep_stepTo {level : Bool} {bound : U32} {stay : WaitPos → Mpc} {okMpc failMpc : Mpc}
    {p : WaitPos} {s : State} : KeepsFlags s (waitStep level bound stay (stepTo okMpc) (stepTo failMpc) p s) :=
  keepsFlags_waitStep ⟨rfl, rfl, .inl rfl, rfl, rfl⟩ fun _ => ⟨rfl, rfl, .inl rfl, rfl, rfl⟩

section Operations
variable {s t : State}

theorem execRx_keepsFlags (h : execRx s = .next t) : KeepsFlags s t := by
  unfold execRx at h
  split at h <;> cases h
  · exact ⟨rfl, rfl, .inl rfl, rfl, rfl⟩
  · exact keepsFlags_waitStep_stepTo
  · exact keepsFlags_waitStep_stepTo
  · have hsampled : KeepsFlags s { s with rx := setBit s.rx s.bit.val s.pins.cmd, bit := bitSucc s.bit } :=
      ⟨rfl, rfl, .inl rfl, rfl, rfl⟩
    exact keepsFlags_ite ⟨rfl, rfl, .inl rfl, rfl, rfl⟩ (keepsFlags_ite (.done hsampled) (.done hsampled))
  · exact .done ⟨rfl, rfl, .inl rfl, rfl, rfl⟩

/-- XFERI, XFERR and the identification bytes. -/
theorem xferStep_keepsFlags {v : Byte} (h : xferStep v s = .next t) : KeepsFlags s t := by
  unfold xferStep at h
  split at h <;> cases h
  · exact ⟨rfl, rfl, .inl rfl, rfl, rfl⟩
  · exact keepsFlags_waitStep_stepTo
  · exact ⟨rfl, rfl, .inl rfl, rfl, rfl⟩
  · exact ⟨rfl, rfl, .inl rfl, rfl, rfl⟩
  · exact keepsFlags_waitStep_stepTo
  · exact ⟨rfl, rfl, .inl rfl, rfl, rfl⟩
  · exact .done ⟨rfl, rfl, .inl rfl, rfl, rfl⟩
  · exact .done ⟨rfl, rfl, .inl rfl, rfl, rfl⟩

/-- TXI and TXR. -/
theorem txStep_keepsFlags {v : Byte} (h : txStep v s = .next t) : KeepsFlags s t := by
  unfold txStep at h
  split at h <;> cases h
  · exact ⟨rfl, rfl, .inl rfl, rfl, rfl⟩
  · exact keepsFlags_waitStep_stepTo
  · exact ⟨rfl, rfl, .inl rfl, rfl, rfl⟩
  · exact keepsFlags_waitStep_stepTo
  · exact ⟨rfl, rfl, .inl rfl, rfl, rfl⟩
  · exact .done ⟨rfl, rfl, .inl rfl, rfl, rfl⟩
  · exact .done ⟨rfl, rfl, .inl rfl, rfl, rfl⟩

/-- WAITF and WAITR. -/
theorem waitOp_keepsFlags {level : Bool} {u : TimeoutSel} (h : waitOp level u s = .next t) : KeepsFlags s t := by
  unfold waitOp at h
  split at h <;> cases h
  exact keepsFlags_waitStep (.done (.refl s)) fun _ => .done ⟨rfl, rfl, .inl rfl, rfl, rfl⟩

theorem execDelay_keepsFlags {d : DelaySel} (h : execDelay d s = .next t) : KeepsFlags s t := by
  unfold execDelay at h
  split at h <;> cases h
  · exact ⟨rfl, rfl, .inl rfl, rfl, rfl⟩
  · exact keepsFlags_ite (.done (.refl s)) (.refl s)

theorem execMcwait_keepsFlags (h : execMcwait s = .next t) : KeepsFlags s t := by
  unfold execMcwait at h
  split at h <;> cases h
  · exact ⟨rfl, rfl, .inr rfl, rfl, rfl⟩
  · exact keepsFlags_ite (.done (.refl s)) (.refl s)

theorem exec_chr_keepsFlags (h : exec .chr s = .next t) : KeepsFlags s t := by
  rcases execChr_cases h with ⟨-, i, -, rfl⟩ | ⟨-, rfl⟩ | ⟨-, rfl⟩ | ⟨-, rfl⟩ | ⟨-, rfl⟩
  case inr.inr.inr.inr => exact .done ⟨rfl, rfl, .inl rfl, rfl, rfl⟩
  all_goals exact ⟨rfl, rfl, .inl rfl, rfl, rfl⟩

theorem atDispatch_keepsFlags {f : State → State} (h : atDispatch f s = .next t) (hf : KeepsFlags s (f s)) :
    KeepsFlags s t := by
  unfold atDispatch at h
  split at h <;> cases h
  exact hf

theorem dispatchOn_keepsFlags (a : Byte) : KeepsFlags s (dispatchOn a s) := by
  refine keepsFlags_ite ?_ (keepsFlags_ite ?_ (keepsFlags_ite ?_ ?_))
  all_goals exact .done ⟨rfl, rfl, .inl rfl, rfl, rfl⟩

theorem atCmdchk_keepsFlags {f : State → State} (h : atCmdchk f s = .next t) (hf : KeepsFlags s (f s)) :
    KeepsFlags s t := by
  unfold atCmdchk at h
  split at h <;> cases h
  exact hf

theorem commandOn_keepsFlags (c : Byte) : KeepsFlags s (commandOn c s) := by
  refine keepsFlags_ite ?_ (keepsFlags_ite ?_ ?_)
  all_goals exact .done ⟨rfl, rfl, .inl rfl, rfl, rfl⟩

/-- Every ENGINE instruction but the five that write a flag. -/
theorem exec_keepsFlags {i : Instr} (hi : i.agent = .engine) (hack : i ≠ .ack) (hstart : i ≠ .start)
    (hend : i ≠ .endTxn) (habort : i ≠ .abort) (hidle : i ≠ .idlewait) (h : exec i s = .next t) : KeepsFlags s t := by
  cases i with
  | ack => exact absurd rfl hack
  | start => exact absurd rfl hstart
  | endTxn => exact absurd rfl hend
  | abort => exact absurd rfl habort
  | idlewait => exact absurd rfl hidle
  | rx => exact execRx_keepsFlags h
  | delay d => exact execDelay_keepsFlags h
  | mcwait => exact execMcwait_keepsFlags h
  | chr => exact exec_chr_keepsFlags h
  | xferi _ | xferr _ | idLow | idHigh => exact xferStep_keepsFlags h
  | txi _ | txr _ => exact txStep_keepsFlags h
  | waitf _ | waitr _ => exact waitOp_keepsFlags h
  | dispatch => exact atDispatch_keepsFlags h (dispatchOn_keepsFlags s.addr)
  | addrController | addrMemcard | addrIgnored _ | addrInvalid _ =>
    exact atDispatch_keepsFlags h (.done ⟨rfl, rfl, .inl rfl, rfl, rfl⟩)
  | cmdchk => exact atCmdchk_keepsFlags h (commandOn_keepsFlags s.cmd)
  | cmdPoll | cmdSentinel | cmdOther _ => exact atCmdchk_keepsFlags h (.done ⟨rfl, rfl, .inl rfl, rfl, rfl⟩)
  | relbus =>
    simp only [exec, execRelbus] at h
    split at h <;> cases h
    exact .done ⟨rfl, rfl, .inr rfl, rfl, rfl⟩
  | calobs _ | stpoll | caltick | addrSentinel =>
    simp only [exec, execCalobs, execStpoll, execCaltick, execAddrSentinel] at h
    split at h <;> cases h
    exact .done ⟨rfl, rfl, .inl rfl, rfl, rfl⟩
  | chw | isr | tread _ => cases hi

/-- ACK, the only operation that masks, drains and drives ACK low, leaves the other two flags. -/
theorem exec_ack_flags (h : exec .ack s = .next t) : t.active = s.active ∧ t.selSeenHigh = s.selSeenHigh := by
  simp only [exec, execAck] at h
  split at h <;> cases h
  case h_2 | h_3 | h_6 => split <;> simp [raise]
  all_goals simp

/-- IDLEWAIT writes `R.sel_seen_high` alone (41_transaction_fsm.md R171). -/
theorem exec_idlewait_flags (h : exec .idlewait s = .next t) :
    t.irqEnabled = s.irqEnabled ∧ t.irqPending = s.irqPending ∧ t.ackDrv = s.ackDrv ∧ t.active = s.active := by
  simp only [exec, execIdlewait, idlePoll] at h
  split at h <;> cases h
  all_goals split_ifs <;> simp

/-- START sets `R.active` and clears `R.sel_seen_high` (41_transaction_fsm.md R172). -/
theorem exec_start_flags (h : exec .start s = .next t) :
    t.irqEnabled = s.irqEnabled ∧ t.irqPending = s.irqPending ∧ t.ackDrv = s.ackDrv := by
  simp only [exec, execStart] at h
  split at h <;> cases h
  simp

/-- END and ABORT release the lines and clear `R.active` (41_transaction_fsm.md R187, R188). -/
theorem exec_end_flags {i : Instr} (hi : i = .endTxn ∨ i = .abort) (h : exec i s = .next t) :
    t.irqEnabled = s.irqEnabled ∧ t.irqPending = s.irqPending ∧ t.ackDrv = .rel ∧ t.selSeenHigh = s.selSeenHigh := by
  rcases hi with rfl | rfl
  all_goals
    simp only [exec, execEnd, execAbort] at h
    split at h <;> cases h
    simp

end Operations

/-- Settles O56: the five operations that write a flag one by one, every other one by `exec_keepsFlags`. -/
theorem flagsChangeOnlyWhereStated : Obligations.FlagsChangeOnlyWhereStated := by
  unfold Obligations.FlagsChangeOnlyWhereStated
  intro i s t hi h
  by_cases hack : i = .ack
  · subst hack
    obtain ⟨hactive, hseen⟩ := exec_ack_flags h
    exact ⟨fun hne => absurd rfl hne, fun _ _ _ => hactive, fun _ _ => hseen⟩
  by_cases hidle : i = .idlewait
  · subst hidle
    obtain ⟨henabled, hpending, hdrv, hactive⟩ := exec_idlewait_flags h
    exact ⟨fun _ => ⟨henabled, hpending, .inl hdrv⟩, fun _ _ _ => hactive, fun _ hne => absurd rfl hne⟩
  by_cases hstart : i = .start
  · subst hstart
    obtain ⟨henabled, hpending, hdrv⟩ := exec_start_flags h
    exact ⟨fun _ => ⟨henabled, hpending, .inl hdrv⟩, fun hne => absurd rfl hne, fun hne => absurd rfl hne⟩
  by_cases hends : i = .endTxn ∨ i = .abort
  · obtain ⟨henabled, hpending, hdrv, hseen⟩ := exec_end_flags hends h
    exact ⟨fun _ => ⟨henabled, hpending, .inr hdrv⟩, fun _ hend habort => absurd hends (not_or.mpr ⟨hend, habort⟩),
      fun _ _ => hseen⟩
  obtain ⟨hend, habort⟩ := not_or.mp hends
  obtain ⟨henabled, hpending, hdrv, hactive, hseen⟩ := exec_keepsFlags hi hack hstart hend habort hidle h
  exact ⟨fun _ => ⟨henabled, hpending, hdrv⟩, fun _ _ _ => hactive, fun _ _ => hseen⟩

/-! ## The mask over every turn (R288) -/

/-- The interrupt is masked exactly inside a pulse: the mask's clause of the bus invariant. -/
def MaskedInPulse (s : State) : Prop := s.irqEnabled = !maskedAt s.mpc

/-- An ENGINE micro-step that goes on is one of its operation's own (10_state.md R41; entry 5). -/
theorem ownsMpc_of_exec {i : Instr} {s t : State} (hi : i.agent = .engine) (h : exec i s = .next t) :
    ownsMpc i s.mpc = true := by
  by_contra hforeign
  rw [exec_foreign hi (Bool.eq_false_iff.mpr hforeign)] at h
  cases h

/-- The masked micro-steps are ACK's. -/
theorem maskedAt_of_ownsMpc {i : Instr} {m : Mpc} (hack : i ≠ .ack) (hown : ownsMpc i m = true) :
    maskedAt m = false := by
  unfold maskedAt
  split
  case h_4 => rfl
  all_goals
    cases i with
    | ack => exact absurd rfl hack
    | _ => cases hown

theorem maskedAt_firstMpc (i : Instr) : maskedAt (firstMpc i) = false := by
  cases i <;> rfl

/-- No operation begins inside a pulse. -/
theorem maskedAt_done (o : Branch) (s : State) : maskedAt (done o s).mpc = false := by
  obtain ⟨i, hi⟩ := entryMpc_eq_firstMpc s.store (nextPc s.entry s.pc o)
  rw [done_mpc, hi, maskedAt_firstMpc]

theorem maskedAt_of_staysOrEnds {i : Instr} {t : State} (hack : i ≠ .ack) (h : StaysOrEnds (ownsMpc i) t) :
    maskedAt t.mpc = false := by
  cases h with
  | stays hown => exact maskedAt_of_ownsMpc hack hown
  | ends o u => exact maskedAt_done o u

/-- ACK masks at a3 and unmasks at a6 (40_bus_primitives.md R148). -/
theorem exec_ack_maskedInPulse {s t : State} (hs : MaskedInPulse s) (h : exec .ack s = .next t) : MaskedInPulse t := by
  simp only [exec, execAck] at h
  unfold MaskedInPulse at hs ⊢
  split at h <;> rename_i hm <;> cases h <;> rw [hm] at hs
  case h_1 | h_5 => exact hs
  case h_2 | h_6 => split <;> simp_all [maskedAt]
  case h_3 =>
    split
    · rw [maskedAt_done, done_irqEnabled]
      exact hs
    · exact hs
  case h_4 => rfl
  case h_7 => rw [maskedAt_done, done_irqEnabled, Bool.not_false]

/-- Another operation leaves the mask, and neither stands nor leads inside a pulse. -/
theorem exec_maskedInPulse {i : Instr} {s t : State} (hi : i.agent = .engine) (hs : MaskedInPulse s)
    (h : exec i s = .next t) : MaskedInPulse t := by
  by_cases hack : i = .ack
  · subst hack
    exact exec_ack_maskedInPulse hs h
  · obtain ⟨hirq, -, -⟩ := flagsChangeOnlyWhereStated i s t hi h
    obtain ⟨henabled, -, -⟩ := hirq hack
    have hbefore : maskedAt s.mpc = false := maskedAt_of_ownsMpc hack (ownsMpc_of_exec hi h)
    have hafter : maskedAt t.mpc = false := maskedAt_of_staysOrEnds hack (exec_engine_staysOrEnds hi h)
    rw [MaskedInPulse, henabled, hs, hbefore, hafter]

theorem takeTurn_maskedInPulse {τ : Turn} {s t : State} (hs : MaskedInPulse s) (h : takeTurn τ s = .next t) :
    MaskedInPulse t := by
  cases takeTurn_effect h with
  | engine _ hi hexec => exact exec_maskedInPulse hi hs hexec
  | writer hexec =>
    rw [exec_chw_frame hexec]
    exact hs
  | isr _ | telemetry w x | host p | timebase => exact hs

theorem run_maskedInPulse {σ : Nat → State} {τ : Nat → Turn} (hrun : isRun σ τ) (h0 : MaskedInPulse (σ 0)) (n : Nat) :
    MaskedInPulse (σ n) := by
  induction n with
  | zero => exact h0
  | succ n ih => exact takeTurn_maskedInPulse ih (hrun n)

end Sys2Proof.Proofs.Flags
end

