-- ==== Sys2Proof/Proofs/Waits.lean ====
section
/-! PROOFS. Where an ENGINE micro-step leads (40_bus_primitives.md R143 to R150; 41_transaction_fsm.md R170, R175):
every operation but IDLEWAIT polls on, comes nearer to its end, or ends with one of its outcomes; and in the fixed
control store every outcome leads nearer to address 0. -/

open Sys2Proof
open Sys2Proof.Machine

namespace Sys2Proof.Proofs.Waits

open Sys2Proof.Proofs.Memory
open Sys2Proof.Proofs.Transaction
open Sys2Proof.Proofs.Flags

/-! ## How far an operation is from its end -/

/-- How many micro-steps at most an operation at a label has left before its last one, or, inside a byte, before the
next bit. -/
def labelLeft (m : Mpc) : Nat :=
  match m with
  | .x0 | .y0 | .t0 => 80
  | .x1 .w0 | .y1 .w0 | .t1 .w0 => 7
  | .x1 .w1 | .y1 .w1 | .t1 .w1 => 6
  | .x2 .w0 | .y2 | .t2 => 5
  | .x2 .w1 | .y3 | .t3 .w0 => 4
  | .x3 | .y4 .w0 | .t3 .w1 => 3
  | .y4 .w1 | .t4 => 2
  | .y5 => 1
  | .a0 => 6
  | .a1 => 5
  | .a2 => 4
  | .a3 => 3
  | .a4 => 2
  | .a5 => 1
  | .r1 => 4
  | .r2 => 3
  | .r3 => 2
  | .r4 => 1
  | .d0 | .m0 | .w .w0 => 1
  | _ => 0

/-- How many micro-steps at most an operation has left before its last one, where a poll that repeats counts once: each
bit of a byte that is still to come takes eight at most. -/
def microLeft (m : Mpc) (bit : Fin 9) : Nat := labelLeft m + if insideByte m = true then 8 * (8 - bit.val) else 0

theorem microLeft_lt (m : Mpc) (bit : Fin 9) : microLeft m bit < 100 := by
  have hlabel : labelLeft m ≤ 80 ∧ (insideByte m = true → labelLeft m ≤ 7) := by
    unfold labelLeft
    split <;> simp [insideByte]
  unfold microLeft
  split
  · next hinside =>
    have := hlabel.2 hinside
    omega
  · omega

/-- The next bit of a byte is nearer to the end, whatever the label. -/
theorem microLeft_next_bit {m m' : Mpc} {bit : Fin 9} (hm : insideByte m = true) (hm' : insideByte m' = true)
    (hle : labelLeft m' ≤ 7) (hpos : 0 < labelLeft m) (hbit : (bitSucc bit).val < 8) :
    microLeft m' (bitSucc bit) < microLeft m bit := by
  have hlt : bit.val < 8 := by
    by_contra hge
    rw [bitSucc, dif_neg hge] at hbit
    exact absurd hbit (by decide)
  rw [bitSucc_val hlt] at hbit
  rw [microLeft, microLeft, if_pos hm, if_pos hm', bitSucc_val hlt]
  omega

/-! ## One micro-step -/

/-- The outcomes an operation with an operation word can end with (00_scope.md R19). -/
def outcomes (i : Instr) : List Branch :=
  match i with
  | .rx | .ack | .xferi _ | .xferr _ | .txi _ | .txr _ | .waitf _ | .waitr _ => [.ok, .fail]
  | .dispatch => [.ctl, .mc, .ign, .inv]
  | .cmdchk => [.poll, .sentinel, .other]
  | _ => [.ok]

/-- What an ENGINE micro-step of i from s can lead to. -/
inductive Progress (i : Instr) (s : State) : State → Prop
  /-- A wait or delay whose bound is not reached polls again. -/
  | polls {d : U32} (hbound : pollBound i s = some d) (helapsed : startElapsed d s = false) : Progress i s s
  /-- MCWAIT waits for HOST without a bound (41_transaction_fsm.md R175). -/
  | waitsForHost (hop : i = .mcwait) (hmpc : s.mpc = .m1) (habort : aborted s = false) : Progress i s s
  /-- The operation comes nearer to its end. -/
  | moves {t : State} (hpc : t.pc = s.pc) (hmpc : t.mpc ≠ s.mpc)
      (hless : microLeft t.mpc t.bit < microLeft s.mpc s.bit) : Progress i s t
  /-- The operation ends. -/
  | ends {o : Branch} {u : State} (hout : o ∈ outcomes i) (hpc : u.pc = s.pc) (hstore : u.store = s.store) :
      Progress i s (done o u)

/-- A later label, whatever the bit. -/
theorem Progress.label {i : Instr} {s t : State} {m m' : Mpc} (hm : s.mpc = m) (hm' : t.mpc = m') (hpc : t.pc = s.pc)
    (hless : ∀ b b', microLeft m' b' < microLeft m b) : Progress i s t := by
  subst hm hm'
  refine .moves hpc (fun heq => ?_) (hless s.bit t.bit)
  exact absurd (heq ▸ hless s.bit s.bit) (Nat.lt_irrefl _)

/-- A later label of the same bit. -/
theorem Progress.sameBit {i : Instr} {s t : State} {m m' : Mpc} (hm : s.mpc = m) (hm' : t.mpc = m') (hpc : t.pc = s.pc)
    (hbit : t.bit = s.bit) (hless : ∀ b, microLeft m' b < microLeft m b) : Progress i s t := by
  subst hm hm'
  refine .moves hpc (fun heq => ?_) (hbit ▸ hless t.bit)
  exact absurd (heq ▸ hless s.bit) (Nat.lt_irrefl _)

/-- The first label of the next bit. -/
theorem Progress.nextBit {i : Instr} {s t : State} {m m' : Mpc} (hm : s.mpc = m) (hm' : t.mpc = m') (hpc : t.pc = s.pc)
    (hbit : t.bit = bitSucc s.bit) (hmore : (bitSucc s.bit).val < 8)
    (hlabels : insideByte m = true ∧ insideByte m' = true ∧ labelLeft m' ≤ 7 ∧ 0 < labelLeft m ∧ m' ≠ m) :
    Progress i s t := by
  obtain ⟨hin, hin', hle, hpos, hne⟩ := hlabels
  subst hm hm'
  refine .moves hpc hne ?_
  rw [hbit]
  exact microLeft_next_bit hin hin' hle hpos hmore

theorem progress_ite {i : Instr} {c : Prop} [Decidable c] {s t u : State} (ht : c → Progress i s t)
    (hu : ¬c → Progress i s u) : Progress i s (if c then t else u) := by
  split
  · next hc => exact ht hc
  · next hc => exact hu hc

/-- A poll of a delay: it repeats, or goes on where its time has passed. -/
theorem progress_delay {i : Instr} {s t : State} {d : U32} (hbound : pollBound i s = some d) (ht : Progress i s t) :
    Progress i s (if startElapsed d s then t else s) :=
  progress_ite (fun _ => ht) fun h => .polls hbound (Bool.eq_false_iff.mpr h)

/-- An edge wait takes the time, polls again, or goes on to one of its two ends. -/
theorem progress_waitStep {i : Instr} {level : Bool} {bound : U32} {stay : WaitPos → Mpc} {onOk onFail : State → State}
    {p : WaitPos} {s : State} (hm : s.mpc = stay p) (hbound : s.mpc = stay .w1 → pollBound i s = some bound)
    (hlabel : ∀ b, microLeft (stay .w1) b < microLeft (stay .w0) b) (hok : s.mpc = stay .w1 → Progress i s (onOk s))
    (hfail : s.mpc = stay .w1 → ∀ r, Progress i s (onFail (raise r s))) :
    Progress i s (waitStep level bound stay onOk onFail p s) := by
  cases p with
  | w0 => exact .sameBit (m' := stay .w1) hm rfl rfl rfl hlabel
  | w1 =>
    unfold waitStep
    rcases pollEdge_cases level bound s with ⟨-, h⟩ | ⟨-, -, h⟩ | ⟨-, -, -, h⟩ | ⟨-, -, helapsed, h⟩ <;> rw [h]
    · exact hfail hm _
    · exact hok hm
    · exact hfail hm _
    · exact .polls (hbound hm) helapsed

/-- A wait inside an operation: both its ends are later labels. -/
theorem progress_waitStep_stepTo {i : Instr} {level : Bool} {bound : U32} {stay : WaitPos → Mpc} {okMpc failMpc : Mpc}
    {p : WaitPos} {s : State} (hm : s.mpc = stay p) (hbound : s.mpc = stay .w1 → pollBound i s = some bound)
    (hlabel : ∀ b, microLeft (stay .w1) b < microLeft (stay .w0) b)
    (hok : ∀ b, microLeft okMpc b < microLeft (stay .w1) b)
    (hfail : ∀ b, microLeft failMpc b < microLeft (stay .w1) b) :
    Progress i s (waitStep level bound stay (stepTo okMpc) (stepTo failMpc) p s) :=
  progress_waitStep hm hbound hlabel (fun h => .sameBit h rfl rfl rfl hok) fun h _ => .sameBit h rfl rfl rfl hfail

/-! ## ENGINE's operations -/

section Operations
variable {s t : State}

theorem rxSample_progress (hm : s.mpc = .x3) : Progress .rx s (rxSample s) := by
  refine progress_ite (fun hmore => ?next) fun _ => progress_ite (fun _ => ?sentinel) fun _ => ?byte
  case next => exact .nextBit (m' := .x1 .w0) hm rfl rfl rfl hmore (by decide)
  case sentinel => exact .ends (by decide) rfl rfl
  case byte => exact .ends (by decide) rfl rfl

theorem execRx_progress (h : execRx s = .next t) : Progress .rx s t := by
  unfold execRx at h
  split at h <;> rename_i hm <;> cases h
  · exact .label (m' := .x1 .w0) hm rfl rfl (by decide)
  · exact progress_waitStep_stepTo hm (fun h => by simp [pollBound, h]) (by decide) (by decide) (by decide)
  · exact progress_waitStep_stepTo hm (fun h => by simp [pollBound, h]) (by decide) (by decide) (by decide)
  · exact rxSample_progress hm
  · exact .ends (by decide) rfl rfl

/-- XFERI and XFERR, which have their labels and outcomes in common. -/
theorem xferStep_progress {i : Instr} {v : Byte} (hi : outcomes i = [.ok, .fail]) (h : xferStep v s = .next t) :
    Progress i s t := by
  unfold xferStep at h
  split at h <;> rename_i hm <;> cases h
  · exact .label (m' := .y1 .w0) hm rfl rfl (by decide)
  · exact progress_waitStep_stepTo hm (fun h => by simp [pollBound, h]) (by decide) (by decide) (by decide)
  · exact .sameBit (m' := .y3) hm rfl rfl rfl (by decide)
  · exact .sameBit (m' := .y4 .w0) hm rfl rfl rfl (by decide)
  · exact progress_waitStep_stepTo hm (fun h => by simp [pollBound, h]) (by decide) (by decide) (by decide)
  · by_cases hmore : (bitSucc s.bit).val < 8
    · exact .nextBit (m' := .y1 .w0) hm (if_pos hmore) rfl rfl hmore (by decide)
    · exact .label (m' := .y6) hm (if_neg hmore) rfl (by decide)
  · exact .ends (by simp [hi]) rfl rfl
  · exact .ends (by simp [hi]) rfl rfl

/-- TXI and TXR, which have their labels and outcomes in common. -/
theorem txStep_progress {i : Instr} {v : Byte} (hi : outcomes i = [.ok, .fail]) (h : txStep v s = .next t) :
    Progress i s t := by
  unfold txStep at h
  split at h <;> rename_i hm <;> cases h
  · exact .label (m' := .t1 .w0) hm rfl rfl (by decide)
  · exact progress_waitStep_stepTo hm (fun h => by simp [pollBound, h]) (by decide) (by decide) (by decide)
  · exact .sameBit (m' := .t3 .w0) hm rfl rfl rfl (by decide)
  · exact progress_waitStep_stepTo hm (fun h => by simp [pollBound, h]) (by decide) (by decide) (by decide)
  · by_cases hmore : (bitSucc s.bit).val < 8
    · exact .nextBit (m' := .t1 .w0) hm (if_pos hmore) rfl rfl hmore (by decide)
    · exact .label (m' := .t5) hm (if_neg hmore) rfl (by decide)
  · exact .ends (by simp [hi]) rfl rfl
  · exact .ends (by simp [hi]) rfl rfl

/-- WAITF and WAITR. -/
theorem waitOp_progress {i : Instr} {level : Bool} {u : TimeoutSel} (hi : outcomes i = [.ok, .fail])
    (hbound : s.mpc = .w .w1 → pollBound i s = some (boundOf u s.cfg)) (h : waitOp level u s = .next t) :
    Progress i s t := by
  unfold waitOp at h
  split at h <;> rename_i hm <;> cases h
  exact progress_waitStep hm hbound (by decide) (fun _ => .ends (by simp [hi]) rfl rfl)
    fun _ _ => .ends (by simp [hi]) rfl rfl

theorem execAck_progress (h : execAck s = .next t) : Progress .ack s t := by
  unfold execAck at h
  split at h <;> rename_i hm <;> cases h
  · exact .label (m' := .a1) hm rfl rfl (by decide)
  · exact progress_delay (by simp [pollBound, hm]) (.label (m' := .a2) hm rfl rfl (by decide))
  · exact progress_ite (fun _ => .ends (by decide) rfl rfl) fun _ => .label (m' := .a3) hm rfl rfl (by decide)
  · exact .label (m' := .a4) hm rfl rfl (by decide)
  · exact .label (m' := .a5) hm rfl rfl (by decide)
  · exact progress_delay (by simp [pollBound, hm]) (.label (m' := .a6) hm rfl rfl (by decide))
  · exact .ends (by decide) rfl rfl

theorem execDelay_progress {d : DelaySel} (h : execDelay d s = .next t) : Progress (.delay d) s t := by
  unfold execDelay at h
  split at h <;> rename_i hm <;> cases h
  · exact .label (m' := .d1) hm rfl rfl (by decide)
  · exact progress_delay (by simp [pollBound, hm]) (.ends (List.mem_singleton.mpr rfl) rfl rfl)

theorem execMcwait_progress (h : execMcwait s = .next t) : Progress .mcwait s t := by
  unfold execMcwait at h
  split at h <;> rename_i hm <;> cases h
  · exact .label (m' := .m1) hm rfl rfl (by decide)
  · exact progress_ite (fun _ => .ends (by decide) rfl rfl) fun habort =>
      .waitsForHost rfl hm (Bool.eq_false_iff.mpr habort)

theorem exec_chr_progress (h : exec .chr s = .next t) : Progress .chr s t := by
  rcases execChr_cases h with ⟨hm, i, -, rfl⟩ | ⟨hm, rfl⟩ | ⟨hm, rfl⟩ | ⟨hm, rfl⟩ | ⟨-, rfl⟩
  · exact .label (m' := .r2) hm rfl rfl (by decide)
  · exact .label (m' := .r3) hm rfl rfl (by decide)
  · exact .label (m' := .r4) hm rfl rfl (by decide)
  · exact .label (m' := .r5) hm rfl rfl (by decide)
  · exact .ends (by decide) rfl rfl

theorem execDispatch_progress (h : execDispatch s = .next t) : Progress .dispatch s t := by
  unfold execDispatch at h
  split at h <;> cases h
  refine progress_ite (fun _ => ?_) fun _ => progress_ite (fun _ => ?_) fun _ => progress_ite (fun _ => ?_) fun _ => ?_
  all_goals exact .ends (by decide) rfl rfl

theorem execCmdchk_progress (h : execCmdchk s = .next t) : Progress .cmdchk s t := by
  unfold execCmdchk at h
  split at h <;> cases h
  refine progress_ite (fun _ => ?_) fun _ => progress_ite (fun _ => ?_) fun _ => ?_
  all_goals exact .ends (by decide) rfl rfl

/-- Every operation of a control store but IDLEWAIT, which may wait for select without end. -/
theorem exec_progress {i : Instr} (hi : i.agent = .engine) (hword : i.isWord = true) (hidle : i ≠ .idlewait)
    (h : exec i s = .next t) : Progress i s t := by
  cases i with
  | idlewait => exact absurd rfl hidle
  | rx => exact execRx_progress h
  | dispatch => exact execDispatch_progress h
  | ack => exact execAck_progress h
  | delay d => exact execDelay_progress h
  | xferi _ | xferr _ => exact xferStep_progress rfl h
  | cmdchk => exact execCmdchk_progress h
  | chr => exact exec_chr_progress h
  | mcwait => exact execMcwait_progress h
  | txi _ | txr _ => exact txStep_progress rfl h
  | waitf _ | waitr _ => exact waitOp_progress rfl (fun hm => by simp [pollBound, hm]) h
  | start | calobs _ | stpoll | endTxn | abort | relbus | caltick =>
    simp only [exec, execStart, execCalobs, execStpoll, execEnd, execAbort, execRelbus, execCaltick] at h
    split at h <;> cases h
    exact .ends (List.mem_singleton.mpr rfl) rfl rfl
  | chw | isr | tread _ => cases hi
  | addrController | addrMemcard | addrSentinel | addrIgnored _ | addrInvalid _ | cmdPoll | cmdSentinel | cmdOther _ |
    idLow | idHigh => cases hword

end Operations

/-! ## A poll -/

/-- No operation begins at a poll. -/
theorem pollBound_of_firstMpc {i j : Instr} {s : State} (h : s.mpc = firstMpc j) : pollBound i s = none := by
  unfold pollBound
  rw [h]
  cases j <;> rfl

/-- The end of an operation leaves the label of its poll. -/
theorem done_mpc_ne_of_poll {i : Instr} {s : State} {d : U32} (hbound : pollBound i s = some d) (o : Branch)
    (u : State) : (done o u).mpc ≠ s.mpc := by
  intro heq
  obtain ⟨j, hj⟩ := entryMpc_eq_firstMpc u.store (nextPc u.entry u.pc o)
  have hfirst : s.mpc = firstMpc j := heq.symm.trans ((done_mpc o u).trans hj)
  rw [pollBound_of_firstMpc hfirst] at hbound
  cases hbound

/-- IDLEWAIT polls at i1 alone. -/
theorem exec_idlewait_poll {s t : State} {d : U32} (hbound : pollBound .idlewait s = some d)
    (h : exec .idlewait s = .next t) : (t = s ∧ startElapsed d s = false) ∨ t.mpc ≠ s.mpc := by
  have hown : ownsMpc .idlewait s.mpc = true := ownsMpc_of_exec rfl h
  have hm : s.mpc = .i1 := by
    unfold pollBound at hbound
    split at hbound <;> simp_all [ownsMpc]
  have hd : d = s.cfg.debounce := by
    simpa [pollBound, hm] using hbound.symm
  rw [exec_idlewait_i1 hm] at h
  cases h
  split
  · next hover => exact .inr (by simp [hm])
  · next hopen => exact .inl ⟨rfl, by rw [hd]; exact Bool.eq_false_iff.mpr hopen⟩

/-- A poll that does not leave its label changes nothing, and finds its bound not reached. -/
theorem exec_poll {i : Instr} {s t : State} {d : U32} (hi : i.agent = .engine) (hword : i.isWord = true)
    (hbound : pollBound i s = some d) (h : exec i s = .next t) :
    (t = s ∧ startElapsed d s = false) ∨ t.mpc ≠ s.mpc := by
  by_cases hidle : i = .idlewait
  · subst hidle
    exact exec_idlewait_poll hbound h
  cases exec_progress hi hword hidle h with
  | polls hbound' helapsed =>
    cases hbound.symm.trans hbound'
    exact .inl ⟨rfl, helapsed⟩
  | waitsForHost _ hmpc _ => simp [pollBound, hmpc] at hbound
  | moves _ hmpc _ => exact .inr hmpc
  | ends _ _ _ => exact .inr (done_mpc_ne_of_poll hbound _ _)

/-! ## The way back to address 0 -/

/-- How many operations are left at most before address 0, counted from the longest way to each address. -/
def operationsLeft (pc : Pc) : Nat :=
  if pc = 0 then 0 else if pc.toNat ≤ 16 then 20 - pc.toNat else if pc = 17 ∨ pc = 19 then 1 else 2

/-- The operation at an address of the fixed control store. -/
def operationAt (pc : Pc) : Option Instr :=
  match controlStore[pc.toNat]? with
  | none => none
  | some e => (decodeWord e.word).toOption

theorem operationAt_of_currentOp {s : State} {i : Instr} (hstore : s.store = controlStore)
    (hop : currentOp s = some i) : operationAt s.pc = some i := by
  unfold currentOp State.entry at hop
  rw [hstore] at hop
  unfold operationAt
  generalize controlStore[s.pc.toNat]? = e at hop ⊢
  cases e with
  | none => cases hop
  | some e =>
    dsimp only at hop ⊢
    generalize decodeWord e.word = w at hop ⊢
    cases w with
    | error _ => cases hop
    | ok _ => exact hop

/-- Each outcome of an operation elsewhere than at address 0 leads nearer to it (41_transaction_fsm.md R170). -/
theorem controlStore_operationsLeft : ∀ pc : Pc, pc ≠ 0 → ∀ i ∈ operationAt pc, ∀ o ∈ outcomes i,
    operationsLeft (nextPc controlStore[pc.toNat]? pc o) < operationsLeft pc := by
  decide

/-- Where IDLEWAIT and MCWAIT stand. -/
theorem controlStore_waits : ∀ pc : Pc,
    (operationAt pc = some .idlewait → pc = 0) ∧ (operationAt pc = some .mcwait → pc = 18) := by
  decide

/-- How far ENGINE is from address 0: the operations left, and the micro-steps of the present one. -/
def wayBack (s : State) : Nat := 100 * operationsLeft s.pc + microLeft s.mpc s.bit

/-- In the fixed control store, elsewhere than at address 0, every micro-step waits or comes nearer. -/
theorem wayBack_of_progress {i : Instr} {s t : State} (hstore : s.store = controlStore) (hop : currentOp s = some i)
    (hpc : s.pc ≠ 0) (h : Progress i s t) :
    (t = s ∧ ((∃ d, pollBound i s = some d) ∨ (i = .mcwait ∧ s.mpc = .m1 ∧ aborted s = false))) ∨
    wayBack t < wayBack s := by
  cases h with
  | polls hbound _ => exact .inl ⟨rfl, .inl ⟨_, hbound⟩⟩
  | waitsForHost hmc hmpc habort => exact .inl ⟨rfl, .inr ⟨hmc, hmpc, habort⟩⟩
  | moves hstay _ hless =>
    refine .inr ?_
    rw [wayBack, wayBack, hstay]
    omega
  | @ends o u hout hstay hkept =>
    have hnext : (done o u).pc = nextPc controlStore[s.pc.toNat]? s.pc o := by
      rw [done_pc, State.entry, hkept, hstay, hstore]
    have hfewer : operationsLeft (done o u).pc < operationsLeft s.pc := by
      rw [hnext]
      exact controlStore_operationsLeft s.pc hpc i (operationAt_of_currentOp hstore hop) o hout
    have hlt := microLeft_lt (done o u).mpc (done o u).bit
    refine .inr ?_
    rw [wayBack, wayBack]
    omega

end Sys2Proof.Proofs.Waits
end

