-- ==== Sys2Proof/Proofs/FairRuns.lean ====
section
/-! PROOFS. Fair runs (60_exceptions.md R291; 40_bus_primitives.md R152; 41_transaction_fsm.md R175, R191). Time passes
by the ticks of a run, so a wait that is polled in time sees its bound reached; every wait that ends brings ENGINE
nearer to address 0; and MCWAIT, which has no bound, waits on only while HOST holds select low. -/

open Sys2Proof
open Sys2Proof.Machine

namespace Sys2Proof.Proofs.FairRuns

open Sys2Proof.Proofs.Boot
open Sys2Proof.Proofs.Ownership
open Sys2Proof.Proofs.Memory
open Sys2Proof.Proofs.Transaction
open Sys2Proof.Proofs.CalibrationSteps
open Sys2Proof.Proofs.Statistics
open Sys2Proof.Proofs.Flags
open Sys2Proof.Proofs.Waits

/-! ## Ticks -/

theorem ticksFrom_add (τ : Nat → Turn) (n j k : Nat) :
    ticksFrom τ n (j + k) = ticksFrom τ n j + ticksFrom τ (n + j) k := by
  induction k with
  | zero => rfl
  | succ k ih => rw [← Nat.add_assoc, ticksFrom, ticksFrom, ih, Nat.add_assoc n j k, Nat.add_assoc]

theorem ticksFrom_succ_le (τ : Nat → Turn) (n k : Nat) : ticksFrom τ n (k + 1) ≤ ticksFrom τ n k + 1 := by
  rw [ticksFrom]
  split <;> omega

/-- Ticks come one at a time, so every number up to one that is reached is reached. -/
theorem exists_ticksFrom_eq {τ : Nat → Turn} {n k N : Nat} (h : N ≤ ticksFrom τ n k) :
    ∃ j, j ≤ k ∧ ticksFrom τ n j = N := by
  induction k with
  | zero => exact ⟨0, Nat.le_refl 0, (Nat.le_zero.mp h).symm⟩
  | succ k ih =>
    by_cases hk : N ≤ ticksFrom τ n k
    · obtain ⟨j, hj, hN⟩ := ih hk
      exact ⟨j, by omega, hN⟩
    · have := ticksFrom_succ_le τ n k
      exact ⟨k + 1, Nat.le_refl _, by omega⟩

/-- Where TIMEBASE steps infinitely often every number of ticks is reached. -/
theorem exists_ticksFrom {τ : Nat → Turn} (htime : ∀ n, ∃ m, n ≤ m ∧ τ m = .timebase) (n N : Nat) :
    ∃ k, ticksFrom τ n k = N := by
  induction N with
  | zero => exact ⟨0, rfl⟩
  | succ N ih =>
    obtain ⟨k, hk⟩ := ih
    obtain ⟨m, hm, htick⟩ := htime (n + k)
    have hpast : ticksFrom τ n (m - n) = N + ticksFrom τ (n + k) (m - n - k) := by
      rw [← hk, ← ticksFrom_add]
      congr 1
      omega
    have hreach : N + 1 ≤ ticksFrom τ n (m - n + 1) := by
      rw [ticksFrom, hpast, show n + (m - n) = m by omega, if_pos htick]
      omega
    obtain ⟨j, -, hj⟩ := exists_ticksFrom_eq hreach
    exact ⟨j, hj⟩

/-- Only TIMEBASE writes the time (60_exceptions.md R300). -/
theorem takeTurn_now {τ : Turn} {s t : State} (h : takeTurn τ s = .next t) :
    t.now = s.now + BitVec.ofNat 32 (if τ = .timebase then 1 else 0) := by
  cases takeTurn_effect h with
  | engine _ hi hexec =>
    obtain ⟨m, hframe, -⟩ := exec_engine_frame hi hexec
    have hnow : (eraseEngine t).now = (eraseEngine { s with ch := m }).now := congrArg State.now hframe
    exact hnow.trans (BitVec.add_zero s.now).symm
  | writer hexec =>
    rw [exec_chw_frame hexec]
    exact (BitVec.add_zero s.now).symm
  | isr _ | telemetry w x | host p => exact (BitVec.add_zero s.now).symm
  | timebase => rfl

/-! ## What a wait depends on -/

/-- Two states in which ENGINE is at the same micro-step with the same registers of a wait. -/
structure SameWait (s t : State) : Prop where
  cfg : t.cfg = s.cfg
  store : t.store = s.store
  pc : t.pc = s.pc
  mpc : t.mpc = s.mpc
  bit : t.bit = s.bit
  start : t.start = s.start
  cal : t.cal = s.cal

theorem SameWait.refl (s : State) : SameWait s s := ⟨rfl, rfl, rfl, rfl, rfl, rfl, rfl⟩

theorem SameWait.trans {s t u : State} (h : SameWait s t) (h' : SameWait t u) : SameWait s u where
  cfg := h'.cfg.trans h.cfg
  store := h'.store.trans h.store
  pc := h'.pc.trans h.pc
  mpc := h'.mpc.trans h.mpc
  bit := h'.bit.trans h.bit
  start := h'.start.trans h.start
  cal := h'.cal.trans h.cal

theorem SameWait.currentOp {s t : State} (h : SameWait s t) : currentOp t = currentOp s := by
  simp only [Machine.currentOp, State.entry, h.store, h.pc]

theorem SameWait.pollBound {s t : State} (h : SameWait s t) (i : Instr) : pollBound i t = pollBound i s := by
  have hduration : ∀ d, durationOf d t = durationOf d s := fun d => by
    cases d <;> simp only [durationOf, effPost, h.cfg, h.cal]
  simp only [Machine.pollBound, effPulse, hduration, h.cfg, h.mpc, h.bit, h.cal]

theorem SameWait.waitBound {s t : State} (h : SameWait s t) : waitBound t = waitBound s := by
  simp only [Machine.waitBound, h.currentOp, h.pollBound]

theorem SameWait.wayBack {s t : State} (h : SameWait s t) : wayBack t = wayBack s := by
  rw [Waits.wayBack, Waits.wayBack, h.pc, h.mpc, h.bit]

/-- A turn in which ENGINE takes no micro-step leaves its wait (60_exceptions.md R289). -/
theorem takeTurn_sameWait {τ : Turn} {s t : State} (h : takeTurn τ s = .next t)
    (hrests : ¬(τ = .engine ∧ isrEnabled s = false)) : SameWait s t := by
  cases takeTurn_effect h with
  | engine hisr _ _ => exact absurd ⟨rfl, hisr⟩ hrests
  | writer hexec =>
    rw [exec_chw_frame hexec]
    exact ⟨rfl, rfl, rfl, rfl, rfl, rfl, rfl⟩
  | isr _ | telemetry w x | host p | timebase => exact ⟨rfl, rfl, rfl, rfl, rfl, rfl, rfl⟩

theorem waitBound_eq_some {s : State} {d : U32} : waitBound s = some d ↔
    ∃ i, currentOp s = some i ∧ pollBound i s = some d := by
  unfold waitBound
  cases currentOp s <;> simp

/-! ## Bounds are below 2^31 (00_scope.md R13) -/

theorem effPulse_lt {s : State} (hcal : CalInv s.cfg s.cal) : (effPulse s).toNat < durationBound := by
  obtain ⟨-, -, -, -, hfixed, -, -, ⟨-, hmax⟩, -⟩ := (ok_iff_parametersAllowed s.cfg.toRawParams).mp s.cfg.ok
  have hcursor := hcal.cursor.pulseHigh
  unfold effPulse
  split
  · exact Nat.lt_of_le_of_lt hcursor hmax
  · exact hfixed

theorem effPost_lt {s : State} (hcal : CalInv s.cfg s.cal) : (effPost s).toNat < durationBound := by
  obtain ⟨-, -, -, -, -, hfixed, -, -, ⟨-, hmax⟩, -⟩ := (ok_iff_parametersAllowed s.cfg.toRawParams).mp s.cfg.ok
  have hcursor := hcal.cursor.postHigh
  unfold effPost
  split
  · exact Nat.lt_of_le_of_lt hcursor hmax
  · exact hfixed

theorem boundOf_lt (t : TimeoutSel) (p : Params) : (boundOf t p).toNat < durationBound := by
  obtain ⟨-, ⟨-, hbyte⟩, ⟨-, hedge⟩, -⟩ := (ok_iff_parametersAllowed p.toRawParams).mp p.ok
  cases t
  · exact hedge
  · exact hbyte

theorem durationOf_lt (d : DelaySel) {s : State} (hcal : CalInv s.cfg s.cal) :
    (durationOf d s).toNat < durationBound := by
  obtain ⟨-, -, -, hdelay, -, -, hdebounce, -⟩ := (ok_iff_parametersAllowed s.cfg.toRawParams).mp s.cfg.ok
  cases d
  · exact effPost_lt hcal
  · exact hdelay
  · exact hdebounce

theorem pollBound_lt {i : Instr} {s : State} {d : U32} (hcal : CalInv s.cfg s.cal) (h : pollBound i s = some d) :
    d.toNat < durationBound := by
  obtain ⟨-, -, -, hdelay, -, -, hdebounce, -⟩ := (ok_iff_parametersAllowed s.cfg.toRawParams).mp s.cfg.ok
  unfold pollBound at h
  split at h
  case h_1 => exact Option.some.inj h ▸ hdebounce
  case h_2 => exact Option.some.inj h ▸ hdelay
  case h_3 => exact Option.some.inj h ▸ effPulse_lt hcal
  case h_4 =>
    split at h
    · exact Option.some.inj h ▸ durationOf_lt _ hcal
    · cases h
  case h_5 | h_6 | h_7 => exact Option.some.inj h ▸ boundOf_lt _ s.cfg
  case h_8 | h_9 | h_10 => exact Option.some.inj h ▸ boundOf_lt .edge s.cfg
  case h_11 =>
    split at h
    · exact Option.some.inj h ▸ boundOf_lt _ s.cfg
    · exact Option.some.inj h ▸ boundOf_lt _ s.cfg
    · cases h
  case h_12 => cases h

theorem waitBound_lt {s : State} {d : U32} (hcal : CalInv s.cfg s.cal) (h : waitBound s = some d) :
    d.toNat < durationBound := by
  obtain ⟨i, -, hbound⟩ := waitBound_eq_some.mp h
  exact pollBound_lt hcal hbound

theorem takeTurn_calInv {τ : Turn} {s t : State} (hs : CalInv s.cfg s.cal) (h : takeTurn τ s = .next t) :
    CalInv t.cfg t.cal := by
  obtain ⟨hcfg, -⟩ := configuration_eq_iff.mp (takeTurn_configuration h)
  rw [hcfg]
  have heffect := takeTurn_calEffect h
  generalize t.cal = c at heffect ⊢
  cases heffect with
  | kept => exact hs
  | ticked => exact calInv_tick hs s.now
  | observed succ => exact calInv_observe hs s.now succ

/-! ## Positions of a run -/

section Runs
variable {σ : Nat → State} {τ : Nat → Turn}

theorem run_calInv (hrun : isRun σ τ) (h0 : CalInv (σ 0).cfg (σ 0).cal) (n : Nat) : CalInv (σ n).cfg (σ n).cal := by
  induction n with
  | zero => exact h0
  | succ n ih => exact takeTurn_calInv ih (hrun n)

theorem run_now (hrun : isRun σ τ) (n k : Nat) :
    (σ (n + k)).now = (σ n).now + BitVec.ofNat 32 (ticksFrom τ n k) := by
  induction k with
  | zero => exact (BitVec.add_zero _).symm
  | succ k ih => rw [← Nat.add_assoc, takeTurn_now (hrun (n + k)), ih, ticksFrom, BitVec.add_assoc, BitVec.ofNat_add]

theorem run_store (hrun : isRun σ τ) (h0 : (σ 0).store = controlStore) (n : Nat) : (σ n).store = controlStore := by
  obtain ⟨-, hstore, -⟩ := configuration_eq_iff.mp (run_configuration hrun n.zero_le)
  exact hstore.trans h0

/-- An ENGINE micro-step is one of the operation at `R.pc`. -/
theorem run_engineStep (hrun : isRun σ τ) {n : Nat} (h : engineSteps σ τ n) :
    ∃ i, currentOp (σ n) = some i ∧ i.agent = .engine ∧ i.isWord = true ∧ exec i (σ n) = .next (σ (n + 1)) := by
  obtain ⟨hturn, hcalm⟩ := h
  have hstep : contextStep (σ n) = .next (σ (n + 1)) := by
    have := hrun n
    rwa [hturn] at this
  rcases contextStep_next.mp hstep with ⟨hisr, -⟩ | ⟨-, hengine⟩
  · exact absurd hisr (Bool.eq_false_iff.mp hcalm)
  · obtain ⟨e, i, hentry, hdec, hi, hexec⟩ := engineStep_next.mp hengine
    exact ⟨i, by simp [currentOp, hentry, hdec], hi, isWord_of_decodeWord hdec, hexec⟩

theorem run_sameWait (hrun : isRun σ τ) {n : Nat} (h : ¬engineSteps σ τ n) : SameWait (σ n) (σ (n + 1)) :=
  takeTurn_sameWait (hrun n) h

/-- What every turn without an ENGINE micro-step keeps holds when ENGINE next takes one. -/
theorem run_until_engineStep (hsteps : ∀ n, ∃ k, engineSteps σ τ (n + k)) {P : State → Prop}
    (hkept : ∀ n, ¬engineSteps σ τ n → P (σ n) → P (σ (n + 1))) {n : Nat} (hn : P (σ n)) :
    ∃ k, engineSteps σ τ (n + k) ∧ P (σ (n + k)) := by
  classical
  have hP : ∀ j, j ≤ Nat.find (hsteps n) → P (σ (n + j)) := by
    intro j
    induction j with
    | zero => exact fun _ => hn
    | succ j ih => exact fun hj => hkept _ (Nat.find_min (hsteps n) hj) (ih (Nat.le_of_succ_le hj))
  exact ⟨_, Nat.find_spec (hsteps n), hP _ (Nat.le_refl _)⟩

/-! ## A wait in a run -/

/-- An ENGINE micro-step at a poll that does not leave its label changes nothing, and finds its bound not reached. -/
theorem run_poll (hrun : isRun σ τ) {n : Nat} {d : U32} (hbound : waitBound (σ n) = some d) (hstep : engineSteps σ τ n)
    (hmpc : (σ (n + 1)).mpc = (σ n).mpc) : σ (n + 1) = σ n ∧ startElapsed d (σ n) = false := by
  obtain ⟨i, hop, hi, hword, hexec⟩ := run_engineStep hrun hstep
  obtain ⟨i', hop', hpoll⟩ := waitBound_eq_some.mp hbound
  cases hop.symm.trans hop'
  exact (exec_poll hi hword hpoll hexec).resolve_right (not_not_intro hmpc)

/-- As long as ENGINE stays at the label of a poll it is in the same wait. -/
theorem run_sameWait_of_mpc (hrun : isRun σ τ) {n k : Nat} {d : U32} (hbound : waitBound (σ n) = some d)
    (hmpc : ∀ j, j ≤ k → (σ (n + j)).mpc = (σ n).mpc) : SameWait (σ n) (σ (n + k)) := by
  induction k with
  | zero => exact .refl _
  | succ k ih =>
    have hsame := ih fun j hj => hmpc j (Nat.le_succ_of_le hj)
    refine hsame.trans ?_
    by_cases hstep : engineSteps σ τ (n + k)
    · have hstay : (σ (n + k + 1)).mpc = (σ (n + k)).mpc := (hmpc (k + 1) (Nat.le_refl _)).trans hsame.mpc.symm
      obtain ⟨hkept, -⟩ := run_poll hrun (hsame.waitBound.trans hbound) hstep hstay
      rw [← Nat.add_assoc, hkept]
      exact .refl _
    · exact run_sameWait hrun hstep

/-- A poll that does not end its wait finds the bound not reached. -/
theorem run_poll_not_elapsed (hrun : isRun σ τ) {n k : Nat} {d : U32} (hbound : waitBound (σ n) = some d)
    (hmpc : ∀ j, j ≤ k + 1 → (σ (n + j)).mpc = (σ n).mpc) (hstep : engineSteps σ τ (n + k)) :
    startElapsed d (σ (n + k)) = false := by
  have hsame := run_sameWait_of_mpc hrun hbound fun j (hj : j ≤ k) => hmpc j (Nat.le_succ_of_le hj)
  have hstay : (σ (n + k + 1)).mpc = (σ (n + k)).mpc := (hmpc (k + 1) (Nat.le_refl _)).trans hsame.mpc.symm
  exact (run_poll hrun (hsame.waitBound.trans hbound) hstep hstay).2

/-- The time since `R.start` after k more ticks, fewer than 2^31, where it was a duration d: it is exact
(70_reset_and_hazards.md R334), and not below d. -/
theorem startElapsed_of_ticks (hrun : isRun σ τ) {n k : Nat} {d : U32} (hd : d.toNat < durationBound)
    (hexact : (σ n).now - (σ n).start = d) (hstart : (σ (n + k)).start = (σ n).start)
    (hticks : ticksFrom τ n k < durationBound) : startElapsed d (σ (n + k)) = true := by
  have helapsed : (σ (n + k)).now - (σ (n + k)).start = d + BitVec.ofNat 32 (ticksFrom τ n k) := by
    rw [hstart, run_now hrun, ← hexact]
    bv_omega
  unfold durationBound at hd hticks
  rw [startElapsed_iff, helapsed, BitVec.toNat_add, BitVec.toNat_ofNat,
    Nat.mod_eq_of_lt (a := ticksFrom τ n k) (by omega), Nat.mod_eq_of_lt (by omega)]
  exact Nat.le_add_right _ _

/-- A wait ends where its bound is reached exactly at some position and ENGINE polls it in time after that: it does not
last past the poll. -/
theorem run_wait_not_past (hrun : isRun σ τ) {n j k : Nat} {d : U32} (hbound : waitBound (σ n) = some d)
    (hd : d.toNat < durationBound) (hexact : (σ (n + j)).now - (σ n).start = d)
    (hticks : ticksFrom τ (n + j) k < durationBound) (hstep : engineSteps σ τ (n + j + k)) :
    ¬∀ l, l ≤ j + k + 1 → (σ (n + l)).mpc = (σ n).mpc := by
  intro hmpc
  have hthere := run_sameWait_of_mpc hrun hbound fun l (hl : l ≤ j) => hmpc l (by omega)
  have hpoll := run_sameWait_of_mpc hrun hbound fun l (hl : l ≤ j + k) => hmpc l (by omega)
  rw [← Nat.add_assoc] at hpoll
  have helapsed : startElapsed d (σ (n + j + k)) = true :=
    startElapsed_of_ticks hrun hd (hthere.start ▸ hexact) (hpoll.start.trans hthere.start.symm) hticks
  have hnot := run_poll_not_elapsed hrun hbound hmpc (Nat.add_assoc n j k ▸ hstep)
  rw [← Nat.add_assoc, helapsed] at hnot
  cases hnot

/-- In a run with ticks for ever, the time since `R.start` takes every value. -/
theorem exists_exact (hrun : isRun σ τ) (htime : ∀ n, ∃ m, n ≤ m ∧ τ m = .timebase) (n : Nat) (d : U32) :
    ∃ j, (σ (n + j)).now - (σ n).start = d := by
  obtain ⟨j, hj⟩ := exists_ticksFrom htime n (d - ((σ n).now - (σ n).start)).toNat
  refine ⟨j, ?_⟩
  rw [run_now hrun, hj, BitVec.ofNat_toNat, BitVec.setWidth_eq]
  bv_omega

/-- R291: every wait and every delay that ENGINE polls ends, at a micro-step of ENGINE. -/
theorem run_wait_ends (hrun : isRun σ τ) (htime : ∀ n, ∃ m, n ≤ m ∧ τ m = .timebase) (hpolls : pollsInTime σ τ)
    (h0 : CalInv (σ 0).cfg (σ 0).cal) {n : Nat} {d : U32} (hbound : waitBound (σ n) = some d) :
    ∃ k, (∀ j, j ≤ k → (σ (n + j)).mpc = (σ n).mpc) ∧ engineSteps σ τ (n + k) ∧
      (σ (n + k + 1)).mpc ≠ (σ n).mpc := by
  classical
  obtain ⟨j, hexact⟩ := exists_exact hrun htime n d
  obtain ⟨k, hstep, hticks⟩ := hpolls (n + j)
  have hends : ∃ l, (σ (n + l)).mpc ≠ (σ n).mpc := by
    have hpast := run_wait_not_past hrun hbound (waitBound_lt (run_calInv hrun h0 n) hbound) hexact hticks hstep
    obtain ⟨l, hl⟩ := not_forall.mp hpast
    exact ⟨l, (Classical.not_imp.mp hl).2⟩
  have hfirst : ∀ l, l < Nat.find hends → (σ (n + l)).mpc = (σ n).mpc :=
    fun l hl => not_not.mp (Nat.find_min hends hl)
  have hleaves : (σ (n + Nat.find hends)).mpc ≠ (σ n).mpc := Nat.find_spec hends
  generalize Nat.find hends = l at hfirst hleaves
  cases l with
  | zero => exact absurd rfl hleaves
  | succ l =>
    refine ⟨l, fun j hj => hfirst j (Nat.lt_succ_of_le hj), ?_, hleaves⟩
    by_contra hrests
    exact hleaves ((run_sameWait hrun hrests).mpc.trans (hfirst l l.lt_succ_self))

/-- R291: a poll that does not end its wait comes before the bound. -/
theorem run_poll_before_bound (hrun : isRun σ τ) (hpolls : pollsInTime σ τ) (h0 : CalInv (σ 0).cfg (σ 0).cal)
    {n k : Nat} {d : U32} (hbound : waitBound (σ n) = some d) (hstart : (σ n).start = (σ n).now)
    (hmpc : ∀ j, j ≤ k + 1 → (σ (n + j)).mpc = (σ n).mpc) (hstep : engineSteps σ τ (n + k)) :
    ticksFrom τ n k < d.toNat := by
  by_contra hlate
  have hd := waitBound_lt (run_calInv hrun h0 n) hbound
  obtain ⟨j, hjk, hj⟩ := exists_ticksFrom_eq (Nat.le_of_not_lt hlate)
  have hexact : (σ (n + j)).now - (σ n).start = d := by
    rw [run_now hrun, hj, hstart, BitVec.ofNat_toNat, BitVec.setWidth_eq]
    bv_omega
  obtain ⟨l, hnext, hticks⟩ := hpolls (n + j)
  by_cases hl : j + l ≤ k
  · exact run_wait_not_past hrun hbound hd hexact hticks hnext fun i hi => hmpc i (by omega)
  · have hfewer : ticksFrom τ (n + j) (k - j) ≤ ticksFrom τ (n + j) l := by
      rw [show l = k - j + (l - (k - j)) by omega, ticksFrom_add]
      exact Nat.le_add_right _ _
    have hhere : engineSteps σ τ (n + j + (k - j)) := by
      rwa [show n + j + (k - j) = n + k by omega]
    exact run_wait_not_past hrun hbound hd hexact (Nat.lt_of_le_of_lt hfewer hticks) hhere fun i hi => hmpc i (by omega)

/-! ## MCWAIT in a run -/

/-- The next ENGINE micro-step finds the transaction cancelled: it is, or an enabled ISR comes first and cancels it
(60_exceptions.md R286, R287). -/
def Cancelled (s : State) : Prop := s.active = false ∨ isrEnabled s = true

theorem aborted_of_cancelled {s : State} (h : Cancelled s) (hcalm : isrEnabled s = false) : aborted s = true := by
  have hactive : s.active = false := h.resolve_right (Bool.eq_false_iff.mp hcalm)
  exact (aborted_iff s).mpr (.inr hactive)

theorem aborted_eq_false_iff (s : State) : aborted s = false ↔ s.pins.selN = false ∧ s.active = true := by
  simp [aborted]

/-- Only ENGINE can undo a cancellation. -/
theorem takeTurn_cancelled {υ : Turn} {s t : State} (hs : Cancelled s) (h : takeTurn υ s = .next t)
    (hrests : ¬(υ = .engine ∧ isrEnabled s = false)) : Cancelled t := by
  cases takeTurn_effect h with
  | engine hisr _ _ => exact absurd ⟨rfl, hisr⟩ hrests
  | isr _ => exact .inl rfl
  | writer hexec =>
    rw [exec_chw_frame hexec]
    exact hs
  | host p =>
    refine hs.imp_right fun hisr => ?_
    obtain ⟨hpending, henabled⟩ := (isrEnabled_iff s).mp hisr
    exact (isrEnabled_iff _).mpr ⟨by simp [hpending], henabled⟩
  | telemetry w x | timebase => exact hs

/-- With the interrupt unmasked HOST cannot raise select without cancelling: a rise is latched (60_exceptions.md
R285). -/
theorem takeTurn_not_aborted {υ : Turn} {s t : State} (hs : aborted s = false) (henabled : s.irqEnabled = true)
    (h : takeTurn υ s = .next t) (hrests : ¬(υ = .engine ∧ isrEnabled s = false)) :
    aborted t = false ∨ Cancelled t := by
  obtain ⟨hlow, hactive⟩ := (aborted_eq_false_iff s).mp hs
  cases takeTurn_effect h with
  | engine hisr _ _ => exact absurd ⟨rfl, hisr⟩ hrests
  | isr _ => exact .inr (.inl rfl)
  | writer hexec =>
    rw [exec_chw_frame hexec]
    exact .inl hs
  | host p =>
    cases hhigh : p.selN with
    | false => exact .inl ((aborted_eq_false_iff _).mpr ⟨hhigh, hactive⟩)
    | true =>
      rw [hostStep_of_rise hlow hhigh]
      exact .inr (.inr ((isrEnabled_iff _).mpr ⟨rfl, henabled⟩))
  | telemetry w x | timebase => exact .inl hs

/-- ENGINE is at MCWAIT's poll. -/
structure AtMcwait (s : State) : Prop where
  op : currentOp s = some .mcwait
  mpc : s.mpc = .m1

theorem AtMcwait.of_sameWait {s t : State} (hs : AtMcwait s) (h : SameWait s t) : AtMcwait t where
  op := h.currentOp.trans hs.op
  mpc := h.mpc.trans hs.mpc

/-- MCWAIT has no bound (41_transaction_fsm.md R175). -/
theorem AtMcwait.waitBound {s : State} (hs : AtMcwait s) : waitBound s = none := by
  simp [Machine.waitBound, hs.op, Machine.pollBound, hs.mpc]

theorem AtMcwait.pc {s : State} (hs : AtMcwait s) (hstore : s.store = controlStore) : s.pc = 18 := by
  obtain ⟨-, hmcwait⟩ := controlStore_waits s.pc
  exact hmcwait (operationAt_of_currentOp hstore hs.op)

theorem run_mcwait_step (hrun : isRun σ τ) {n : Nat} (hat : AtMcwait (σ n)) (hstep : engineSteps σ τ n) :
    σ (n + 1) = if aborted (σ n) then done .ok (σ n) else σ n := by
  obtain ⟨hop, hmpc⟩ := hat
  obtain ⟨i, hop', -, -, hexec⟩ := run_engineStep hrun hstep
  cases hop.symm.trans hop'
  rw [exec_mcwait_m1 hmpc] at hexec
  exact (Host.Outcome.next.inj hexec).symm

/-- While MCWAIT is not cancelled it stays where it is. -/
theorem run_mcwait_stays (hrun : isRun σ τ) (hmask : ∀ n, MaskedInPulse (σ n)) {n : Nat} (hat : AtMcwait (σ n))
    (hwait : aborted (σ n) = false)
    (hnever : ∀ k, SameWait (σ n) (σ (n + k)) → ¬Cancelled (σ (n + k))) (k : Nat) :
    SameWait (σ n) (σ (n + k)) ∧ aborted (σ (n + k)) = false := by
  induction k with
  | zero => exact ⟨.refl _, hwait⟩
  | succ k ih =>
    obtain ⟨hsame, hwaiting⟩ := ih
    by_cases hstep : engineSteps σ τ (n + k)
    · have hkept : σ (n + (k + 1)) = σ (n + k) := by
        rw [← Nat.add_assoc, run_mcwait_step hrun (hat.of_sameWait hsame) hstep, hwaiting]
        rfl
      rw [hkept]
      exact ⟨hsame, hwaiting⟩
    · have hnext : SameWait (σ n) (σ (n + (k + 1))) := hsame.trans (run_sameWait hrun hstep)
      have henabled : (σ (n + k)).irqEnabled = true := by
        rw [hmask (n + k), hsame.mpc, hat.mpc]
        rfl
      exact ⟨hnext, (takeTurn_not_aborted hwaiting henabled (hrun (n + k)) hstep).resolve_right (hnever (k + 1) hnext)⟩

/-! ## The way back in a run -/

/-- MCWAIT waits for HOST in every position from m on, with select low and the transaction active. -/
def WaitsForEver (σ : Nat → State) (m : Nat) : Prop :=
  ∀ k, m ≤ k → (σ k).pc = 18 ∧ (σ k).mpc = .m1 ∧ (σ k).pins.selN = false ∧ (σ k).active = true

/-- Where ENGINE steps elsewhere than at address 0, it waits or comes nearer. -/
theorem run_wayBack (hrun : isRun σ τ) {n : Nat} (hstore : (σ n).store = controlStore) (hpc : (σ n).pc ≠ 0)
    (hstep : engineSteps σ τ n) :
    (σ (n + 1) = σ n ∧ ((∃ d, waitBound (σ n) = some d) ∨ (AtMcwait (σ n) ∧ aborted (σ n) = false))) ∨
    wayBack (σ (n + 1)) < wayBack (σ n) := by
  obtain ⟨i, hop, hi, hword, hexec⟩ := run_engineStep hrun hstep
  obtain ⟨hidlePc, -⟩ := controlStore_waits (σ n).pc
  have hidle : i ≠ .idlewait := fun heq => hpc (hidlePc (heq ▸ operationAt_of_currentOp hstore hop))
  refine (wayBack_of_progress hstore hop hpc (exec_progress hi hword hidle hexec)).imp_left fun ⟨hkept, hwhy⟩ => ?_
  refine ⟨hkept, hwhy.imp (fun ⟨d, hpoll⟩ => ⟨d, waitBound_eq_some.mpr ⟨i, hop, hpoll⟩⟩) ?_⟩
  rintro ⟨rfl, hmpc, habort⟩
  exact ⟨⟨hop, hmpc⟩, habort⟩

/-- After a wait with a bound ENGINE is nearer to address 0. -/
theorem run_wait_nearer (hrun : isRun σ τ) (htime : ∀ n, ∃ m, n ≤ m ∧ τ m = .timebase) (hpolls : pollsInTime σ τ)
    (h0 : CalInv (σ 0).cfg (σ 0).cal) {n : Nat} {d : U32} (hstore : (σ n).store = controlStore) (hpc : (σ n).pc ≠ 0)
    (hbound : waitBound (σ n) = some d) : ∃ m, n ≤ m ∧ wayBack (σ m) < wayBack (σ n) := by
  obtain ⟨k, hmpc, hstep, hleaves⟩ := run_wait_ends hrun htime hpolls h0 hbound
  have hsame := run_sameWait_of_mpc hrun hbound hmpc
  rcases run_wayBack hrun (hsame.store.trans hstore) (hsame.pc ▸ hpc) hstep with ⟨hkept, -⟩ | hnearer
  · rw [hkept] at hleaves
    exact absurd hsame.mpc hleaves
  · exact ⟨n + k + 1, by omega, hsame.wayBack ▸ hnearer⟩

/-- MCWAIT waits for ever, or it is cancelled and ENGINE comes nearer to address 0. -/
theorem run_mcwait_nearer (hrun : isRun σ τ) (hsteps : ∀ n, ∃ k, engineSteps σ τ (n + k))
    (hmask : ∀ n, MaskedInPulse (σ n)) {n : Nat} (hstore : (σ n).store = controlStore) (hat : AtMcwait (σ n))
    (hwait : aborted (σ n) = false) :
    (∃ m, n ≤ m ∧ wayBack (σ m) < wayBack (σ n)) ∨ WaitsForEver σ n := by
  have hpc : (σ n).pc = 18 := hat.pc hstore
  by_cases hcancel : ∃ k, SameWait (σ n) (σ (n + k)) ∧ Cancelled (σ (n + k))
  · obtain ⟨k, hthere⟩ := hcancel
    obtain ⟨l, hstep, hsame, hcancelled⟩ := run_until_engineStep hsteps
      (P := fun t => SameWait (σ n) t ∧ Cancelled t)
      (fun m hrests ⟨hsame, hcancelled⟩ =>
        ⟨hsame.trans (run_sameWait hrun hrests), takeTurn_cancelled hcancelled (hrun m) hrests⟩) hthere
    have haborted : aborted (σ (n + k + l)) = true := aborted_of_cancelled hcancelled hstep.2
    have hnot0 : (σ (n + k + l)).pc ≠ 0 := by
      rw [hsame.pc, hpc]
      decide
    rcases run_wayBack hrun (hsame.store.trans hstore) hnot0 hstep with ⟨-, ⟨d, hbound⟩ | ⟨-, hwaiting⟩⟩ | hnearer
    · rw [hsame.waitBound, hat.waitBound] at hbound
      cases hbound
    · rw [haborted] at hwaiting
      cases hwaiting
    · exact .inl ⟨n + k + l + 1, by omega, hsame.wayBack ▸ hnearer⟩
  · refine .inr fun k hk => ?_
    obtain ⟨hsame, hwaiting⟩ := run_mcwait_stays hrun hmask hat hwait
      (fun j hsame hcancelled => hcancel ⟨j, hsame, hcancelled⟩) (k - n)
    rw [show n + (k - n) = k by omega] at hsame hwaiting
    exact ⟨hsame.pc.trans hpc, hsame.mpc.trans hat.mpc, (aborted_eq_false_iff _).mp hwaiting⟩

/-- From every position elsewhere than at address 0 ENGINE comes nearer to it, or MCWAIT waits for ever. -/
theorem run_nearer (hrun : isRun σ τ) (htime : ∀ n, ∃ m, n ≤ m ∧ τ m = .timebase) (hpolls : pollsInTime σ τ)
    (h0 : CalInv (σ 0).cfg (σ 0).cal) (hbus : BusInv (σ 0)) {n : Nat} (hpc : (σ n).pc ≠ 0) :
    ∃ m, n ≤ m ∧ (wayBack (σ m) < wayBack (σ n) ∨ WaitsForEver σ m) := by
  have hsteps : ∀ n, ∃ k, engineSteps σ τ (n + k) := fun n => (hpolls n).imp fun _ h => h.1
  obtain ⟨k, hstep, hsame⟩ := run_until_engineStep hsteps (P := SameWait (σ n))
    (fun m hrests hsame => hsame.trans (run_sameWait hrun hrests)) (.refl (σ n))
  have hstore : (σ (n + k)).store = controlStore := run_store hrun hbus.store (n + k)
  have hthere : (σ (n + k)).pc ≠ 0 := hsame.pc ▸ hpc
  rw [← hsame.wayBack]
  rcases run_wayBack hrun hstore hthere hstep with ⟨-, ⟨d, hbound⟩ | ⟨hat, hwait⟩⟩ | hnearer
  · obtain ⟨m, hm, hnearer⟩ := run_wait_nearer hrun htime hpolls h0 hstore hthere hbound
    exact ⟨m, by omega, .inl hnearer⟩
  · have hmask := run_maskedInPulse hrun hbus.mask
    rcases run_mcwait_nearer hrun hsteps hmask hstore hat hwait with ⟨m, hm, hnearer⟩ | hever
    · exact ⟨m, by omega, .inl hnearer⟩
    · exact ⟨n + k, by omega, .inr hever⟩
  · exact ⟨n + k + 1, by omega, .inl hnearer⟩

/-- R191, R291: ENGINE comes back to address 0, or MCWAIT waits for ever. -/
theorem run_returns (hrun : isRun σ τ) (htime : ∀ n, ∃ m, n ≤ m ∧ τ m = .timebase) (hpolls : pollsInTime σ τ)
    (h0 : CalInv (σ 0).cfg (σ 0).cal) (hbus : BusInv (σ 0)) (n : Nat) :
    ∃ m, n ≤ m ∧ ((σ m).pc = 0 ∨ WaitsForEver σ m) := by
  induction hleft : wayBack (σ n) using Nat.strong_induction_on generalizing n with
  | _ left ih =>
    by_cases hpc : (σ n).pc = 0
    · exact ⟨n, Nat.le_refl n, .inl hpc⟩
    · obtain ⟨m, hm, hnearer | hever⟩ := run_nearer hrun htime hpolls h0 hbus hpc
      · obtain ⟨l, hl, hback⟩ := ih _ (hleft ▸ hnearer) m rfl
        exact ⟨l, hm.trans hl, hback⟩
      · exact ⟨m, hm, .inr hever⟩

end Runs

/-- Settles O42: a wait that is polled in time ends at its bound at the latest, and so each wait but MCWAIT's brings
ENGINE nearer to address 0. -/
theorem fairRunsEndWaitsAndReturn : Obligations.FairRunsEndWaitsAndReturn := by
  unfold Obligations.FairRunsEndWaitsAndReturn
  intro σ τ hrun hfair hpolls h0
  exact ⟨fun n d hbound => run_wait_ends hrun hfair.timebase hpolls h0 hbound,
    fun n k d hbound hstart hmpc hstep => run_poll_before_bound hrun hpolls h0 hbound hstart hmpc hstep,
    fun hbus n => run_returns hrun hfair.timebase hpolls h0 hbus n⟩

end Sys2Proof.Proofs.FairRuns
end

