-- ==== Sys2Proof/Proofs/BusSteps.lean ====
section
/-! PROOFS. The lines over one ENGINE micro-step (10_state.md R41, R46; 40_bus_primitives.md R145 to R149): only a
transfer drives DAT low and only an acknowledge drives ACK low, each at labels of its own, and every operation ends with
both lines released. -/

open Sys2Proof
open Sys2Proof.Machine

namespace Sys2Proof.Proofs.BusSteps

open Sys2Proof.Proofs.Flags
open Sys2Proof.Proofs.Waits

/-! ## Which operation a low line belongs to -/

/-- The operations that drive DAT: the transfers, with or without reception (40_bus_primitives.md R146, R147). -/
def drivesDat (i : Instr) : Bool :=
  match i with
  | .xferi _ | .xferr _ | .txi _ | .txr _ | .idLow | .idHigh => true
  | _ => false

/-- The micro-steps at which DAT may be low are a transfer's. -/
theorem drivesDat_of_transferring {i : Instr} {m : Mpc} (hlabel : transferring m = true) (hown : ownsMpc i m = true) :
    drivesDat i = true := by
  unfold transferring at hlabel
  split at hlabel
  case h_14 => cases hlabel
  all_goals
    cases i with
    | xferi _ | xferr _ | txi _ | txr _ | idLow | idHigh => rfl
    | _ => cases hown

theorem maskedAt_of_pulsing {m : Mpc} (hlabel : pulsing m = true) : maskedAt m = true := by
  unfold pulsing at hlabel
  split at hlabel
  case h_3 => cases hlabel
  all_goals rfl

/-- The micro-steps at which ACK may be low are ACK's. -/
theorem eq_ack_of_pulsing {i : Instr} {m : Mpc} (hlabel : pulsing m = true) (hown : ownsMpc i m = true) : i = .ack := by
  by_contra hack
  have hquiet : maskedAt m = false := maskedAt_of_ownsMpc hack hown
  rw [maskedAt_of_pulsing hlabel] at hquiet
  cases hquiet

/-! ## The lines and the bit index at a label -/

/-- An operation with the labels `own` may stand at label m with the two drivers and the bit index as given: the clauses
of the bus invariant about one label. -/
structure FitsAt (own : Mpc → Bool) (m : Mpc) (dat ack : Drive) (bit : Fin 9) : Prop where
  own : own m = true
  dat : dat = .low → transferring m = true
  ack : ack = .low → pulsing m = true
  bitIndex : insideByte m = true → bit.val < 8

theorem drive_eq_rel {d : Drive} {b : Bool} (h : d = .low → b = true) (hb : b = false) : d = .rel := by
  cases d with
  | rel => rfl
  | low => cases hb.symm.trans (h rfl)

section Labels
variable {own : Mpc → Bool} {m : Mpc} {dat ack : Drive} {bit : Fin 9}

theorem FitsAt.dat_rel (h : FitsAt own m dat ack bit) (hlabel : transferring m = false) : dat = .rel :=
  drive_eq_rel h.dat hlabel

theorem FitsAt.ack_rel (h : FitsAt own m dat ack bit) (hlabel : pulsing m = false) : ack = .rel :=
  drive_eq_rel h.ack hlabel

/-- An operation that is no transfer finds DAT released. -/
theorem FitsAt.dat_rel_of_op {i : Instr} (h : FitsAt (ownsMpc i) m dat ack bit) (hi : drivesDat i = false) :
    dat = .rel := by
  refine h.dat_rel (Bool.eq_false_iff.mpr fun hlabel => ?_)
  rw [drivesDat_of_transferring hlabel h.own] at hi
  cases hi

/-- An operation other than ACK finds the acknowledge line released. -/
theorem FitsAt.ack_rel_of_op {i : Instr} (h : FitsAt (ownsMpc i) m dat ack bit) (hi : i ≠ .ack) : ack = .rel :=
  h.ack_rel (Bool.eq_false_iff.mpr fun hlabel => hi (eq_ack_of_pulsing hlabel h.own))

theorem FitsAt.released {i : Instr} (h : FitsAt (ownsMpc i) m dat ack bit) (hdat : drivesDat i = false)
    (hack : i ≠ .ack) : dat = .rel ∧ ack = .rel :=
  ⟨h.dat_rel_of_op hdat, h.ack_rel_of_op hack⟩

theorem fitsAt_of_released (hown : own m = true) (hrel : dat = .rel ∧ ack = .rel)
    (hbit : insideByte m = true → bit.val < 8) : FitsAt own m dat ack bit := by
  obtain ⟨rfl, rfl⟩ := hrel
  exact ⟨hown, nofun, nofun, hbit⟩

theorem fitsAt_of_transferring (hown : own m = true) (hlabel : transferring m = true) (hack : ack = .rel)
    (hbit : insideByte m = true → bit.val < 8) : FitsAt own m dat ack bit := by
  subst hack
  exact ⟨hown, fun _ => hlabel, nofun, hbit⟩

/-- After a bit a transfer begins the next one at label m, or has sent them all and is at label m'. -/
theorem fitsAt_nextBit {m' : Mpc} (hown : own m = true ∧ own m' = true)
    (hlabel : transferring m = true ∧ transferring m' = true) (hend : insideByte m' = false) (hack : ack = .rel) :
    FitsAt own (if bit.val < 8 then m else m') dat ack bit := by
  split
  · next hmore => exact fitsAt_of_transferring hown.1 hlabel.1 hack fun _ => hmore
  · exact fitsAt_of_transferring hown.2 hlabel.2 hack fun hin => absurd hin (by rw [hend]; nofun)

theorem fitsAt_of_pulsing (hown : own m = true) (hlabel : pulsing m = true) (hdat : dat = .rel)
    (hbit : insideByte m = true → bit.val < 8) : FitsAt own m dat ack bit := by
  subst hdat
  exact ⟨hown, nofun, fun _ => hlabel, hbit⟩

end Labels

/-! ## One micro-step -/

/-- What only the end of an operation changes (41_transaction_fsm.md R170), and the control store. -/
def place (s : State) : List Entry × Pc × Byte := (s.store, s.pc, s.addr)

theorem place_eq_iff {s t : State} : place t = place s ↔ t.store = s.store ∧ t.pc = s.pc ∧ t.addr = s.addr := by
  simp [place]

/-- What a micro-step from s of an operation with the labels `own` and the outcomes `outs` leads to: a label of its own
that the lines fit, or the end with both lines released, where only the address 0x01 has the outcome of this controller
(41_transaction_fsm.md R174). -/
inductive BusStep (own : Mpc → Bool) (outs : List Branch) (s : State) : State → Prop
  | stays {t : State} (hplace : place t = place s) (hactive : t.active = s.active)
      (hfits : FitsAt own t.mpc t.datDrv t.ackDrv t.bit) : BusStep own outs s t
  | ends {o : Branch} {u : State} (hout : o ∈ outs) (hplace : place u = place s)
      (hrel : u.datDrv = .rel ∧ u.ackDrv = .rel) (hctl : o = .ctl → s.addr = 0x01) : BusStep own outs s (done o u)

section Waits
variable {own : Mpc → Bool} {outs : List Branch} {s t u : State}

theorem busStep_ite {c : Prop} [Decidable c] (ht : c → BusStep own outs s t) (hu : ¬c → BusStep own outs s u) :
    BusStep own outs s (if c then t else u) := by
  split
  · next hc => exact ht hc
  · next hc => exact hu hc

/-- An edge wait drives no line. -/
theorem busStep_waitStep {level : Bool} {bound : U32} {stay : WaitPos → Mpc} {onOk onFail : State → State} {p : WaitPos}
    (hs : FitsAt own s.mpc s.datDrv s.ackDrv s.bit) (hpoll : FitsAt own (stay .w1) s.datDrv s.ackDrv s.bit)
    (hok : BusStep own outs s (onOk s)) (hfail : ∀ r, BusStep own outs s (onFail (raise r s))) :
    BusStep own outs s (waitStep level bound stay onOk onFail p s) := by
  rcases waitStep_cases level bound stay onOk onFail p s with ⟨-, h⟩ | ⟨-, h⟩ | ⟨-, r, h⟩ | ⟨-, h⟩ <;> rw [h]
  · exact .stays rfl rfl hpoll
  · exact hok
  · exact hfail r
  · exact .stays rfl rfl hs

/-- A wait inside an operation, whose two ends are labels of that operation. -/
theorem busStep_waitStep_stepTo {level : Bool} {bound : U32} {stay : WaitPos → Mpc} {okMpc failMpc : Mpc} {p : WaitPos}
    (hs : FitsAt own s.mpc s.datDrv s.ackDrv s.bit) (hpoll : FitsAt own (stay .w1) s.datDrv s.ackDrv s.bit)
    (hok : FitsAt own okMpc s.datDrv s.ackDrv s.bit) (hfail : FitsAt own failMpc s.datDrv s.ackDrv s.bit) :
    BusStep own outs s (waitStep level bound stay (stepTo okMpc) (stepTo failMpc) p s) :=
  busStep_waitStep hs hpoll (.stays rfl rfl hok) fun _ => .stays rfl rfl hfail

end Waits

/-- A micro-step of i as the bus sees it. -/
abbrev OpBusStep (i : Instr) (s t : State) : Prop := BusStep (ownsMpc i) (outcomes i) s t

/-- ENGINE is at a label of i that the lines fit. -/
abbrev OpFits (i : Instr) (s : State) : Prop := FitsAt (ownsMpc i) s.mpc s.datDrv s.ackDrv s.bit

/-! ## ENGINE's operations -/

section Operations
variable {s t : State}

theorem execIdlewait_busStep (hs : OpFits .idlewait s) (h : execIdlewait s = .next t) : OpBusStep .idlewait s t := by
  have hrel := hs.released rfl nofun
  unfold execIdlewait at h
  split at h <;> cases h
  · exact busStep_ite (fun _ => .stays rfl rfl hs) fun _ =>
      busStep_ite (fun _ => .stays rfl rfl (fitsAt_of_released rfl hrel nofun)) fun _ => .stays rfl rfl hs
  · exact busStep_ite (fun _ => .stays rfl rfl (fitsAt_of_released rfl hrel nofun)) fun _ => .stays rfl rfl hs
  · exact busStep_ite (fun _ => .stays rfl rfl (fitsAt_of_released rfl hrel nofun)) fun _ =>
      .ends (.head _) rfl hrel nofun

/-- RX drives no line; its bit index is below 8 while it goes on. -/
theorem execRx_busStep (hs : OpFits .rx s) (h : execRx s = .next t) : OpBusStep .rx s t := by
  have hrel := hs.released rfl nofun
  unfold execRx at h
  split at h <;> rename_i hm <;> cases h
  · exact .stays rfl rfl (fitsAt_of_released rfl hrel fun _ => Nat.zero_lt_succ 7)
  case h_2 | h_3 =>
    have hbit : s.bit.val < 8 := hs.bitIndex (hm ▸ rfl)
    exact busStep_waitStep_stepTo hs (fitsAt_of_released rfl hrel fun _ => hbit)
      (fitsAt_of_released rfl hrel fun _ => hbit) (fitsAt_of_released rfl hrel nofun)
  · exact busStep_ite (fun hmore => .stays rfl rfl (fitsAt_of_released rfl hrel fun _ => hmore)) fun _ =>
      busStep_ite (fun _ => .ends (.tail _ (.head _)) rfl hrel nofun) fun _ => .ends (.head _) rfl hrel nofun
  · exact .ends (.tail _ (.head _)) rfl hrel nofun

/-- XFERI and XFERR: DAT is driven from y3 on, and y6 and yf release it (40_bus_primitives.md R147). -/
theorem xferStep_busStep {v : Byte} (w : Byte) (hs : OpFits (.xferi w) s) (h : xferStep v s = .next t) :
    OpBusStep (.xferi w) s t := by
  have hack : s.ackDrv = .rel := hs.ack_rel_of_op nofun
  unfold xferStep at h
  split at h <;> rename_i hm <;> cases h
  · exact .stays rfl rfl (fitsAt_of_transferring rfl rfl hack fun _ => Nat.zero_lt_succ 7)
  case h_2 | h_5 =>
    have hbit : s.bit.val < 8 := hs.bitIndex (hm ▸ rfl)
    exact busStep_waitStep_stepTo hs (fitsAt_of_transferring rfl rfl hack fun _ => hbit)
      (fitsAt_of_transferring rfl rfl hack fun _ => hbit) (fitsAt_of_transferring rfl rfl hack nofun)
  case h_3 | h_4 =>
    have hbit : s.bit.val < 8 := hs.bitIndex (hm ▸ rfl)
    exact .stays rfl rfl (fitsAt_of_transferring rfl rfl hack fun _ => hbit)
  · exact .stays rfl rfl (fitsAt_nextBit ⟨rfl, rfl⟩ ⟨rfl, rfl⟩ rfl hack)
  · exact .ends (.head _) rfl ⟨rfl, hack⟩ nofun
  · exact .ends (.tail _ (.head _)) rfl ⟨rfl, hack⟩ nofun

/-- TXI and TXR: DAT is driven from t2 on, and t5 and tf release it (40_bus_primitives.md R146). -/
theorem txStep_busStep {v : Byte} (w : Byte) (hs : OpFits (.txi w) s) (h : txStep v s = .next t) :
    OpBusStep (.txi w) s t := by
  have hack : s.ackDrv = .rel := hs.ack_rel_of_op nofun
  unfold txStep at h
  split at h <;> rename_i hm <;> cases h
  · exact .stays rfl rfl (fitsAt_of_transferring rfl rfl hack fun _ => Nat.zero_lt_succ 7)
  case h_2 | h_4 =>
    have hbit : s.bit.val < 8 := hs.bitIndex (hm ▸ rfl)
    exact busStep_waitStep_stepTo hs (fitsAt_of_transferring rfl rfl hack fun _ => hbit)
      (fitsAt_of_transferring rfl rfl hack fun _ => hbit) (fitsAt_of_transferring rfl rfl hack nofun)
  · exact .stays rfl rfl (fitsAt_of_transferring rfl rfl hack fun _ => hs.bitIndex (hm ▸ rfl))
  · exact .stays rfl rfl (fitsAt_nextBit ⟨rfl, rfl⟩ ⟨rfl, rfl⟩ rfl hack)
  · exact .ends (.head _) rfl ⟨rfl, hack⟩ nofun
  · exact .ends (.tail _ (.head _)) rfl ⟨rfl, hack⟩ nofun

/-- WAITF and WAITR. -/
theorem waitOp_busStep {level : Bool} {b : TimeoutSel} (c : TimeoutSel) (hs : OpFits (.waitf c) s)
    (h : waitOp level b s = .next t) : OpBusStep (.waitf c) s t := by
  have hrel := hs.released rfl nofun
  unfold waitOp at h
  split at h <;> cases h
  exact busStep_waitStep hs (fitsAt_of_released rfl hrel nofun) (.ends (.head _) rfl hrel nofun)
    fun _ => .ends (.tail _ (.head _)) rfl hrel nofun

/-- ACK drives its line low at a4 and releases it at a6 (40_bus_primitives.md R148). -/
theorem execAck_busStep (hs : OpFits .ack s) (h : execAck s = .next t) : OpBusStep .ack s t := by
  have hdat : s.datDrv = .rel := hs.dat_rel_of_op rfl
  unfold execAck at h
  split at h <;> rename_i hm <;> cases h
  case h_1 | h_4 => exact .stays rfl rfl (fitsAt_of_released rfl ⟨hdat, hs.ack_rel (hm ▸ rfl)⟩ nofun)
  case h_2 =>
    exact busStep_ite (fun _ => .stays rfl rfl (fitsAt_of_released rfl ⟨hdat, hs.ack_rel (hm ▸ rfl)⟩ nofun))
      fun _ => .stays rfl rfl hs
  case h_3 =>
    have hrel : s.datDrv = .rel ∧ s.ackDrv = .rel := ⟨hdat, hs.ack_rel (hm ▸ rfl)⟩
    exact busStep_ite (fun _ => .ends (.tail _ (.head _)) rfl hrel nofun)
      fun _ => .stays rfl rfl (fitsAt_of_released rfl hrel nofun)
  case h_5 => exact .stays rfl rfl (fitsAt_of_pulsing rfl rfl hdat nofun)
  case h_6 =>
    exact busStep_ite (fun _ => .stays rfl rfl (fitsAt_of_pulsing rfl rfl hdat nofun)) fun _ => .stays rfl rfl hs
  case h_7 => exact .ends (.head _) rfl ⟨hdat, rfl⟩ nofun

theorem execDelay_busStep {d : DelaySel} (hs : OpFits (.delay d) s) (h : execDelay d s = .next t) :
    OpBusStep (.delay d) s t := by
  have hrel := hs.released rfl nofun
  unfold execDelay at h
  split at h <;> cases h
  · exact .stays rfl rfl (fitsAt_of_released rfl hrel nofun)
  · exact busStep_ite (fun _ => .ends (.head _) rfl hrel nofun) fun _ => .stays rfl rfl hs

theorem execMcwait_busStep (hs : OpFits .mcwait s) (h : execMcwait s = .next t) : OpBusStep .mcwait s t := by
  have hrel := hs.released rfl nofun
  unfold execMcwait at h
  split at h <;> cases h
  · exact .stays rfl rfl (fitsAt_of_released rfl ⟨rfl, rfl⟩ nofun)
  · exact busStep_ite (fun _ => .ends (.head _) rfl hrel nofun) fun _ => .stays rfl rfl hs

theorem exec_chr_busStep (hs : OpFits .chr s) (h : exec .chr s = .next t) : OpBusStep .chr s t := by
  have hrel := hs.released rfl nofun
  rcases execChr_cases h with ⟨-, i, -, rfl⟩ | ⟨-, rfl⟩ | ⟨-, rfl⟩ | ⟨-, rfl⟩ | ⟨-, rfl⟩
  case inr.inr.inr.inr => exact .ends (.head _) rfl hrel nofun
  all_goals exact .stays rfl rfl (fitsAt_of_released rfl hrel nofun)

/-- DISPATCH ends, and for this controller only at address 0x01 (41_transaction_fsm.md R174). -/
theorem execDispatch_busStep (hs : OpFits .dispatch s) (h : execDispatch s = .next t) : OpBusStep .dispatch s t := by
  have hrel := hs.released rfl nofun
  unfold execDispatch at h
  split at h <;> cases h
  refine busStep_ite (fun haddr => ?ctl) fun _ => busStep_ite (fun _ => ?mc) fun _ =>
    busStep_ite (fun _ => ?ign) fun _ => ?inv
  case ctl => exact .ends (by decide) rfl hrel fun _ => haddr
  all_goals exact .ends (by decide) rfl hrel nofun

theorem execCmdchk_busStep (hs : OpFits .cmdchk s) (h : execCmdchk s = .next t) : OpBusStep .cmdchk s t := by
  have hrel := hs.released rfl nofun
  unfold execCmdchk at h
  split at h <;> cases h
  refine busStep_ite (fun _ => ?_) fun _ => busStep_ite (fun _ => ?_) fun _ => ?_
  all_goals exact .ends (by decide) rfl hrel nofun

theorem exec_busStep {i : Instr} (hi : i.agent = .engine) (hword : i.isWord = true) (hs : OpFits i s)
    (h : exec i s = .next t) : OpBusStep i s t := by
  cases i with
  | idlewait => exact execIdlewait_busStep hs h
  | rx => exact execRx_busStep hs h
  | dispatch => exact execDispatch_busStep hs h
  | ack => exact execAck_busStep hs h
  | delay d => exact execDelay_busStep hs h
  | xferi v => exact xferStep_busStep v hs h
  | xferr r => exact xferStep_busStep 0 hs h
  | cmdchk => exact execCmdchk_busStep hs h
  | chr => exact exec_chr_busStep hs h
  | mcwait => exact execMcwait_busStep hs h
  | txi v => exact txStep_busStep v hs h
  | txr r => exact txStep_busStep 0 hs h
  | waitf b => exact waitOp_busStep b hs h
  | waitr b => exact waitOp_busStep b hs h
  | endTxn | abort | relbus =>
    simp only [exec, execEnd, execAbort, execRelbus] at h
    split at h <;> cases h
    exact .ends (.head _) rfl ⟨rfl, rfl⟩ nofun
  | start | calobs _ | stpoll | caltick =>
    simp only [exec, execStart, execCalobs, execStpoll, execCaltick] at h
    split at h <;> cases h
    exact .ends (.head _) rfl (hs.released rfl nofun) nofun
  | chw | isr | tread _ => cases hi
  | addrController | addrMemcard | addrSentinel | addrIgnored _ | addrInvalid _ | cmdPoll | cmdSentinel | cmdOther _ |
    idLow | idHigh => cases hword

end Operations

end Sys2Proof.Proofs.BusSteps
end

