-- ==== Sys2Proof/Proofs/BusInvariant.lean ====
section
/-! PROOFS. The bus invariant over every step (70_reset_and_hazards.md R331; 41_transaction_fsm.md R192, R193;
60_exceptions.md R288): where the operations of the fixed control store lead, that an ENGINE micro-step therefore keeps
the invariant and the other agents' turns do, and what it says about the lines. -/

open Sys2Proof
open Sys2Proof.Machine

namespace Sys2Proof.Proofs.BusInvariant

open Sys2Proof.Proofs.Ownership
open Sys2Proof.Proofs.Memory
open Sys2Proof.Proofs.Turns
open Sys2Proof.Proofs.Statistics
open Sys2Proof.Proofs.Flags
open Sys2Proof.Proofs.Waits
open Sys2Proof.Proofs.BusSteps

/-! ## The fixed control store -/

/-- Every address from 0 to 20 holds an ENGINE operation, which begins at a label of its own, outside a byte. -/
theorem controlStore_begins : ∀ pc : Pc, pc.toNat ≤ 20 → ∃ i ∈ operationAt pc, i.agent = .engine ∧
    ownsMpc i (entryMpc controlStore pc) = true ∧ insideByte (entryMpc controlStore pc) = false := by
  decide

/-- No operation's outcome leaves the store (41_transaction_fsm.md R170). -/
theorem controlStore_closed : ∀ pc : Pc, ∀ i ∈ operationAt pc, ∀ o ∈ outcomes i,
    (nextPc controlStore[pc.toNat]? pc o).toNat ≤ 20 := by
  decide

/-- Only DISPATCH's outcome for this controller leads into a controller reply from outside, and the reply keeps the
address (10_state.md R40; 41_transaction_fsm.md R170). -/
theorem controlStore_reply : ∀ pc : Pc, ∀ i ∈ operationAt pc, ∀ o ∈ outcomes i,
    controllerPc (nextPc controlStore[pc.toNat]? pc o) = true →
      destAt controlStore[pc.toNat]? ≠ .addr ∧ (controllerPc pc = true ∨ o = .ctl) := by
  decide

/-- Only IDLEWAIT, END and ABORT lead to addresses 0 and 1. -/
theorem controlStore_rest : ∀ pc : Pc, ∀ i ∈ operationAt pc, ∀ o ∈ outcomes i,
    (nextPc controlStore[pc.toNat]? pc o).toNat ≤ 1 → i = .endTxn ∨ i = .abort ∨ (i = .idlewait ∧ pc = 0) := by
  decide

/-- Where the operations that drive a line stand. -/
theorem controlStore_drivers : ∀ pc : Pc, ∀ i ∈ operationAt pc,
    (drivesDat i = true → pc = 6 ∨ pc = 12 ∨ pc = 14 ∨ pc = 16) ∧
    (i = .ack → pc = 4 ∨ pc = 11 ∨ pc = 13 ∨ pc = 15) := by
  decide

/-- In the fixed control store ENGINE's label fits exactly where the operation at `R.pc` owns it. -/
theorem engineFits_iff_operationAt {s : State} (hstore : s.store = controlStore) : engineFits s = true ↔
    ∃ i, operationAt s.pc = some i ∧ i.agent = .engine ∧ ownsMpc i s.mpc = true := by
  rw [engineFits_iff]
  constructor
  · rintro ⟨e, i, hentry, hword, hi, hown⟩
    have hop : currentOp s = some i := by simp [currentOp, hentry, hword]
    exact ⟨i, operationAt_of_currentOp hstore hop, hi, hown⟩
  · rintro ⟨i, hop, hi, hown⟩
    unfold operationAt at hop
    rw [← hstore] at hop
    cases hentry : s.store[s.pc.toNat]? with
    | none => simp [hentry] at hop
    | some e =>
      cases hword : decodeWord e.word with
      | error why => simp [hentry, hword, Except.toOption] at hop
      | ok j =>
        have hsame : j = i := by simpa [hentry, hword, Except.toOption] using hop
        subst hsame
        exact ⟨e, j, hentry, hword, hi, hown⟩

/-- The bus invariant names ENGINE's operation, and its label is one that the lines fit. -/
theorem exists_opFits {s : State} (hs : BusInv s) :
    ∃ i, operationAt s.pc = some i ∧ i.agent = .engine ∧ OpFits i s := by
  obtain ⟨i, hop, hi, hown⟩ := (engineFits_iff_operationAt hs.store).mp hs.fits
  exact ⟨i, hop, hi, hown, hs.dat, hs.ack, hs.bitIndex⟩

/-! ## ENGINE's micro-steps -/

/-- END and ABORT end the transaction (41_transaction_fsm.md R187, R188). -/
theorem exec_end_active {i : Instr} (hi : i = .endTxn ∨ i = .abort) {s t : State} (h : exec i s = .next t) :
    t.active = false := by
  rcases hi with rfl | rfl
  all_goals
    simp only [exec, execEnd, execAbort] at h
    split at h <;> cases h
    exact done_active _ _

/-- No transaction is active at rest: IDLEWAIT begins none, and the other ways to rest end it. -/
theorem exec_rest {i : Instr} {s t : State} (hs : BusInv s) (hop : operationAt s.pc = some i)
    (hstep : OpBusStep i s t) (h : exec i s = .next t) : t.pc.toNat ≤ 1 → t.active = false := by
  intro hrest
  cases hstep with
  | stays hplace hactive _ =>
    obtain ⟨-, hpc, -⟩ := place_eq_iff.mp hplace
    rw [hactive, hs.rest (hpc ▸ hrest)]
  | @ends o u hout hplace _ _ =>
    obtain ⟨hstore, hpc, -⟩ := place_eq_iff.mp hplace
    rw [done_pc, State.entry, hstore, hpc, hs.store] at hrest
    rcases controlStore_rest s.pc i hop o hout hrest with hend | habort | ⟨rfl, hidle⟩
    · exact exec_end_active (.inl hend) h
    · exact exec_end_active (.inr habort) h
    · obtain ⟨-, -, -, hactive⟩ := exec_idlewait_flags h
      rw [hactive, hs.rest (by rw [hidle]; decide)]

/-- Inside an operation the address and the place are as they were. -/
theorem busInv_of_stays {i : Instr} {s t : State} (hs : BusInv s) (hop : operationAt s.pc = some i)
    (hi : i.agent = .engine) (hplace : place t = place s) (hfits : OpFits i t) (hmask : MaskedInPulse t)
    (hrest : t.pc.toNat ≤ 1 → t.active = false) : BusInv t := by
  obtain ⟨hsame, hpc, haddr⟩ := place_eq_iff.mp hplace
  have hstore : t.store = controlStore := hsame.trans hs.store
  exact {
    store := hstore
    fits := (engineFits_iff_operationAt hstore).mpr ⟨i, hpc ▸ hop, hi, hfits.own⟩
    dat := hfits.dat
    ack := hfits.ack
    mask := hmask
    address := by
      rw [hpc, haddr]
      exact hs.address
    rest := hrest
    bitIndex := hfits.bitIndex }

/-- The end of an operation of the fixed control store is the beginning of another there. -/
theorem done_fixedStore {s u : State} (hs : s.store = controlStore) (hplace : place u = place s) (o : Branch) :
    (done o u).store = controlStore ∧ (done o u).pc = nextPc controlStore[s.pc.toNat]? s.pc o ∧
    (done o u).mpc = entryMpc controlStore (done o u).pc := by
  obtain ⟨hsame, hpc, -⟩ := place_eq_iff.mp hplace
  have hstore : u.store = controlStore := hsame.trans hs
  refine ⟨(done_store o u).trans hstore, ?_, ?_⟩
  · rw [done_pc, State.entry, hstore, hpc]
  · rw [done_mpc, done_pc, hstore]

/-- At the end of an operation `R.addr` is 0x01 where a controller reply goes on or begins. -/
theorem done_address {i : Instr} {s u : State} {o : Branch} (hs : BusInv s) (hop : operationAt s.pc = some i)
    (hout : o ∈ outcomes i) (hplace : place u = place s) (hctl : o = .ctl → s.addr = 0x01)
    (hreply : controllerPc (done o u).pc = true) : (done o u).addr = 0x01 := by
  obtain ⟨hsame, hpc, haddr⟩ := place_eq_iff.mp hplace
  obtain ⟨-, hnext, -⟩ := done_fixedStore hs.store hplace o
  obtain ⟨hdest, hsource⟩ := controlStore_reply s.pc i hop o hout (hnext ▸ hreply)
  have hkept : (done o u).addr = s.addr := by
    rw [done_addr, State.entry, hsame, hpc, hs.store, if_neg hdest, haddr]
  rw [hkept]
  exact hsource.elim hs.address hctl

/-- The next operation begins with both lines released. -/
theorem busInv_of_ends {i : Instr} {s u : State} {o : Branch} (hs : BusInv s) (hop : operationAt s.pc = some i)
    (hout : o ∈ outcomes i) (hplace : place u = place s) (hrel : u.datDrv = .rel ∧ u.ackDrv = .rel)
    (hctl : o = .ctl → s.addr = 0x01) (hmask : MaskedInPulse (done o u))
    (hrest : (done o u).pc.toNat ≤ 1 → (done o u).active = false) : BusInv (done o u) := by
  obtain ⟨hdat, hack⟩ := hrel
  obtain ⟨hstore, hnext, hmpc⟩ := done_fixedStore hs.store hplace o
  have hinside : (done o u).pc.toNat ≤ 20 := hnext ▸ controlStore_closed s.pc i hop o hout
  obtain ⟨j, hj, hengine, hown, hbyte⟩ := controlStore_begins _ hinside
  exact {
    store := hstore
    fits := (engineFits_iff_operationAt hstore).mpr ⟨j, hj, hengine, hmpc ▸ hown⟩
    dat := by
      rw [done_datDrv, hdat]
      nofun
    ack := by
      rw [done_ackDrv, hack]
      nofun
    mask := hmask
    address := done_address hs hop hout hplace hctl
    rest := hrest
    bitIndex := by
      rw [hmpc, hbyte]
      nofun }

/-- An ENGINE micro-step keeps the invariant, whatever operation ran: it is the one at `R.pc`, since any other faults at
its label (entry 5). -/
theorem engineStep_busInv {s t : State} (hs : BusInv s) (h : engineStep s = .next t) : BusInv t := by
  obtain ⟨e, i, hentry, hword, hi, hexec⟩ := engineStep_next.mp h
  have hcurrent : currentOp s = some i := by simp [currentOp, hentry, hword]
  have hop : operationAt s.pc = some i := operationAt_of_currentOp hs.store hcurrent
  have hfits : OpFits i s := ⟨ownsMpc_of_exec hi hexec, hs.dat, hs.ack, hs.bitIndex⟩
  have hstep : OpBusStep i s t := exec_busStep hi (isWord_of_decodeWord hword) hfits hexec
  have hmask : MaskedInPulse t := exec_maskedInPulse hi hs.mask hexec
  have hrest := exec_rest hs hop hstep hexec
  cases hstep with
  | stays hplace _ hfits => exact busInv_of_stays hs hop hi hplace hfits hmask hrest
  | ends hout hplace hrel hctl => exact busInv_of_ends hs hop hout hplace hrel hctl hmask hrest

/-! ## Every step -/

/-- What the bus invariant reads. -/
def busPart (s : State) : List Entry × Pc × Mpc × Byte × Drive × Drive × Bool × Bool × Fin 9 :=
  (s.store, s.pc, s.mpc, s.addr, s.datDrv, s.ackDrv, s.irqEnabled, s.active, s.bit)

theorem busInv_of_busPart_eq {s t : State} (hs : BusInv s) (hpart : busPart t = busPart s) : BusInv t := by
  simp only [busPart, Prod.mk.injEq] at hpart
  obtain ⟨hstore, hpc, hmpc, haddr, hdat, hack, hmask, hactive, hbit⟩ := hpart
  have hfits : engineFits t = engineFits s := by
    simp only [engineFits, currentOp, State.entry, hstore, hpc, hmpc]
  exact {
    store := hstore.trans hs.store
    fits := hfits.trans hs.fits
    dat := by
      rw [hdat, hmpc]
      exact hs.dat
    ack := by
      rw [hack, hmpc]
      exact hs.ack
    mask := by
      rw [hmask, hmpc]
      exact hs.mask
    address := by
      rw [hpc, haddr]
      exact hs.address
    rest := by
      rw [hpc, hactive]
      exact hs.rest
    bitIndex := by
      rw [hmpc, hbit]
      exact hs.bitIndex }

/-- ISR releases both lines and ends the transaction, and ENGINE stays where it is (60_exceptions.md R287, R289). -/
theorem takeInterrupt_busInv {s : State} (hs : BusInv s) : BusInv (takeInterrupt s) where
  store := hs.store
  fits := hs.fits
  dat := nofun
  ack := nofun
  mask := hs.mask
  address := hs.address
  rest := fun _ => rfl
  bitIndex := hs.bitIndex

theorem exec_chw_busPart {s t : State} (h : exec .chw s = .next t) : busPart t = busPart s :=
  (congrArg busPart (exec_chw_frame h)).trans rfl

theorem takeTurn_busInv {τ : Turn} {s t : State} (hs : BusInv s) (h : takeTurn τ s = .next t) : BusInv t := by
  cases takeTurn_effect h with
  | isr _ => exact takeInterrupt_busInv hs
  | engine hisr _ _ => exact engineStep_busInv hs ((takeTurn_engine_of_calm hisr).symm.trans h)
  | writer hexec => exact busInv_of_busPart_eq hs ((exec_chw_busPart hexec).trans rfl)
  | telemetry _ _ | host _ | timebase => exact busInv_of_busPart_eq hs rfl

/-- Settles O29: a step is a turn taken in a state with the same bus. -/
theorem stepKeepsBusInv : Obligations.StepKeepsBusInv := by
  unfold Obligations.StepKeepsBusInv
  intro s t hs h
  exact takeTurn_busInv (busInv_of_busPart_eq hs (by simp [busPart])) h

/-! ## What the invariant says -/

/-- DAT is low only at the transfers of a controller reply (70_reset_and_hazards.md R331). -/
theorem pc_of_dat_low {s : State} (hs : BusInv s) (hlow : s.datDrv = .low) :
    s.pc = 6 ∨ s.pc = 12 ∨ s.pc = 14 ∨ s.pc = 16 := by
  obtain ⟨i, hop, -, hfits⟩ := exists_opFits hs
  obtain ⟨htransfer, -⟩ := controlStore_drivers s.pc i hop
  exact htransfer (drivesDat_of_transferring (hs.dat hlow) hfits.own)

/-- ACK is low only at the acknowledges of a controller reply (70_reset_and_hazards.md R331). -/
theorem pc_of_ack_low {s : State} (hs : BusInv s) (hlow : s.ackDrv = .low) :
    s.pc = 4 ∨ s.pc = 11 ∨ s.pc = 13 ∨ s.pc = 15 := by
  obtain ⟨i, hop, -, hfits⟩ := exists_opFits hs
  obtain ⟨-, hacknowledge⟩ := controlStore_drivers s.pc i hop
  exact hacknowledge (eq_ack_of_pulsing (hs.ack hlow) hfits.own)

/-- While ACK is low the interrupt is masked (60_exceptions.md R288). -/
theorem isrEnabled_of_ack_low {s : State} (hs : BusInv s) (hlow : s.ackDrv = .low) : isrEnabled s = false := by
  have hmasked : s.irqEnabled = false := by rw [hs.mask, maskedAt_of_pulsing (hs.ack hlow), Bool.not_true]
  exact isrEnabled_eq_false (.inr hmasked)

/-- Every address at which a line may be low is one of a controller reply. -/
theorem controllerPc_of_low {s : State} (hs : BusInv s) (hlow : s.datDrv = .low ∨ s.ackDrv = .low) :
    controllerPc s.pc = true := by
  rcases hlow with hdat | hack
  · rcases pc_of_dat_low hs hdat with h | h | h | h <;> rw [h] <;> rfl
  · rcases pc_of_ack_low hs hack with h | h | h | h <;> rw [h] <;> rfl

/-- Outside a controller reply both lines are released. -/
theorem released_of_not_controllerPc {s : State} (hs : BusInv s) (hpc : controllerPc s.pc = false) :
    s.datDrv = .rel ∧ s.ackDrv = .rel :=
  ⟨drive_eq_rel (fun hlow => controllerPc_of_low hs (.inl hlow)) hpc,
    drive_eq_rel (fun hlow => controllerPc_of_low hs (.inr hlow)) hpc⟩

/-- Settles O30: a low line places ENGINE in a controller reply, which neither rest nor another address has. -/
theorem busInvMeansReleased : Obligations.BusInvMeansReleased := by
  unfold Obligations.BusInvMeansReleased
  intro s hs
  refine ⟨fun hpc => ?rest, fun haddr => ?address, pc_of_dat_low hs,
    fun hlow => ⟨pc_of_ack_low hs hlow, isrEnabled_of_ack_low hs hlow⟩⟩
  case rest =>
    obtain ⟨houtside, hidle⟩ : controllerPc s.pc = false ∧ s.pc.toNat ≤ 1 := by
      rcases hpc with h | h <;> rw [h] <;> decide
    obtain ⟨hdat, hack⟩ := released_of_not_controllerPc hs houtside
    exact ⟨hdat, hack, hs.rest hidle⟩
  case address =>
    exact released_of_not_controllerPc hs (Bool.eq_false_iff.mpr fun hreply => haddr (hs.address hreply))

end Sys2Proof.Proofs.BusInvariant
end

