-- ==== Sys2Proof/Proofs/Reset.lean ====
section
/-! PROOFS. The reset state (70_reset_and_hazards.md R320): the values it gives, and that every invariant holds of it,
whatever the parameters and the ports. -/

open Sys2Proof
open Sys2Proof.Machine

namespace Sys2Proof.Proofs.Reset

open Sys2Proof.Proofs.CalibrationSteps

/-! ## The values -/

/-- The channel is empty at reset, so every cell reads as its reset value (20_memory.md R82). -/
theorem reset_byteAt (a : Nat) : State.reset.ch.byteAt a = unlisted a := rfl

/-- Settles O58: each register is a field of the reset state, and each channel cell reads as unlisted. -/
theorem resetValues : Obligations.ResetValues := by
  unfold Obligations.ResetValues
  have hslots : ∀ a, a < 4 → State.reset.ch.byteAt a = 0xFF := fun a ha => by
    rw [reset_byteAt, unlisted, if_pos ha]
  exact ⟨rfl, rfl, rfl, rfl, rfl, rfl, rfl, rfl, rfl, rfl, hslots, rfl, rfl, rfl, rfl, rfl, rfl, rfl, rfl, rfl, rfl,
    rfl, rfl, rfl, rfl, rfl, rfl, rfl, ⟨rfl, rfl, rfl, rfl, rfl, rfl, rfl, rfl, rfl, rfl, rfl, rfl, rfl⟩, rfl⟩

/-! ## The invariants -/

theorem busInv_atReset (p : Params) (pins : Pins) : BusInv (State.atReset p pins) where
  store := rfl
  fits := rfl
  dat := nofun
  ack := nofun
  mask := rfl
  address := nofun
  rest := fun _ => rfl
  bitIndex := nofun

theorem channelInv_atReset (p : Params) (pins : Pins) : ChannelInv (State.atReset p pins) :=
  ⟨rfl, .inl rfl, .inl rfl⟩

/-- At reset neither CHW nor CHR is in progress. -/
theorem noTearInv_atReset (p : Params) (pins : Pins) : NoTearInv (State.atReset p pins) :=
  ⟨channelInv_atReset p pins, nofun, nofun, nofun, nofun⟩

/-- Both slots hold the reset pair (20_memory.md R82), so the latest does. -/
theorem publishedInv_atReset (p : Params) (pins : Pins) : PublishedInv (0xFF, 0xFF) (State.atReset p pins) where
  channel := channelInv_atReset p pins
  target := nofun
  stored1 := nofun
  stored2 := nofun
  latest1 := fun _ i _ => if_pos (by unfold slotAddr; omega)
  latest2 := fun _ i _ => if_pos (by unfold slotAddr; omega)

/-- The calibrator's reset values are those of `cal_reset()` (42_calibrator.md R221). -/
theorem calInv_atReset (p : Params) : CalInv p (Calibrator.atReset p) :=
  calInv_reset p (Calibrator.atReset p)

theorem pollInv_atReset : PollInv Stats.atReset where
  fresh := fun _ => ⟨rfl, rfl, rfl, rfl⟩
  low := fun hcnt => absurd rfl hcnt
  high := Nat.le_refl 0
  mean := fun hcnt => absurd rfl hcnt
  bound := Nat.le_refl 0

theorem counterInv_atReset (p : Params) (pins : Pins) : CounterInv (State.atReset p pins) :=
  ⟨Nat.le_refl 0, Nat.le_refl 0⟩

/-- Settles O60: each invariant by its own lemma, for the free parameters and ports. -/
theorem invariantsHoldAtReset : Obligations.InvariantsHoldAtReset := by
  unfold Obligations.InvariantsHoldAtReset State.reset
  exact ⟨busInv_atReset _ _, ⟨rfl, rfl⟩, channelInv_atReset _ _, noTearInv_atReset _ _, publishedInv_atReset _ _,
    calInv_atReset _, pollInv_atReset, counterInv_atReset _ _⟩

end Sys2Proof.Proofs.Reset
end
